-- ==== Sys2Proof/Word.lean ====
section
/-! DEFINITION. The data widths of the block (30_encoding.md R80, 00_scope.md R9). -/

namespace Sys2Proof

/-- A byte, the only datum of the block (R9, R66). -/
abbrev Byte := BitVec 8

/-- A command word (R80). -/
abbrev Word := BitVec 16

end Sys2Proof
end

