-- ==== Sys2Proof/Config.lean ====
section
/-! DEFINITION. The parameters of 00_scope.md R8 as a record the machine carries, and the values the spec leaves free. -/

namespace Sys2Proof

/-- The step at which the transaction counter decrements (R8 `TCNT_DEC`, D5: OPEN). -/
inductive TcntDec where
  | atComplete
  | atStart
  deriving DecidableEq, Repr, Inhabited

/-- The two realizations of the client dispatch, which are one relation (R231). -/
inductive ClientMode where
  | eventDriven
  | polling
  deriving DecidableEq, Repr, Inhabited

/-- The order of bits on the wire; no rule reads it (R67). -/
inductive BitOrder where
  | msbFirst
  | lsbFirst
  deriving DecidableEq, Repr, Inhabited

/-- The parameters a model takes (R8). They are an argument: `State.cfg` holds them and no step writes them. -/
structure Config where
  /-- `C`, the capacity of the FrameBuffer. -/
  cap : Nat
  /-- `LEN_MAX`, the largest Host transfer length; step S0 compares the length with it (R29; log 7). -/
  lenMax : Nat
  /-- `TCNT_W`, the width of the transaction counter in bits; the load keeps that many (R26; log 7). -/
  tcntW : Nat
  /-- `TXD`, the depth of both transmit FIFOs. -/
  txd : Nat
  /-- `RXD`, the depth of both receive FIFOs. -/
  rxd : Nat
  /-- `FILL`, what the Host shifts out when it has no transmit data. -/
  fill : Byte
  /-- `EXHAUSTED_FILL`, what `onByteRequested` returns past the buffer. -/
  exhaustedFill : Byte
  /-- `TCNT_DEC`. -/
  tcntDec : TcntDec
  /-- `CLIENT_MODE`; both values give the same relation (R231), so no rule reads it. -/
  clientMode : ClientMode
  /-- `CLIENT_TX_WHEN_IDLE`. -/
  clientTxWhenIdle : Bool
  /-- `BUF_INIT`: the slots of the FrameBuffer whose contents at reset are fixed, with those contents; every other slot is a draw (R34, D26). -/
  bufInit : List Host.Cell
  /-- `BIT_ORDER`; no rule reads it. -/
  bitOrder : BitOrder
  deriving DecidableEq, Repr, Inhabited

/-- The reference sizing of R8.
DESIGN CHOICE (log 6): `TCNT_DEC` is OPEN, and `AtComplete` is what the test vectors use; `CLIENT_MODE` has no reference value, and `EventDriven` is the model's pick between two values that give one relation (R231).
`BUF_INIT` has its default of R8, every byte a draw. -/
def Config.reference : Config where
  cap := 64
  lenMax := 255
  tcntW := 8
  txd := 2
  rxd := 2
  fill := 0x00#8
  exhaustedFill := 0x00#8
  tcntDec := .atComplete
  clientMode := .eventDriven
  clientTxWhenIdle := false
  bufInit := []
  bitOrder := .msbFirst

/-- The one bound R8 states: `C >= 1`. No other parameter is bounded; a statement that needs a bound says it. -/
def Config.wf (c : Config) : Bool := decide (1 ≤ c.cap)

/-- The byte-addressed spaces of 20_memory.md R60. An RXB sequence is named by its number (log 9). -/
inductive SpaceId where
  | txb
  | rxb (name : Nat)
  | buf
  deriving DecidableEq, Repr, Inhabited

/-- The four event classes of 43_client_engine.md R228. -/
inductive Event where
  | start
  | stop
  | rx
  | tx
  deriving DecidableEq, Repr, Inhabited

/-- The six agents of R12. -/
inductive Agent where
  | hostProgram
  | clientProgram
  | hostPeripheral
  | clientPeripheral
  | dispatcher
  | environment
  deriving DecidableEq, Repr, Inhabited

/-- One scheduling choice: the agent that moves next, and the event a dispatch takes if it is pending (R11, R230; log 1, log 14). -/
structure Pick where
  agent : Agent
  event : Event
  deriving DecidableEq, Repr, Inhabited

/-- The draw `any()` (R10): the byte the n-th draw takes. Free value: no body, nothing is known of it (log 2). -/
opaque Config.freeByte : Nat → Byte

/-- What the caller left in a byte of an operand that the block has not written (R62). Free value (log 5). -/
opaque Config.initByte : SpaceId → Nat → Byte

/-- The draw of a FrameBuffer slot at a reset that `BUF_INIT` does not fix, by the number of the reset and the slot (R34: by default every byte is a draw). Free value: nothing relates the bytes of two resets (log 5). -/
opaque Config.bufByte : Nat → Nat → Byte

/-- The n-th free choice of an interleaving (R11, U24). Free value (log 1). -/
opaque Config.freePick : Nat → Pick

end Sys2Proof
end

