-- ==== Sys2Proof/Syntax.lean ====
section
/-! DEFINITION. The commands of 30_encoding.md R84 to R87, one constructor per row of the opcode table, with the unit and the stream each belongs to. -/

namespace Sys2Proof

/-- The units of R81. -/
inductive CmdUnit where
  | hostPeripheral
  | hostEngine
  | clientPeripheral
  | clientEngine
  | environment
  deriving DecidableEq, Repr, Inhabited

/-- The two command streams of 10_state.md R22. -/
inductive Stream where
  | host
  | client
  deriving DecidableEq, Repr, Inhabited

/-- The kind of a Host engine operation (R83; `HE.mode` of 10_state.md R29). -/
inductive Mode where
  | exchange
  | send
  | receive
  deriving DecidableEq, Repr, Inhabited

/-- The 32 commands. `t` and `r` of an engine command say that `txData` and `rxData` are present (R83). -/
inductive Instr where
  -- Host peripheral unit (R84)
  | hClrbuf
  | hSetdir (t r : Bool)
  | hLdtcnt (n : Byte)
  | hTcz
  | hTxspc
  | hRxdat
  | hWrtx (b : Byte)
  | hRdrx
  -- Host engine unit (R85)
  | exchange (t r : Bool) (len : Byte)
  | send (t : Bool) (len : Byte)
  | receive (r : Bool) (len : Byte)
  -- Client peripheral unit (R86)
  | cClrbuf
  | cSof
  | cEof
  | cAcksof
  | cAckeof
  | cRxdat
  | cTxspc
  | cWrtx (b : Byte)
  | cRdrx
  -- Client engine unit (R87)
  | ceInit
  | ceStart
  | ceStop
  | ceRecv (b : Byte)
  | ceReq
  | ceDispatch
  -- environment unit (R87)
  | envSsa
  | envSsd
  | envLine (v : Byte)
  | envFloat
  | envStall
  | envUnstall
  deriving DecidableEq, Repr, Inhabited

/-- A Host program command: its word and the attachments beside it (R83). `tx` is the byte sequence `TXB`; `rx` is the name of a writable byte sequence `RXB`. -/
structure HostCmd where
  word : Word
  tx : Option (List Byte)
  rx : Option Nat
  deriving DecidableEq, Repr, Inhabited

/-- The unit of a command (R84 to R87). -/
def Instr.unit (i : Instr) : CmdUnit :=
  match i with
  | .hClrbuf | .hSetdir _ _ | .hLdtcnt _ | .hTcz | .hTxspc | .hRxdat | .hWrtx _ | .hRdrx => .hostPeripheral
  | .exchange _ _ _ | .send _ _ | .receive _ _ => .hostEngine
  | .cClrbuf | .cSof | .cEof | .cAcksof | .cAckeof | .cRxdat | .cTxspc | .cWrtx _ | .cRdrx => .clientPeripheral
  | .ceInit | .ceStart | .ceStop | .ceRecv _ | .ceReq | .ceDispatch => .clientEngine
  | .envSsa | .envSsd | .envLine _ | .envFloat | .envStall | .envUnstall => .environment

/-- Units 0x0, 0x1 and 0x4 belong to the host program, units 0x2 and 0x3 to the client program (R81). -/
def CmdUnit.stream (u : CmdUnit) : Stream :=
  match u with
  | .hostPeripheral | .hostEngine | .environment => .host
  | .clientPeripheral | .clientEngine => .client

/-- The stream a command belongs to (R81). -/
def Instr.stream (i : Instr) : Stream := i.unit.stream

/-- Whether a command carries the attachment `TXB` (R83). -/
def Instr.takesTx (i : Instr) : Bool :=
  match i with
  | .exchange t _ _ => t
  | .send t _ => t
  | _ => false

/-- Whether a command carries the attachment `RXB` (R83). -/
def Instr.takesRx (i : Instr) : Bool :=
  match i with
  | .exchange _ r _ => r
  | .receive r _ => r
  | _ => false

/-- The kind, `t`, `r` and `len` of a Host engine command (R83, R140). -/
def Instr.engine? (i : Instr) : Option (Mode × Bool × Bool × Byte) :=
  match i with
  | .exchange t r len => some (.exchange, t, r, len)
  | .send t len => some (.send, t, false, len)
  | .receive r len => some (.receive, false, r, len)
  | _ => none

end Sys2Proof
end

