-- ==== Sys2Proof/WellFormed.lean ====
section
/-! DEFINITION. When a command is one its stream may issue: it belongs to the stream (30_encoding.md R81) and it carries exactly the attachments its bits `t` and `r` name (R83, R88). The operands themselves are in range by their types. -/

namespace Sys2Proof

/-- The command's unit belongs to the stream that issues it (R81). -/
def Instr.belongsTo (i : Instr) (st : Stream) : Bool := i.stream == st

/-- `TXB` is attached iff `t = 1` (R83). -/
def Instr.txMatches (i : Instr) (tx : Option (List Byte)) : Bool := i.takesTx == tx.isSome

/-- `RXB` is attached iff `r = 1` (R83). -/
def Instr.rxMatches (i : Instr) (rx : Option Nat) : Bool := i.takesRx == rx.isSome

/-- A command the host program may issue with these attachments. -/
def Instr.wfHost (i : Instr) (tx : Option (List Byte)) (rx : Option Nat) : Bool :=
  i.belongsTo .host && i.txMatches tx && i.rxMatches rx

/-- A command the client program may issue (it has no attachments). -/
def Instr.wfClient (i : Instr) : Bool := i.belongsTo .client

end Sys2Proof
end

