-- ==== Sys2Proof/Decode.lean ====
section
/-! DEFINITION. The command encoding of 30_encoding.md: the rows of the opcode table, the total decoder of R89, the encoder, and the pseudo-instructions of R91. -/

namespace Sys2Proof

/-! ### Fields of a word (R80, R82, R83) -/

/-- `u = w[15:12]`. -/
def unitField (w : Word) : BitVec 4 := w.extractLsb' 12 4

/-- `op = w[11:8]`. -/
def opField (w : Word) : BitVec 4 := w.extractLsb' 8 4

/-- `imm = w[7:0]`, unsigned and unscaled. -/
def immField (w : Word) : Byte := w.extractLsb' 0 8

/-- `k = w[11:10]`, the kind of a Host engine command. -/
def kindField (w : Word) : BitVec 2 := w.extractLsb' 10 2

/-- `t` of a Host engine command, `w[9]`. -/
def engineT (w : Word) : Bool := w.getLsbD 9

/-- `r` of a Host engine command, `w[8]`. -/
def engineR (w : Word) : Bool := w.getLsbD 8

/-- `t` of `H.SETDIR`, `imm[1]`. -/
def setdirT (w : Word) : Bool := w.getLsbD 1

/-- `r` of `H.SETDIR`, `imm[0]`. -/
def setdirR (w : Word) : Bool := w.getLsbD 0

/-! ### The opcode table -/

/-- One row of the opcode table: the words it matches and the command it reads from one (R89). -/
structure Row where
  mnemonic : String
  pat : Word
  mask : Word
  build : Word → Instr

/-- The row matches the word. -/
def Row.hits (row : Row) (w : Word) : Bool := w &&& row.mask == row.pat

/-- Host peripheral unit (R84). -/
def hostPeripheralRows : List Row :=
  [ ⟨"H.CLRBUF", 0x0000, 0xFFFF, fun _ => .hClrbuf⟩,
    ⟨"H.SETDIR", 0x0100, 0xFFFC, fun w => .hSetdir (setdirT w) (setdirR w)⟩,
    ⟨"H.LDTCNT", 0x0200, 0xFF00, fun w => .hLdtcnt (immField w)⟩,
    ⟨"H.TCZ", 0x0300, 0xFFFF, fun _ => .hTcz⟩,
    ⟨"H.TXSPC", 0x0400, 0xFFFF, fun _ => .hTxspc⟩,
    ⟨"H.RXDAT", 0x0500, 0xFFFF, fun _ => .hRxdat⟩,
    ⟨"H.WRTX", 0x0600, 0xFF00, fun w => .hWrtx (immField w)⟩,
    ⟨"H.RDRX", 0x0700, 0xFFFF, fun _ => .hRdrx⟩ ]

/-- Host engine unit (R85). -/
def hostEngineRows : List Row :=
  [ ⟨"EXCHANGE", 0x1000, 0xFC00, fun w => .exchange (engineT w) (engineR w) (immField w)⟩,
    ⟨"SEND", 0x1400, 0xFD00, fun w => .send (engineT w) (immField w)⟩,
    ⟨"RECEIVE", 0x1800, 0xFE00, fun w => .receive (engineR w) (immField w)⟩ ]

/-- Client peripheral unit (R86). -/
def clientPeripheralRows : List Row :=
  [ ⟨"C.CLRBUF", 0x2000, 0xFFFF, fun _ => .cClrbuf⟩,
    ⟨"C.SOF?", 0x2100, 0xFFFF, fun _ => .cSof⟩,
    ⟨"C.EOF?", 0x2200, 0xFFFF, fun _ => .cEof⟩,
    ⟨"C.ACKSOF", 0x2300, 0xFFFF, fun _ => .cAcksof⟩,
    ⟨"C.ACKEOF", 0x2400, 0xFFFF, fun _ => .cAckeof⟩,
    ⟨"C.RXDAT", 0x2500, 0xFFFF, fun _ => .cRxdat⟩,
    ⟨"C.TXSPC", 0x2600, 0xFFFF, fun _ => .cTxspc⟩,
    ⟨"C.WRTX", 0x2700, 0xFF00, fun w => .cWrtx (immField w)⟩,
    ⟨"C.RDRX", 0x2800, 0xFFFF, fun _ => .cRdrx⟩ ]

/-- Client engine unit (R87). -/
def clientEngineRows : List Row :=
  [ ⟨"CE.INIT", 0x3000, 0xFFFF, fun _ => .ceInit⟩,
    ⟨"CE.START", 0x3100, 0xFFFF, fun _ => .ceStart⟩,
    ⟨"CE.STOP", 0x3200, 0xFFFF, fun _ => .ceStop⟩,
    ⟨"CE.RECV", 0x3300, 0xFF00, fun w => .ceRecv (immField w)⟩,
    ⟨"CE.REQ", 0x3400, 0xFFFF, fun _ => .ceReq⟩,
    ⟨"CE.DISPATCH", 0x3500, 0xFFFF, fun _ => .ceDispatch⟩ ]

/-- Environment unit (R87). -/
def environmentRows : List Row :=
  [ ⟨"ENV.SSA", 0x4000, 0xFFFF, fun _ => .envSsa⟩,
    ⟨"ENV.SSD", 0x4100, 0xFFFF, fun _ => .envSsd⟩,
    ⟨"ENV.LINE", 0x4200, 0xFF00, fun w => .envLine (immField w)⟩,
    ⟨"ENV.FLOAT", 0x4300, 0xFFFF, fun _ => .envFloat⟩,
    ⟨"ENV.STALL", 0x4400, 0xFFFF, fun _ => .envStall⟩,
    ⟨"ENV.UNSTALL", 0x4500, 0xFFFF, fun _ => .envUnstall⟩ ]

/-- The opcode table (R84 to R87). -/
def opcodeRows : List Row :=
  hostPeripheralRows ++ hostEngineRows ++ clientPeripheralRows ++ clientEngineRows ++ environmentRows

/-! ### Decoding (R88, R89) -/

/-- Why a word is reserved, in the order R88 lists the cases. -/
inductive Reserved where
  /-- `u` in 0x5..0xF. -/
  | unit
  /-- An `op` marked reserved. -/
  | operation
  /-- A Host engine kind marked reserved. -/
  | engineKind
  /-- `H.SETDIR` with `imm[7:2]` not 0, or a row with `imm = 0` and `w[7:0]` not 0. -/
  | operand
  deriving DecidableEq, Repr, Inhabited

/-- The number of operations a unit has with the 4-bit field `op` (R84, R86, R87). -/
def opCount (u : BitVec 4) : Nat :=
  if u = 0 then 8 else if u = 2 then 9 else 6

/-- The case of R88 a reserved word falls under. -/
def reservedCase (w : Word) : Reserved :=
  if 5 ≤ (unitField w).toNat then .unit
  else if unitField w = 1 then .engineKind
  else if opCount (unitField w) ≤ (opField w).toNat then .operation
  else .operand

/-- The decoding algorithm of R89: the first row of the table that matches, or a named reserved case. Total on every word. -/
def decode (w : Word) : Except Reserved Instr :=
  match opcodeRows.find? (fun row => row.hits w) with
  | some row => .ok (row.build w)
  | none => .error (reservedCase w)

/-- The decoder as the opcode table numbers an instruction's bits. Every command is one 16-bit word (R92), so bits above `nbits` are 0 and a wider word is no command. -/
def decodeTableWord (nbits w : Nat) : Option Instr :=
  if w % 2 ^ nbits < 2 ^ 16 then (decode (BitVec.ofNat 16 (w % 2 ^ nbits))).toOption else none

/-! ### Encoding -/

/-- The word of R80: `{u, op, imm}`. -/
def pack (u op : BitVec 4) (imm : Byte) : Word := u ++ op ++ imm

/-- The word of a Host engine command (R83): `{0x1, k, t, r, len}`. -/
def packEngine (k : BitVec 2) (t r : Bool) (len : Byte) : Word :=
  pack 0x1 (k ++ BitVec.ofBool t ++ BitVec.ofBool r) len

/-- The operand of `H.SETDIR` (R82): `{000000, t, r}`. -/
def setdirImm (t r : Bool) : Byte := 0#6 ++ BitVec.ofBool t ++ BitVec.ofBool r

/-- The word of a command (R84 to R87). -/
def encode (i : Instr) : Word :=
  match i with
  | .hClrbuf => pack 0x0 0x0 0
  | .hSetdir t r => pack 0x0 0x1 (setdirImm t r)
  | .hLdtcnt n => pack 0x0 0x2 n
  | .hTcz => pack 0x0 0x3 0
  | .hTxspc => pack 0x0 0x4 0
  | .hRxdat => pack 0x0 0x5 0
  | .hWrtx b => pack 0x0 0x6 b
  | .hRdrx => pack 0x0 0x7 0
  | .exchange t r len => packEngine 0b00 t r len
  | .send t len => packEngine 0b01 t false len
  | .receive r len => packEngine 0b10 false r len
  | .cClrbuf => pack 0x2 0x0 0
  | .cSof => pack 0x2 0x1 0
  | .cEof => pack 0x2 0x2 0
  | .cAcksof => pack 0x2 0x3 0
  | .cAckeof => pack 0x2 0x4 0
  | .cRxdat => pack 0x2 0x5 0
  | .cTxspc => pack 0x2 0x6 0
  | .cWrtx b => pack 0x2 0x7 b
  | .cRdrx => pack 0x2 0x8 0
  | .ceInit => pack 0x3 0x0 0
  | .ceStart => pack 0x3 0x1 0
  | .ceStop => pack 0x3 0x2 0
  | .ceRecv b => pack 0x3 0x3 b
  | .ceReq => pack 0x3 0x4 0
  | .ceDispatch => pack 0x3 0x5 0
  | .envSsa => pack 0x4 0x0 0
  | .envSsd => pack 0x4 0x1 0
  | .envLine v => pack 0x4 0x2 v
  | .envFloat => pack 0x4 0x3 0
  | .envStall => pack 0x4 0x4 0
  | .envUnstall => pack 0x4 0x5 0

/-! ### Commands with attachments, and pseudo-instructions (R90, R91) -/

/-- A host command without attachments. -/
def HostCmd.plain (i : Instr) : HostCmd := ⟨encode i, none, none⟩

/-- `EXCHANGE len [, tx=..] [, rx=..]`: `t` is 1 iff `tx=` is written and `r` is 1 iff `rx=` is written (R90). -/
def HostCmd.exchange (len : Byte) (tx : Option (List Byte)) (rx : Option Nat) : HostCmd :=
  ⟨encode (.exchange tx.isSome rx.isSome len), tx, rx⟩

/-- `SEND len [, tx=..]` (R90). -/
def HostCmd.send (len : Byte) (tx : Option (List Byte)) : HostCmd :=
  ⟨encode (.send tx.isSome len), tx, none⟩

/-- `RECEIVE len [, rx=..]` (R90). -/
def HostCmd.receive (len : Byte) (rx : Option Nat) : HostCmd :=
  ⟨encode (.receive rx.isSome len), none, rx⟩

/-- A host command between the start event and the stop event: the shape of the three `FRAMED` pseudo-instructions (R91). -/
def framed (c : HostCmd) : List HostCmd := [.plain .envSsa, c, .plain .envSsd]

/-- `FRAMED.EXCHANGE len, tx.., rx..` (R91). -/
def framedExchange (len : Byte) (tx : Option (List Byte)) (rx : Option Nat) : List HostCmd :=
  framed (.exchange len tx rx)

/-- `FRAMED.SEND len, tx..` (R91). -/
def framedSend (len : Byte) (tx : Option (List Byte)) : List HostCmd := framed (.send len tx)

/-- `FRAMED.RECEIVE len, rx..` (R91). -/
def framedReceive (len : Byte) (rx : Option Nat) : List HostCmd := framed (.receive len rx)

/-- `client: POLL n` (R91). -/
def pollCommands (n : Nat) : List Instr := List.replicate n .ceDispatch

/-- `client: PRELOAD [b0, .., bk]` (R91). -/
def preloadCommands (bs : List Byte) : List Instr := .ceInit :: bs.map .ceRecv ++ [.ceStop]

end Sys2Proof
end

