-- ==== Sys2Proof/Machine/State.lean ====
section
/-! DEFINITION. The state of the block (10_state.md), its faults and refusals, and the state after reset (70_reset_and_hazards.md R290). -/

namespace Sys2Proof.Machine

/-- The phase of a Host engine operation: the step that executes next (R23, R141). -/
inductive Phase where
  | idle
  | s0
  | s1
  | s2
  | s3
  | l1
  | l2
  | l3
  | d
  deriving DecidableEq, Repr, Inhabited

/-- The Host shift register `HP.sh` (R27). -/
inductive HostShift where
  | idle
  | busy (out : Byte)
  deriving DecidableEq, Repr, Inhabited

/-- The Client shift latch `CP.sh` (R31). -/
inductive ClientShift where
  | idle
  | latched (out : Byte)
  deriving DecidableEq, Repr, Inhabited

/-- The FrameState `CE.fs` (R36). -/
inductive FrameState where
  | idle
  | active
  deriving DecidableEq, Repr, Inhabited

/-- The undriven line value `ENV.line` (R37). -/
inductive Line where
  | float
  | held (v : Byte)
  deriving DecidableEq, Repr, Inhabited

/-- The twelve causes of the fault record (60_exceptions.md R262). -/
inductive FaultBit where
  | hTxWriteErr
  | hRxReadErr
  | hUnprimed
  | hTcntBusy
  | hClearBusy
  | hConfigActive
  | hTcntZero
  | cTxWriteErr
  | cRxReadErr
  | cRxOverflow
  | cTxUnderflow
  | ceBufferOverrun
  deriving DecidableEq, Repr, Inhabited

/-- The reason of a refused command (R46, 30_encoding.md R88). -/
inductive RefuseMark where
  | reservedEncoding
  | badOperand
  deriving DecidableEq, Repr, Inhabited

/-- The result codes of the Host engine commands (60_exceptions.md R263). -/
inductive ResultCode where
  | ok
  | invalidLength
  | busTimeout
  deriving DecidableEq, Repr, Inhabited

/-- What chooses the next agent when no pick is given: nothing in the spec (`free`), or the reference schedule of R311 (`ref`). The model's own (log 1). -/
inductive Policy where
  | free
  | ref
  deriving DecidableEq, Repr, Inhabited

/-- The written bytes of one space of 20_memory.md R60, addresses strictly rising. -/
abbrev Memory := List Host.Cell

/-- A writable byte sequence `RXB` (R62): its size and its written bytes. -/
structure Space where
  size : Nat
  cells : Memory
  deriving DecidableEq, Repr, Inhabited

/-- Host peripheral state (R24 to R28). `tcnt` is a count below `2 ^ TCNT_W` (`State.counterBounded`). -/
structure HostPeripheral where
  txf : List Byte
  rxf : List Byte
  tcnt : Nat
  sh : HostShift
  txEn : Bool
  rxEn : Bool
  deriving DecidableEq, Repr, Inhabited

/-- Host engine state (R23, R29). -/
structure HostEngine where
  phase : Phase
  mode : Mode
  len : Nat
  w : Nat
  r : Nat
  tx : Option (List Byte)
  rx : Option Nat
  deriving DecidableEq, Repr, Inhabited

/-- Client peripheral state (R30 to R33). -/
structure ClientPeripheral where
  txf : List Byte
  rxf : List Byte
  sh : ClientShift
  ss : Bool
  sof : Bool
  eof : Bool
  deriving DecidableEq, Repr, Inhabited

/-- Client engine state (R34 to R36); the size of `buf` is `Config.cap`. -/
structure ClientEngine where
  buf : Memory
  rc : Nat
  wc : Nat
  fs : FrameState
  deriving DecidableEq, Repr, Inhabited

/-- Environment state (R37, R38). -/
structure Environment where
  line : Line
  stalled : Bool
  deriving DecidableEq, Repr, Inhabited

/-- The whole block. -/
structure State where
  /-- The parameters of R8; no step writes them. -/
  cfg : Config
  /-- `PROG.cmds` (R22), a parameter of the run. -/
  prog : List HostCmd
  /-- `PROG.pc` (R22). -/
  pc : Nat
  /-- `CPROG.cmds` (R22), a parameter of the run. -/
  cprog : List Word
  /-- `CPROG.pc` (R22). -/
  cpc : Nat
  /-- The result register (R21). -/
  res : Byte
  /-- `res` has been written (R21, R45; log 3). -/
  resValid : Bool
  /-- `HP.*`. -/
  hp : HostPeripheral
  /-- `HE.*`. -/
  he : HostEngine
  /-- `CP.*`. -/
  cp : ClientPeripheral
  /-- `CE.*`. -/
  ce : ClientEngine
  /-- `ENV.*`. -/
  env : Environment
  /-- The writable byte sequences `RXB`, by name (R62, R83; log 9). -/
  rxb : List Space
  /-- The fault record `FLT` (R39, R262). -/
  flt : BitVec 12
  /-- The refusal mark `REFUSED` (R46). -/
  refused : Option RefuseMark
  /-- How many resets of the block came before the last: it numbers the FrameBuffer's draws. The model's own (log 5). -/
  resets : Nat
  /-- How many free values have been taken. The model's own (log 2). -/
  draws : Nat
  /-- The scheduling choices not yet taken, oldest first. The model's own (log 1). -/
  picks : List Pick
  /-- What chooses when `picks` is empty. The model's own (log 1). -/
  policy : Policy
  /-- The event a dispatch takes if it is pending. The model's own (log 14). -/
  choice : Event
  /-- The flag of the reference schedule, "not hardware state" (R311). The model's own (log 17). -/
  hwTurn : Bool
  deriving DecidableEq, Repr, Inhabited

/-- Why the model stops. -/
inductive Fault where
  /-- An engine phase accessed a byte outside a space, which R60 does not define. Raised by S2, L1 (read of `TXB`) and L2, D (write of `RXB`) of EXCHANGE, SEND and RECEIVE, only in states no run from reset reaches. Safe. -/
  | spaceRange
  deriving DecidableEq, Repr, Inhabited

/-- Why the model gives a command no meaning at all. The spec's own refusals are the mark `State.refused`, not this. -/
inductive Refusal where
  /-- An instruction whose arm of `exec` has no meaning yet. Raised by no arm. Safe. -/
  | notModelled (mnemonic : String)
  deriving DecidableEq, Repr, Inhabited

/-- The state after reset of a block with these parameters, programs and receive sequences (R290 to R292, R294). The FrameBuffer holds what `BUF_INIT` fixes; its other bytes are draws (R34, `unlisted`).
`res` and the engine locals have no value in the spec: DESIGN CHOICE (log 3, log 4). -/
def State.resetWith (cfg : Config) (prog : List HostCmd) (cprog : List Word) (rxb : List Space) : State where
  cfg := cfg
  prog := prog
  pc := 0
  cprog := cprog
  cpc := 0
  res := 0
  resValid := false
  hp := { txf := [], rxf := [], tcnt := 0, sh := .idle, txEn := true, rxEn := true }
  he := { phase := .idle, mode := .exchange, len := 0, w := 0, r := 0, tx := none, rx := none }
  cp := { txf := [], rxf := [], sh := .idle, ss := false, sof := false, eof := false }
  ce := { buf := cfg.bufInit, rc := 0, wc := 0, fs := .idle }
  env := { line := .float, stalled := false }
  rxb := rxb
  flt := 0
  refused := none
  resets := 0
  draws := 0
  picks := []
  policy := .free
  choice := .start
  hwTurn := false

/-- The machine right after reset: the reference sizing, and no program loaded (log 8). -/
def State.reset : State := State.resetWith .reference [] [] []

end Sys2Proof.Machine
end

