-- ==== Sys2Proof/Machine/Ops.lean ====
section
/-! DEFINITION. The named operations the rules share: memory, FIFOs, `raise`, `refuse`, `res`, draws, the two program counters (00_scope.md R10). The block takes no exception: there is no trap, vector or saved state (60_exceptions.md R261), a fault is a sticky bit (`State.raise`), and the handler of an event is one step that saves nothing (R271), so no entry and no return operation exists. -/

namespace Sys2Proof.Machine

/-! ### Memory (20_memory.md R60 to R63) -/

/-- The written byte at an address, if any. -/
def Memory.lookup (m : Memory) (i : Nat) : Option Byte :=
  match m with
  | [] => none
  | (a, b) :: rest => if a = i then some b else Memory.lookup rest i

/-- Write one byte, keeping the addresses strictly rising. -/
def Memory.insert (m : Memory) (i : Nat) (v : Byte) : Memory :=
  match m with
  | [] => [(i, v)]
  | (a, b) :: rest =>
    if i < a then (i, v) :: (a, b) :: rest
    else if i = a then (i, v) :: rest
    else (a, b) :: Memory.insert rest i v

/-- The addresses rise strictly. -/
def Memory.rising (m : Memory) : Bool :=
  match m with
  | [] => true
  | [_] => true
  | (a, _) :: (b, v) :: rest => decide (a < b) && Memory.rising ((b, v) :: rest)

/-- The canonical form of a space of `size` bytes: addresses strictly rising and all inside. An unlisted address holds no written byte, so no listed entry equals it (log 5). -/
def Memory.wf (size : Nat) (m : Memory) : Bool :=
  m.rising && m.all (fun c => decide (c.1 < size))

/-- What an unlisted address of a space reads as, `resets` resets after the first: a free value. For the FrameBuffer it is the draw of the last reset, of its own at each reset (BUF_INIT, R34); for an operand, what the caller left there (R62; log 5). -/
def unlisted (resets : Nat) (sp : SpaceId) (i : Nat) : Byte :=
  match sp with
  | .txb => Config.initByte .txb i
  | .rxb n => Config.initByte (.rxb n) i
  | .buf => Config.bufByte resets i

/-- The size of a space (R61 to R63); a name that stands for no sequence has none. -/
def State.spaceSize (s : State) (sp : SpaceId) : Nat :=
  match sp with
  | .txb => (s.he.tx.getD []).length
  | .rxb n => ((s.rxb[n]?).map Space.size).getD 0
  | .buf => s.cfg.cap

/-- The byte a space holds at an index: the read every frame is stated through. -/
def State.byteAt (s : State) (sp : SpaceId) (i : Nat) : Byte :=
  match sp with
  | .txb => ((s.he.tx.getD [])[i]?).getD (unlisted s.resets sp i)
  | .rxb n => ((s.rxb[n]?).bind (fun b => b.cells.lookup i)).getD (unlisted s.resets sp i)
  | .buf => (s.ce.buf.lookup i).getD (unlisted s.resets sp i)

/-- `MemRead(space, i, 1)`, defined only for `0 <= i < size(space)` (R60). -/
def State.memRead (s : State) (sp : SpaceId) (i : Nat) : Option Byte :=
  if i < s.spaceSize sp then some (s.byteAt sp i) else none

/-- The named RXB sequence with one byte written. -/
def writeRxb (bufs : List Space) (n i : Nat) (v : Byte) : List Space :=
  match bufs[n]? with
  | some b => bufs.set n { b with cells := b.cells.insert i v }
  | none => bufs

/-- `MemWrite(space, i, 1, v)`, defined only for `0 <= i < size(space)` (R60). `TXB` is only read (R61). -/
def State.memWrite (s : State) (sp : SpaceId) (i : Nat) (v : Byte) : Option State :=
  if i < s.spaceSize sp then
    match sp with
    | .txb => none
    | .rxb n => some { s with rxb := writeRxb s.rxb n i v }
    | .buf => some { s with ce := { s.ce with buf := s.ce.buf.insert i v } }
  else none

/-! ### FIFOs (R10) -/

/-- `push(F, b)`: append to the tail. -/
def push (f : List Byte) (b : Byte) : List Byte := f ++ [b]

/-! ### Faults and refusals (R10, 60_exceptions.md R262, 10_state.md R46) -/

/-- The bit of each cause (R262). -/
def FaultBit.index (f : FaultBit) : Nat :=
  match f with
  | .hTxWriteErr => 0
  | .hRxReadErr => 1
  | .hUnprimed => 2
  | .hTcntBusy => 3
  | .hClearBusy => 4
  | .hConfigActive => 5
  | .hTcntZero => 6
  | .cTxWriteErr => 7
  | .cRxReadErr => 8
  | .cRxOverflow => 9
  | .cTxUnderflow => 10
  | .ceBufferOverrun => 11

/-- The word with only this cause's bit set. -/
def FaultBit.mask (f : FaultBit) : BitVec 12 := 1#12 <<< f.index

/-- `raise F`: the sticky bit is set and the step goes on (R10, R266, R267). -/
def State.raise (s : State) (f : FaultBit) : State := { s with flt := s.flt ||| f.mask }

/-- `if c: raise F`. -/
def State.raiseIf (s : State) (c : Bool) (f : FaultBit) : State := if c then s.raise f else s

/-- The cause is of class Fault; only `CE_BUFFER_OVERRUN` is of class Error (R262, R265, C13). -/
def FaultBit.isFault (f : FaultBit) : Bool := f != .ceBufferOverrun

/-- Whether a cause is recorded. -/
def State.hasFault (s : State) (f : FaultBit) : Bool := s.flt.getLsbD f.index

/-- `refuse(reason)`: the first reason is kept and nothing else changes (R46). -/
def State.refuse (s : State) (r : RefuseMark) : State :=
  { s with refused := some (s.refused.getD r) }

/-! ### The result register, draws and the program counters -/

/-- `true` is 1 and `false` is 0 (R21). -/
def boolByte (b : Bool) : Byte := if b then 1 else 0

/-- `res <- v` (R21). -/
def State.setRes (s : State) (v : Byte) : State := { s with res := v, resValid := true }

/-- The byte of each result code (R263). `BusTimeout` is written by no rule (R264). -/
def ResultCode.code (c : ResultCode) : Byte :=
  match c with
  | .ok => 0
  | .invalidLength => 1
  | .busTimeout => 2

/-- The byte the next `any()` gives (R10; log 2). -/
def State.drawn (s : State) : Byte := Config.freeByte s.draws

/-- A draw has been taken (log 2). -/
def State.drew (s : State) : State := { s with draws := s.draws + 1 }

/-- `PROG.pc <- PROG.pc + 1` (R22). -/
def State.advanceHost (s : State) : State := { s with pc := s.pc + 1 }

/-- `CPROG.pc <- CPROG.pc + 1` (R22). -/
def State.advanceClient (s : State) : State := { s with cpc := s.cpc + 1 }

/-- A host command that executes in one step (R22, R100). -/
def hostCommand (s : State) : Host.Outcome State Fault Refusal := .next s.advanceHost

/-- A client command that executes in one step (R22, R180, R220). -/
def clientCommand (s : State) : Host.Outcome State Fault Refusal := .next s.advanceClient

/-- Reset of the whole block (R290): every state element at its reset value; the parameters of the run, its programs, the caller's receive sequences and the model's own choices stay.
The FrameBuffer gets the slots `BUF_INIT` fixes again, and fresh draws in the others. DESIGN CHOICE: R34 does not say whether a later reset draws anew or brings back the bytes of an earlier one; the fresh draws are free values, so neither can be proved (log 5, log 19). -/
def State.afterReset (s : State) : State :=
  { State.resetWith s.cfg s.prog s.cprog s.rxb with
    resets := s.resets + 1, draws := s.draws, picks := s.picks, policy := s.policy, choice := s.choice }

end Sys2Proof.Machine
end

