-- ==== Sys2Proof/Machine/Flags.lean ====
section
/-! DEFINITION. The status conditions of 10_state.md R40, recomputed at each read, and the pending events of 43_client_engine.md R228. -/

namespace Sys2Proof.Machine

/-- Host counter zero, `HP.tcnt = 0` (R40, R104). -/
def State.hostCountZero (s : State) : Bool := s.hp.tcnt == 0

/-- Host TX space, `len(HP.txf) < TXD` (R40, R105). -/
def State.hostTxSpace (s : State) : Bool := decide (s.hp.txf.length < s.cfg.txd)

/-- Host RX data, `len(HP.rxf) > 0` (R40, R106). -/
def State.hostRxData (s : State) : Bool := decide (0 < s.hp.rxf.length)

/-- Host RX room, `len(HP.rxf) < RXD` (R110, R111). -/
def State.hostRxRoom (s : State) : Bool := decide (s.hp.rxf.length < s.cfg.rxd)

/-- Client RX data, `len(CP.rxf) > 0` (R40, R189). -/
def State.clientRxData (s : State) : Bool := decide (0 < s.cp.rxf.length)

/-- Client TX space, `len(CP.txf) < TXD` (R40, R190). -/
def State.clientTxSpace (s : State) : Bool := decide (s.cp.txf.length < s.cfg.txd)

/-- Client RX room, `len(CP.rxf) < RXD` (R183). -/
def State.clientRxRoom (s : State) : Bool := decide (s.cp.rxf.length < s.cfg.rxd)

/-- A byte is in flight in `HP.sh`. -/
def State.hostBusy (s : State) : Bool := s.hp.sh != .idle

/-- The conditions under which each event class is pending (R228). -/
def State.pending (s : State) (e : Event) : Bool :=
  match e with
  | .start => s.cp.sof
  | .stop => s.cp.eof
  | .rx => s.clientRxData
  | .tx => s.clientTxSpace && (s.ce.fs == .active || s.cfg.clientTxWhenIdle)

/-- Some event is pending: the dispatcher has a step (R230). -/
def State.anyPending (s : State) : Bool :=
  s.pending .rx || s.pending .stop || s.pending .start || s.pending .tx

/-- The first pending event in the order of the reference schedule (R311). -/
def State.firstPending (s : State) : Option Event :=
  if s.pending .rx then some .rx
  else if s.pending .stop then some .stop
  else if s.pending .start then some .start
  else if s.pending .tx then some .tx
  else none

/-- The event a dispatch takes: the chosen one if it is pending, else another pending one (R230: any one of them; log 14). -/
def State.chosenEvent (s : State) : Option Event :=
  if s.pending s.choice then some s.choice else s.firstPending

end Sys2Proof.Machine
end

