-- ==== Sys2Proof/Machine/Operands.lean ====
section
/-! DEFINITION. The operand forms of the Host engine commands (30_encoding.md R83, R88; 41_host_engine.md R140, R143, R144). The other commands' operands are the fields the decoder reads (R82). -/

namespace Sys2Proof

/-- `txOn = (kind != RECEIVE)` (R140). -/
def Mode.txOn (m : Mode) : Bool := m != .receive

/-- `rxOn = (kind != SEND)` (R140). -/
def Mode.rxOn (m : Mode) : Bool := m != .send

end Sys2Proof

namespace Sys2Proof.Machine

/-- The transmit operand attached to the command at `PROG.pc` (R83). -/
def State.attachedTx (s : State) : Option (List Byte) := (s.prog[s.pc]?).bind HostCmd.tx

/-- The name of the receive operand attached to the command at `PROG.pc` (R83). -/
def State.attachedRx (s : State) : Option Nat := (s.prog[s.pc]?).bind HostCmd.rx

/-- The attached name stands for a byte sequence the caller supplied (R83: "the name of a writable byte sequence"; log 9). -/
def State.rxNamed (s : State) : Bool :=
  match s.attachedRx with
  | some n => decide (n < s.rxb.length)
  | none => true

/-- The attachments are those `t` and `r` name (R83, R88). -/
def State.attachmentsMatch (s : State) (t r : Bool) : Bool :=
  (s.attachedTx.isSome == t) && (s.attachedRx.isSome == r) && s.rxNamed

/-- Each operand that is present has at least `len` bytes (R61, R62, R143). -/
def State.operandsLargeEnough (s : State) (len : Byte) : Bool :=
  (match s.attachedTx with
   | some xs => decide (len.toNat ≤ xs.length)
   | none => true) &&
  (match s.attachedRx with
   | some n => decide (len.toNat ≤ s.spaceSize (.rxb n))
   | none => true)

/-- The operand check of a Host engine command: attachments first, since refusal is decided before a command executes (R88, R267; log 11), then for `len >= 1` the sizes (R143). -/
def State.badOperand (s : State) (t r : Bool) (len : Byte) : Bool :=
  !s.attachmentsMatch t r || (len != 0 && !s.operandsLargeEnough len)

/-- The length is one an operation runs with: `1 <= len <= LEN_MAX` (R29, R142). DESIGN CHOICE: R142 names length 0 only; a length above `LEN_MAX`, "largest Host transfer length" (R8), is treated the same. At the reference `LEN_MAX` of 255 no 8-bit length is above it (log 7). -/
def State.lengthValid (s : State) (len : Byte) : Bool :=
  decide (1 ≤ len.toNat) && decide (len.toNat ≤ s.cfg.lenMax)

/-- `txByte(i)`: `TXB[i]` when the operand is present, else `FILL` (R144). -/
def State.txByte (s : State) (i : Nat) : Option Byte :=
  match s.he.tx with
  | some _ => s.memRead .txb i
  | none => some s.cfg.fill

end Sys2Proof.Machine
end

