-- ==== Sys2Proof/Machine/ClientPeripheral.lean ====
section
/-! DEFINITION. The Client peripheral: the frame-gated latch (42_client_peripheral.md R181 to R183) and the commands R184 to R192. -/

namespace Sys2Proof.Machine

/-! ### The frame-gated shift register -/

/-- ClientLatch, performed inside HS_START (R182). -/
def clientLatch (s : State) : State :=
  if s.cp.ss then
    match s.cp.txf with
    | b :: rest => { s with cp := { s.cp with sh := .latched b, txf := rest } }
    | [] => { s.drew.raise .cTxUnderflow with cp := { s.cp with sh := .latched s.drawn } }
  else s

/-- The byte the Host receives when no Client drives the wire, and the state after (R37, R183). -/
def undrivenByte (s : State) : Byte × State :=
  match s.env.line with
  | .held v => (v, s)
  | .float => (s.drawn, s.drew)

/-- ClientCapture(out), performed inside HS_COMPLETE: the byte the Host receives and the state after (R183). -/
def clientCapture (out : Byte) (s : State) : Byte × State :=
  match s.cp.sh with
  | .latched c =>
    (c, if s.clientRxRoom then { s with cp := { s.cp with rxf := push s.cp.rxf out, sh := .idle } }
        else { s.raise .cRxOverflow with cp := { s.cp with sh := .idle } })
  | .idle => undrivenByte s

/-! ### Effects -/

/-- Effect of `C.CLRBUF` (R184). -/
def cClrbufEffect (s : State) : State :=
  { s with cp := { s.cp with txf := [], rxf := [], sh := .idle } }

/-- Effect of `C.ACKSOF` (R187). -/
def cAcksofEffect (s : State) : State := { s with cp := { s.cp with sof := false } }

/-- Effect of `C.ACKEOF` (R188). -/
def cAckeofEffect (s : State) : State := { s with cp := { s.cp with eof := false } }

/-- Effect of `C.WRTX b` (R191). -/
def cWrtxEffect (b : Byte) (s : State) : State :=
  if s.clientTxSpace then { s with cp := { s.cp with txf := push s.cp.txf b } }
  else s.raise .cTxWriteErr

/-- Effect of `C.RDRX` without the write of `res`: the byte read and the state after (R192, R220). -/
def cRdrxEffect (s : State) : Byte × State :=
  match s.cp.rxf with
  | b :: rest => (b, { s with cp := { s.cp with rxf := rest } })
  | [] => (s.drawn, s.drew.raise .cRxReadErr)

/-! ### Commands -/

/-- `C.CLRBUF` (R184). -/
def execCClrbuf (s : State) : Host.Outcome State Fault Refusal := clientCommand (cClrbufEffect s)

/-- `C.SOF?` (R185): does not clear the flag. -/
def execCSof (s : State) : Host.Outcome State Fault Refusal := clientCommand (s.setRes (boolByte s.cp.sof))

/-- `C.EOF?` (R186): does not clear the flag. -/
def execCEof (s : State) : Host.Outcome State Fault Refusal := clientCommand (s.setRes (boolByte s.cp.eof))

/-- `C.ACKSOF` (R187). -/
def execCAcksof (s : State) : Host.Outcome State Fault Refusal := clientCommand (cAcksofEffect s)

/-- `C.ACKEOF` (R188). -/
def execCAckeof (s : State) : Host.Outcome State Fault Refusal := clientCommand (cAckeofEffect s)

/-- `C.RXDAT` (R189). -/
def execCRxdat (s : State) : Host.Outcome State Fault Refusal := clientCommand (s.setRes (boolByte s.clientRxData))

/-- `C.TXSPC` (R190). -/
def execCTxspc (s : State) : Host.Outcome State Fault Refusal := clientCommand (s.setRes (boolByte s.clientTxSpace))

/-- `C.WRTX b` (R191). -/
def execCWrtx (b : Byte) (s : State) : Host.Outcome State Fault Refusal := clientCommand (cWrtxEffect b s)

/-- `C.RDRX` (R192). -/
def execCRdrx (s : State) : Host.Outcome State Fault Refusal :=
  clientCommand ((cRdrxEffect s).2.setRes (cRdrxEffect s).1)

end Sys2Proof.Machine
end

