-- ==== Sys2Proof/Machine/ClientEngine.lean ====
section
/-! DEFINITION. The Client engine: its operations (43_client_engine.md R221 to R225), the handlers of the four events (R229) and the dispatch of one (R230, R232). -/

namespace Sys2Proof.Machine

/-! ### Effects -/

/-- Effect of `CE.INIT` (R221, R293). -/
def ceInitEffect (s : State) : State := { s with ce := { s.ce with rc := 0, wc := 0, fs := .idle } }

/-- Effect of `CE.START`, `onFrameStart()` (R222). -/
def ceStartEffect (s : State) : State := { s with ce := { s.ce with rc := 0, wc := 0, fs := .active } }

/-- Effect of `CE.STOP`, `onFrameStop()` (R223): clears the hardware, not the FrameBuffer (C5). -/
def ceStopEffect (s : State) : State :=
  { cClrbufEffect s with ce := { s.ce with rc := 0, wc := 0, fs := .idle } }

/-- Effect of `CE.RECV b`, `onByteReceived(b)` (R224): past the capacity the byte is dropped and the overrun recorded (R265). -/
def ceRecvEffect (b : Byte) (s : State) : State :=
  if s.ce.rc < s.cfg.cap then
    { s with ce := { s.ce with buf := s.ce.buf.insert s.ce.rc b, rc := s.ce.rc + 1 } }
  else s.raise .ceBufferOverrun

/-- Effect of `CE.REQ`, `onByteRequested()`, without the write of `res`: the byte and the state after (R225). -/
def ceReqEffect (s : State) : Byte × State :=
  if s.ce.wc < s.cfg.cap then
    (s.byteAt .buf s.ce.wc, { s with ce := { s.ce with wc := s.ce.wc + 1 } })
  else (s.cfg.exhaustedFill, s)

/-! ### Handlers and dispatch (R229, R230) -/

/-- H_START: acknowledge, then `onFrameStart`. -/
def handleStart (s : State) : State := ceStartEffect (cAcksofEffect s)

/-- H_STOP: acknowledge, then `onFrameStop`. -/
def handleStop (s : State) : State := ceStopEffect (cAckeofEffect s)

/-- H_RX: read a received byte, then `onByteReceived`. -/
def handleRx (s : State) : State := ceRecvEffect (cRdrxEffect s).1 (cRdrxEffect s).2

/-- H_TX: `onByteRequested`, then write the byte to the transmit FIFO. -/
def handleTx (s : State) : State := cWrtxEffect (ceReqEffect s).1 (ceReqEffect s).2

/-- The handler of an event class, one atomic step (R229). -/
def runHandler (e : Event) (s : State) : State :=
  match e with
  | .start => handleStart s
  | .stop => handleStop s
  | .rx => handleRx s
  | .tx => handleTx s

/-- One dispatch: choose a pending event and run its handler; with none pending, no effect (R230, R232). -/
def dispatchOne (s : State) : State :=
  match s.chosenEvent with
  | some e => runHandler e s
  | none => s

/-! ### Commands -/

/-- `CE.INIT` (R221). -/
def execCeInit (s : State) : Host.Outcome State Fault Refusal := clientCommand (ceInitEffect s)

/-- `CE.START` (R222). -/
def execCeStart (s : State) : Host.Outcome State Fault Refusal := clientCommand (ceStartEffect s)

/-- `CE.STOP` (R223). -/
def execCeStop (s : State) : Host.Outcome State Fault Refusal := clientCommand (ceStopEffect s)

/-- `CE.RECV b` (R224). -/
def execCeRecv (b : Byte) (s : State) : Host.Outcome State Fault Refusal := clientCommand (ceRecvEffect b s)

/-- `CE.REQ` (R225): as a command it writes `res`. -/
def execCeReq (s : State) : Host.Outcome State Fault Refusal :=
  clientCommand ((ceReqEffect s).2.setRes (ceReqEffect s).1)

/-- `CE.DISPATCH` (R232). -/
def execCeDispatch (s : State) : Host.Outcome State Fault Refusal := clientCommand (dispatchOne s)

end Sys2Proof.Machine
end

