-- ==== Sys2Proof/Machine/Environment.lean ====
section
/-! DEFINITION. The environment commands of the host program (42_client_peripheral.md R200 to R205). -/

namespace Sys2Proof.Machine

/-- `ENV.SSA`: assertion is an edge only from de-asserted (R200, R193). -/
def execEnvSsa (s : State) : Host.Outcome State Fault Refusal :=
  hostCommand (if s.cp.ss then s else { s with cp := { s.cp with ss := true, sof := true } })

/-- `ENV.SSD`: de-assertion is an edge only from asserted; it abandons the Client's byte in flight (R201, R193). -/
def execEnvSsd (s : State) : Host.Outcome State Fault Refusal :=
  hostCommand (if s.cp.ss then { s with cp := { s.cp with ss := false, eof := true, sh := .idle } } else s)

/-- `ENV.LINE v` (R202). -/
def execEnvLine (v : Byte) (s : State) : Host.Outcome State Fault Refusal :=
  hostCommand { s with env := { s.env with line := .held v } }

/-- `ENV.FLOAT` (R203). -/
def execEnvFloat (s : State) : Host.Outcome State Fault Refusal :=
  hostCommand { s with env := { s.env with line := .float } }

/-- `ENV.STALL` (R204). -/
def execEnvStall (s : State) : Host.Outcome State Fault Refusal :=
  hostCommand { s with env := { s.env with stalled := true } }

/-- `ENV.UNSTALL` (R205). -/
def execEnvUnstall (s : State) : Host.Outcome State Fault Refusal :=
  hostCommand { s with env := { s.env with stalled := false } }

end Sys2Proof.Machine
end

