-- ==== Sys2Proof/Machine/HostPeripheral.lean ====
section
/-! DEFINITION. The Host peripheral commands (40_host_peripheral.md R101 to R108). Each effect is named apart from the command, since the Host engine applies the same effects (41_host_engine.md R145 to R148). -/

namespace Sys2Proof.Machine

/-! ### Effects -/

/-- Effect of `H.CLRBUF` (R101). -/
def hClrbufEffect (s : State) : State :=
  { s.raiseIf s.hostBusy .hClearBusy with hp := { s.hp with txf := [], rxf := [] } }

/-- Effect of `H.SETDIR t, r` (R102). -/
def hSetdirEffect (t r : Bool) (s : State) : State :=
  { s.raiseIf (s.hostBusy || !s.hostCountZero) .hConfigActive with hp := { s.hp with txEn := t, rxEn := r } }

/-- The count a load of `n` leaves: `n`, in a counter of `TCNT_W` bits (R26, R103). DESIGN CHOICE: R103 states no load that the width does not hold, which 8 bits or more always do; a narrower counter keeps the low bits (log 7). -/
def State.loadedCount (s : State) (n : Byte) : Nat := n.toNat % 2 ^ s.cfg.tcntW

/-- Effect of `H.LDTCNT n` (R103): up to three causes in one step (R267). -/
def hLdtcntEffect (n : Byte) (s : State) : State :=
  { ((s.raiseIf (n == 0) .hTcntZero).raiseIf s.hostBusy .hTcntBusy).raiseIf
      (n != 0 && s.hp.txEn && s.hp.txf.isEmpty) .hUnprimed with
    hp := { s.hp with tcnt := s.loadedCount n } }

/-- Effect of `H.WRTX b` (R107). -/
def hWrtxEffect (b : Byte) (s : State) : State :=
  if s.hostTxSpace then { s with hp := { s.hp with txf := push s.hp.txf b } }
  else s.raise .hTxWriteErr

/-- Effect of `H.RDRX` without the write of `res`: the byte read and the state after (R108). -/
def hRdrxEffect (s : State) : Byte × State :=
  match s.hp.rxf with
  | b :: rest => (b, { s with hp := { s.hp with rxf := rest } })
  | [] => (s.drawn, s.drew.raise .hRxReadErr)

/-! ### Commands -/

/-- `H.CLRBUF` (R101). -/
def execHClrbuf (s : State) : Host.Outcome State Fault Refusal := hostCommand (hClrbufEffect s)

/-- `H.SETDIR t, r` (R102). -/
def execHSetdir (t r : Bool) (s : State) : Host.Outcome State Fault Refusal := hostCommand (hSetdirEffect t r s)

/-- `H.LDTCNT n` (R103). -/
def execHLdtcnt (n : Byte) (s : State) : Host.Outcome State Fault Refusal := hostCommand (hLdtcntEffect n s)

/-- `H.TCZ` (R104). -/
def execHTcz (s : State) : Host.Outcome State Fault Refusal := hostCommand (s.setRes (boolByte s.hostCountZero))

/-- `H.TXSPC` (R105). -/
def execHTxspc (s : State) : Host.Outcome State Fault Refusal := hostCommand (s.setRes (boolByte s.hostTxSpace))

/-- `H.RXDAT` (R106). -/
def execHRxdat (s : State) : Host.Outcome State Fault Refusal := hostCommand (s.setRes (boolByte s.hostRxData))

/-- `H.WRTX b` (R107). -/
def execHWrtx (b : Byte) (s : State) : Host.Outcome State Fault Refusal := hostCommand (hWrtxEffect b s)

/-- `H.RDRX` (R108). -/
def execHRdrx (s : State) : Host.Outcome State Fault Refusal :=
  hostCommand ((hRdrxEffect s).2.setRes (hRdrxEffect s).1)

end Sys2Proof.Machine
end

