-- ==== Sys2Proof/Machine/HostEngine.lean ====
section
/-! DEFINITION. The Host engine operations (41_host_engine.md): one step per phase (R141), shared by EXCHANGE, SEND and RECEIVE. While an operation runs `PROG.pc` stays at its command, and each step of the host program executes the phase `HE.phase` names (10_state.md R22, R23). -/

namespace Sys2Proof.Machine

/-- A phase that accesses a space: the state after it, or the fault of an access outside the space (R60; log 16). -/
def phaseResult (o : Option State) : Host.Outcome State Fault Refusal :=
  match o with
  | some s => .next s
  | none => .fault .spaceRange

/-- The operation goes to its next phase. -/
def State.toPhase (s : State) (p : Phase) : State := { s with he := { s.he with phase := p } }

/-- Operand capture of step S0 (R145). -/
def captureOperands (k : Mode) (len : Byte) (s : State) : State :=
  { s with he := { phase := .s1, mode := k, len := len.toNat, w := 0, r := 0, tx := s.attachedTx, rx := s.attachedRx } }

/-- S0: operand check, length check, operand capture and clear (R142, R143, R145). -/
def engineS0 (k : Mode) (t r : Bool) (len : Byte) (s : State) : Host.Outcome State Fault Refusal :=
  if s.badOperand t r len then .next (s.refuse .badOperand)
  else if s.lengthValid len then .next (hClrbufEffect (captureOperands k len s))
  else hostCommand (s.setRes ResultCode.invalidLength.code)

/-- S1: the path enables (R145). -/
def engineS1 (s : State) : State := (hSetdirEffect s.he.mode.txOn s.he.mode.rxOn s).toPhase .s2

/-- Load `txByte(i)` and set the write index (R146, R148). -/
def loadTx (i : Nat) (s : State) : Option State :=
  (s.txByte i).map fun b => ({ hWrtxEffect b s with he := { s.he with w := i + 1 } } : State)

/-- S2: prime the first transmit byte (R146). -/
def engineS2 (s : State) : Option State :=
  (if s.he.mode.txOn then loadTx 0 s else some s).map fun s' => s'.toPhase .s3

/-- S3: load the counter; the transfer starts (R147). `hwTurn` is REF's own flag (R311). -/
def engineS3 (s : State) : State :=
  { (hLdtcntEffect (BitVec.ofNat 8 s.he.len) s).toPhase .l1 with hwTurn := true }

/-- L1: transmit refill, at most one byte (R148). -/
def engineL1 (s : State) : Option State :=
  (if s.he.mode.txOn && decide (s.he.w < s.he.len) && s.hostTxSpace then loadTx s.he.w s else some s).map
    fun s' => s'.toPhase .l2

/-- `store(b)` (R149): a byte past `len` is discarded, an absent `rxData` discards the byte and still advances the index. -/
def store (b : Byte) (s : State) : Option State :=
  if s.he.r < s.he.len then
    (match s.he.rx with
     | some n => s.memWrite (.rxb n) s.he.r b
     | none => some s).map fun (s' : State) => { s' with he := { s.he with r := s.he.r + 1 } }
  else some s

/-- One conditional read of the receive FIFO (R149, R150): a test, not a wait. -/
def drain (s : State) : Option State :=
  if s.he.mode.rxOn then
    match s.hp.rxf with
    | b :: rest => store b { s with hp := { s.hp with rxf := rest } }
    | [] => some s
  else some s

/-- L2: receive drain in the loop (R149). -/
def engineL2 (s : State) : Option State := (drain s).map fun s' => s'.toPhase .l3

/-- L3: the termination test, the counter alone (R151). Going back to L1 sets REF's flag (R311). -/
def engineL3 (s : State) : State :=
  if s.hostCountZero then s.toPhase .d else { s.toPhase .l1 with hwTurn := true }

/-- D: the one trailing drain, then the return (R150, R152). -/
def engineD (s : State) : Option State :=
  (drain s).map fun s' => ((s'.setRes ResultCode.ok.code).toPhase .idle).advanceHost

/-- One step of an operation: the phase `HE.phase` names. In `Idle` the host program has just reached the command, and its step is S0 (R141, R142; log 12). -/
def engineStep (k : Mode) (t r : Bool) (len : Byte) (s : State) : Host.Outcome State Fault Refusal :=
  match s.he.phase with
  | .idle => engineS0 k t r len s
  | .s0 => engineS0 k t r len s
  | .s1 => .next (engineS1 s)
  | .s2 => phaseResult (engineS2 s)
  | .s3 => .next (engineS3 s)
  | .l1 => phaseResult (engineL1 s)
  | .l2 => phaseResult (engineL2 s)
  | .l3 => .next (engineL3 s)
  | .d => phaseResult (engineD s)

/-- `EXCHANGE len [, tx=TXB] [, rx=RXB]` (R153). -/
def execExchange (t r : Bool) (len : Byte) (s : State) : Host.Outcome State Fault Refusal :=
  engineStep .exchange t r len s

/-- `SEND len [, tx=TXB]` (R154): no receive operand exists. -/
def execSend (t : Bool) (len : Byte) (s : State) : Host.Outcome State Fault Refusal :=
  engineStep .send t false len s

/-- `RECEIVE len [, rx=RXB]` (R155): no transmit operand exists. -/
def execReceive (r : Bool) (len : Byte) (s : State) : Host.Outcome State Fault Refusal :=
  engineStep .receive false r len s

end Sys2Proof.Machine
end

