-- ==== Sys2Proof/Machine/Dispatch.lean ====
section
/-! DEFINITION. One arm per command: the step the command's own stream takes when it issues it (30_encoding.md R84 to R87). -/

namespace Sys2Proof.Machine

def exec (i : Instr) (s : State) : Host.Outcome State Fault Refusal :=
  match i with
  -- Host peripheral unit (R84)
  | .hClrbuf => Sys2Proof.Machine.execHClrbuf s
  | .hSetdir t r => Sys2Proof.Machine.execHSetdir t r s
  | .hLdtcnt n => Sys2Proof.Machine.execHLdtcnt n s
  | .hTcz => Sys2Proof.Machine.execHTcz s
  | .hTxspc => Sys2Proof.Machine.execHTxspc s
  | .hRxdat => Sys2Proof.Machine.execHRxdat s
  | .hWrtx b => Sys2Proof.Machine.execHWrtx b s
  | .hRdrx => Sys2Proof.Machine.execHRdrx s
  -- Host engine unit (R85)
  | .exchange t r len => Sys2Proof.Machine.execExchange t r len s
  | .send t len => Sys2Proof.Machine.execSend t len s
  | .receive r len => Sys2Proof.Machine.execReceive r len s
  -- Client peripheral unit (R86)
  | .cClrbuf => Sys2Proof.Machine.execCClrbuf s
  | .cSof => Sys2Proof.Machine.execCSof s
  | .cEof => Sys2Proof.Machine.execCEof s
  | .cAcksof => Sys2Proof.Machine.execCAcksof s
  | .cAckeof => Sys2Proof.Machine.execCAckeof s
  | .cRxdat => Sys2Proof.Machine.execCRxdat s
  | .cTxspc => Sys2Proof.Machine.execCTxspc s
  | .cWrtx b => Sys2Proof.Machine.execCWrtx b s
  | .cRdrx => Sys2Proof.Machine.execCRdrx s
  -- Client engine unit (R87)
  | .ceInit => Sys2Proof.Machine.execCeInit s
  | .ceStart => Sys2Proof.Machine.execCeStart s
  | .ceStop => Sys2Proof.Machine.execCeStop s
  | .ceRecv b => Sys2Proof.Machine.execCeRecv b s
  | .ceReq => Sys2Proof.Machine.execCeReq s
  | .ceDispatch => Sys2Proof.Machine.execCeDispatch s
  -- environment unit (R87)
  | .envSsa => Sys2Proof.Machine.execEnvSsa s
  | .envSsd => Sys2Proof.Machine.execEnvSsd s
  | .envLine v => Sys2Proof.Machine.execEnvLine v s
  | .envFloat => Sys2Proof.Machine.execEnvFloat s
  | .envStall => Sys2Proof.Machine.execEnvStall s
  | .envUnstall => Sys2Proof.Machine.execEnvUnstall s

end Sys2Proof.Machine
end

