-- ==== Sys2Proof/Machine/Fetch.lean ====
section
/-! DEFINITION. The command each stream issues next (10_state.md R22), the refusals decided before it executes (30_encoding.md R88), and a command placed where its stream issues it next. -/

namespace Sys2Proof.Machine

/-- What a stream does next. -/
inductive Issue where
  /-- The stream is at its end (R22). -/
  | finished
  /-- A reserved word, or a command of a unit of the other stream (R88). -/
  | reserved
  /-- The command. -/
  | command (i : Instr)
  deriving DecidableEq, Repr, Inhabited

/-- A word as a stream reads it: a command of one of its units, or reserved (R88, R89). -/
def issueWord (st : Stream) (w : Word) : Issue :=
  match decode w with
  | .ok i => if i.belongsTo st then .command i else .reserved
  | .error _ => .reserved

/-- What the host program does next (R22). DESIGN CHOICE: an attachment beside a command that is not a Host engine command, which R92 says none has and no rule gives an outcome, is not looked at: the command issues as its word says (log 20). -/
def State.hostIssue (s : State) : Issue :=
  match s.prog[s.pc]? with
  | some c => issueWord .host c.word
  | none => .finished

/-- What the client program does next (R22). -/
def State.clientIssue (s : State) : Issue :=
  match s.cprog[s.cpc]? with
  | some w => issueWord .client w
  | none => .finished

/-- The command is a Host engine command about to start whose operands will be refused (R88, R143). -/
def State.operandRefused (s : State) (i : Instr) : Bool :=
  match i.engine? with
  | some (_, t, r, len) => (s.he.phase == .idle || s.he.phase == .s0) && s.badOperand t r len
  | none => false

/-- The host program has a step. A stream whose command is refused has none once the mark is set (R22, R46; log 18). -/
def State.hostEnabled (s : State) : Bool :=
  match s.hostIssue with
  | .finished => false
  | .reserved => s.refused.isNone
  | .command i => !s.operandRefused i || s.refused.isNone

/-- The client program has a step (R22, R46; log 18). -/
def State.clientEnabled (s : State) : Bool :=
  match s.clientIssue with
  | .finished => false
  | .reserved => s.refused.isNone
  | .command _ => true

/-- The list with `x` at index `k`, longer entries kept, a shorter list filled up with `pad`. -/
def placeAt {α : Type} (l : List α) (k : Nat) (x pad : α) : List α :=
  l.take k ++ List.replicate (k - l.length) pad ++ x :: l.drop (k + 1)

/-- The most bytes an operand of a command can need: the largest 8-bit length. -/
def operandBytes : Nat := 255

/-- The state with a word, and the attachments its bits `t` and `r` ask for, where the next step issues it: in the stream of its unit (the host program for a reserved word), with the engine idle, and the stream's agent picked next (log 8). -/
def placeWord (s : State) (w : Word) : State :=
  match decode w with
  | .ok i =>
    match i.stream with
    | .client =>
      { s with
        cprog := placeAt s.cprog s.cpc w 0
        picks := ⟨.clientProgram, s.choice⟩ :: s.picks }
    | .host =>
      { s with
        prog := placeAt s.prog s.pc
          { word := w
            tx := if i.takesTx then some (List.replicate operandBytes 0) else none
            rx := if i.takesRx then some s.rxb.length else none }
          { word := 0, tx := none, rx := none }
        rxb := if i.takesRx then s.rxb ++ [{ size := operandBytes, cells := [] }] else s.rxb
        he := { s.he with phase := .idle }
        picks := ⟨.hostProgram, s.choice⟩ :: s.picks }
  | .error _ =>
    { s with
      prog := placeAt s.prog s.pc { word := w, tx := none, rx := none } { word := 0, tx := none, rx := none }
      he := { s.he with phase := .idle }
      picks := ⟨.hostProgram, s.choice⟩ :: s.picks }

end Sys2Proof.Machine
end

