-- ==== Sys2Proof/Machine/Wire.lean ====
section
/-! DEFINITION. The autonomous byte steps of the Host peripheral, which are the wire (40_host_peripheral.md R110 to R114). -/

namespace Sys2Proof.Machine

/-- The counter after one decrement. It never goes below 0 (R26); at 0, which only a load of 0 during a byte reaches, it stays (log 10). -/
def decrement (t : Nat) : Nat := if t = 0 then 0 else t - 1

/-- HS_START is enabled: the clock gating of R110. -/
def State.hsStartEnabled (s : State) : Bool :=
  !s.env.stalled && !s.hostBusy && !s.hostCountZero && (!s.hp.txEn || !s.hp.txf.isEmpty) &&
    (!s.hp.rxEn || s.hostRxRoom)

/-- HS_COMPLETE is enabled (R111). -/
def State.hsCompleteEnabled (s : State) : Bool := !s.env.stalled && s.hostBusy

/-- The byte HS_START shifts out: the head of the transmit FIFO, or `FILL` with the transmit path disabled (R110). -/
def State.shiftOut (s : State) : Byte :=
  if s.hp.txEn then s.hp.txf.headD s.cfg.fill else s.cfg.fill

/-- HS_START, the start of one byte exchange (R110). It clears REF's flag (R311). -/
def hsStart (s : State) : State :=
  clientLatch
    { s with
      hp := { s.hp with
        txf := if s.hp.txEn then s.hp.txf.tail else s.hp.txf
        sh := .busy s.shiftOut
        tcnt := if s.cfg.tcntDec = .atStart then decrement s.hp.tcnt else s.hp.tcnt }
      hwTurn := false }

/-- HS_COMPLETE, the end of one byte exchange that shifts `out` (R111). It clears REF's flag (R311). -/
def hsComplete (out : Byte) (s : State) : State :=
  { (clientCapture out s).2 with
    hp := { s.hp with
      rxf := if s.hp.rxEn && s.hostRxRoom then push s.hp.rxf (clientCapture out s).1 else s.hp.rxf
      tcnt := if s.cfg.tcntDec = .atComplete then decrement s.hp.tcnt else s.hp.tcnt
      sh := .idle }
    hwTurn := false }

/-- A step of the Host peripheral agent, if it has one (R110, R111, R114). -/
def hostPeripheralStep (s : State) : Option State :=
  if s.env.stalled then none
  else
    match s.hp.sh with
    | .busy out => some (hsComplete out s)
    | .idle => if s.hsStartEnabled then some (hsStart s) else none

end Sys2Proof.Machine
end

