-- ==== Sys2Proof/Machine/Schedule.lean ====
section
/-! DEFINITION. Which agent moves next (00_scope.md R11, R12): a pick given as data, else a free choice, else the reference schedule of 70_reset_and_hazards.md R311. -/

namespace Sys2Proof.Machine

/-- An agent has an enabled step (R12). The Client peripheral and the environment have no step of their own. -/
def State.enabled (s : State) (a : Agent) : Bool :=
  match a with
  | .hostProgram => s.hostEnabled
  | .clientProgram => s.clientEnabled
  | .hostPeripheral => s.hsStartEnabled || s.hsCompleteEnabled
  | .dispatcher => s.anyPending
  | .clientPeripheral => false
  | .environment => false

/-- Some agent has an enabled step. -/
def State.anyEnabled (s : State) : Bool :=
  s.enabled .dispatcher || s.enabled .clientProgram || s.enabled .hostPeripheral || s.enabled .hostProgram

/-- REF lets the Host peripheral move: outside an engine operation, or once per pass of the loop (R311). -/
def State.refHardwareTurn (s : State) : Bool :=
  s.he.phase == .idle || (s.he.phase == .l1 && s.hwTurn)

/-- The agent the reference schedule takes (R311). -/
def State.refAgent (s : State) : Option Agent :=
  if s.enabled .dispatcher then some .dispatcher
  else if s.enabled .clientProgram then some .clientProgram
  else if s.enabled .hostPeripheral && s.refHardwareTurn then some .hostPeripheral
  else if s.enabled .hostProgram then some .hostProgram
  else none

/-- The pick of the next step; none when the reference schedule finds no agent to take (log 1). -/
def State.nextPick (s : State) : Option Pick :=
  match s.picks with
  | p :: _ => some p
  | [] =>
    match s.policy with
    | .free => some (Config.freePick s.draws)
    | .ref => s.refAgent.map fun a => { agent := a, event := s.firstPending.getD s.choice }

/-- The state with that pick taken: its event is the choice a dispatch makes, and it is not used again (log 1). -/
def State.takePick (s : State) : State :=
  match s.picks with
  | p :: rest => { s with picks := rest, choice := p.event }
  | [] =>
    match s.policy with
    | .free => { s with draws := s.draws + 1, choice := (Config.freePick s.draws).event }
    | .ref => { s with choice := s.firstPending.getD s.choice }

end Sys2Proof.Machine
end

