-- ==== Sys2Proof/Machine/Step.lean ====
section
/-! DEFINITION. One step of the block: the next pick is taken and its agent moves (00_scope.md R11, R12). An agent with no enabled step leaves the rest as it is: a wait is never a fault (R11; log 13). -/

namespace Sys2Proof.Machine

/-- A step of a program stream: nothing at its end, the refusal of a reserved word or a wrong unit (R88), or the command it issues. -/
def runIssue (q : Issue) (s : State) : Host.Outcome State Fault Refusal :=
  match q with
  | .finished => .next s
  | .reserved => .next (s.refuse .reservedEncoding)
  | .command i => exec i s

/-- A step of one agent (R12). -/
def runAgent (a : Agent) (s : State) : Host.Outcome State Fault Refusal :=
  match a with
  | .hostProgram => runIssue s.hostIssue s
  | .clientProgram => runIssue s.clientIssue s
  | .hostPeripheral => .next ((hostPeripheralStep s).getD s)
  | .dispatcher => .next (dispatchOne s)
  | .clientPeripheral => .next s
  | .environment => .next s

/-- One step of the block (R11). -/
def step (s : State) : Host.Outcome State Fault Refusal :=
  match s.nextPick with
  | some p => runAgent p.agent s.takePick
  | none => .next s

/-- The state with the table's word (bits above `nbits` are 0) where its stream issues it next. -/
def State.withFetchWord (s : State) (nbits w : Nat) : State :=
  placeWord s (BitVec.ofNat 16 (w % 2 ^ nbits))

end Sys2Proof.Machine
end

