-- ==== Sys2Proof/Safety.lean ====
section
/-! DEFINITION. What counts as a safe run: the end of a run (10_state.md R47), the premises claims take (R157, R304, R305, R307), fairness of a run (R114, R230), and the invariants of the block. -/

namespace Sys2Proof.Machine

/-! ### Observation and the end of a run -/

/-- What the observation reads of `res`: nothing before it is written (R21, R45). -/
def State.observeRes (s : State) : Option Byte := if s.resValid then some s.res else none

/-- A bit of class Fault is recorded: `FLT[10:0] != 0` (R39, R47). -/
def State.anyFault (s : State) : Bool := s.flt.extractLsb' 0 11 != 0

/-- A final state (R47). The Error bit 11 may be set. -/
def State.final (s : State) : Bool :=
  s.pc == s.prog.length && s.cpc == s.cprog.length && s.he.phase == .idle && s.refused.isNone &&
    !s.anyFault && !s.anyEnabled

/-- No agent can step and the state is not final (R47). -/
def State.stuck (s : State) : Bool := !s.anyEnabled && !s.final

/-- An engine operation is under way: a phase after S0 is next. -/
def Phase.running (p : Phase) : Bool := p != .idle && p != .s0

/-- The host program's next step loads the counter: `H.LDTCNT` (R103), or step S3 of an engine operation (R147). -/
def State.loadsCount (s : State) : Bool :=
  match s.hostIssue with
  | .finished => false
  | .reserved => false
  | .command (.hLdtcnt _) => true
  | .command i => i.engine?.isSome && s.he.phase == .s3

/-- The phase is one of the loop L1, L2, L3 (R141, R151). -/
def Phase.looping (p : Phase) : Bool := p == .l1 || p == .l2 || p == .l3

/-- The Host peripheral is quiet (R153): no byte in flight and the counter at 0. -/
def State.hostQuiet (s : State) : Bool := !s.hostBusy && s.hostCountZero

/-! ### What statements compare -/

/-- Every byte of the FrameBuffer and of every receive sequence reads as before. -/
def SameMemory (s t : State) : Prop :=
  (∀ i, t.byteAt .buf i = s.byteAt .buf i) ∧ ∀ n i, t.byteAt (.rxb n) i = s.byteAt (.rxb n) i

/-- The fault record gains the causes that `p` names and no other; its twelve bits are the twelve causes (R262). -/
def FaultsAdded (s t : State) (p : FaultBit → Prop) : Prop :=
  ∀ f, t.hasFault f = true ↔ s.hasFault f = true ∨ p f

/-- The state with this pick taken. -/
def State.after (s : State) (e : Event) (rest : List Pick) : State := { s with picks := rest, choice := e }

/-! ### Runs, fairness, premises -/

/-- The step of the block under a given pick, whatever picks the state still lists (R11). -/
def stepWith (p : Pick) (s : State) : Host.Outcome State Fault Refusal := step { s with picks := [p] }

/-- A run of R11: an interleaving of the agents' enabled steps, under any infinite sequence of picks. While some agent has an enabled step, the agent that moves has one: the idle picks of `step` (log 13) are no steps of R11, so they stand only after the end of a run, where nothing is enabled and the state stays. -/
structure Run where
  at_ : Nat → State
  pick : Nat → Pick
  steps : ∀ n, stepWith (pick n) (at_ n) = .next (at_ (n + 1))
  enabled : ∀ n, (at_ n).anyEnabled = true → (at_ n).enabled (pick n).agent = true

/-- The state the n-th step of the run acts in, its pick taken. -/
def Run.acting (run : Run) (n : Nat) : State := (run.at_ n).after (run.pick n).event []

/-- The n-th step of the run is one of this agent. -/
def Run.moves (run : Run) (n : Nat) (a : Agent) : Prop := (run.pick n).agent = a

/-- The Host peripheral is weakly fair (R114): enabled from some point on, it moves. -/
def Run.hostPeripheralFair (run : Run) : Prop :=
  ∀ n, (∀ m, n ≤ m → (run.at_ m).enabled .hostPeripheral = true) → ∃ m, n ≤ m ∧ run.moves m .hostPeripheral

/-- The event whose handler a step of this agent runs: the dispatcher's own dispatch (R230), or `CE.DISPATCH` of the client program, which is the same step (R232). -/
def State.handledBy (s : State) (a : Agent) : Option Event :=
  match a with
  | .dispatcher => s.chosenEvent
  | .clientProgram => if s.clientIssue = .command .ceDispatch then s.chosenEvent else none
  | .hostProgram => none
  | .hostPeripheral => none
  | .clientPeripheral => none
  | .environment => none

/-- The n-th step of the run handles this event, whichever agent runs the handler. -/
def Run.handles (run : Run) (n : Nat) (e : Event) : Prop :=
  ∃ a, run.moves n a ∧ (run.acting n).handledBy a = some e

/-- The dispatcher is weakly fair per event class (R230): an event that stays pending is eventually handled. -/
def Run.dispatcherFair (run : Run) : Prop :=
  ∀ e n, (∀ m, n ≤ m → (run.at_ m).pending e = true) → ∃ m, n ≤ m ∧ run.handles m e

/-- HOST_DRAIN_MARGIN (R157), of a state at phase D. -/
def State.hostDrainMargin (s : State) : Prop :=
  s.he.r + s.hp.rxf.length = s.he.len ∧ s.hp.rxf.length ≤ 1

/-- CLIENT_KEEPS_UP (R304): no underflow and no overflow is recorded. -/
def State.clientKeepsUp (s : State) : Bool := !s.hasFault .cTxUnderflow && !s.hasFault .cRxOverflow

/-- CLIENT_FRAME_DRAINED (R234, R305): every byte of a frame is handled before its stop event is, whether the dispatcher handles the stop or `CE.DISPATCH` does. -/
def Run.clientFrameDrained (run : Run) : Prop :=
  ∀ n, run.handles n .stop → (run.acting n).cp.rxf = []

/-- The framing flags are clear, so that the next edge merges with none (R193, R307). -/
def State.edgesSeen (s : State) : Bool := !s.cp.sof && !s.cp.eof

/-- CLIENT_SEES_EDGES (R307): each framing flag is cleared before the next edge of either kind. -/
def Run.clientSeesEdges (run : Run) : Prop :=
  ∀ n, (run.at_ (n + 1)).cp.ss ≠ (run.at_ n).cp.ss → (run.at_ n).edgesSeen = true

/-! ### Invariants -/

/-- The FIFOs hold at most `TXD` and `RXD` bytes (R24, R25, R30, R115). -/
def State.fifosBounded (s : State) : Prop :=
  s.hp.txf.length ≤ s.cfg.txd ∧ s.hp.rxf.length ≤ s.cfg.rxd ∧
    s.cp.txf.length ≤ s.cfg.txd ∧ s.cp.rxf.length ≤ s.cfg.rxd

/-- The cursors never pass `C` (R35, R227). -/
def State.cursorsBounded (s : State) : Prop := s.ce.rc ≤ s.cfg.cap ∧ s.ce.wc ≤ s.cfg.cap

/-- The counter holds what its width can (R26). -/
def State.counterBounded (s : State) : Prop := s.hp.tcnt < 2 ^ s.cfg.tcntW

/-- Every space, and `BUF_INIT`, is in canonical form and inside its size (R34, R60, log 5). -/
def State.memoryWf (s : State) : Prop :=
  s.ce.buf.wf s.cfg.cap = true ∧ Memory.wf s.cfg.cap s.cfg.bufInit = true ∧ ∀ b ∈ s.rxb, b.cells.wf b.size = true

/-- The program counters do not pass the ends of their lists (R22). -/
def State.pcsBounded (s : State) : Prop := s.pc ≤ s.prog.length ∧ s.cpc ≤ s.cprog.length

/-- While an operation runs, its operands are captured and in range (R29, R61, R62), and `PROG.pc` stays at its command (R140). -/
def State.engineWf (s : State) : Prop :=
  s.he.phase ≠ .s0 ∧
  (s.he.phase.running = true →
    1 ≤ s.he.len ∧ s.he.len ≤ 255 ∧ s.he.len ≤ s.cfg.lenMax ∧ s.he.w ≤ s.he.len ∧ s.he.r ≤ s.he.len ∧
    (∀ xs, s.he.tx = some xs → s.he.len ≤ xs.length) ∧
    (∀ n, s.he.rx = some n → s.he.len ≤ s.spaceSize (.rxb n)) ∧
    ∃ i t r len, s.hostIssue = .command i ∧ i.engine? = some (s.he.mode, t, r, len))

/-- The invariant of the block. -/
structure State.Inv (s : State) : Prop where
  cfg : s.cfg.wf = true
  counter : s.counterBounded
  fifos : s.fifosBounded
  cursors : s.cursorsBounded
  memory : s.memoryWf
  pcs : s.pcsBounded
  engine : s.engineWf

/-- The Client is latched only while Slave-Select is asserted and a Host byte is in flight (R31, R181). -/
def State.latchFramed (s : State) : Prop :=
  s.cp.sh ≠ .idle → s.cp.ss = true ∧ s.hp.sh ≠ .idle

/-- Under `AtComplete` a byte in flight is still counted, unless the count was reloaded during it (R103, R303). -/
def State.flightCounted (s : State) : Prop :=
  s.cfg.tcntDec = .atComplete → s.hp.sh ≠ .idle → s.hp.tcnt ≠ 0 ∨ s.hasFault .hTcntBusy = true

/-- During an operation the Host transmit FIFO holds, in order, the bytes `txByte` gives just below the write index (R144, R146, R148, R156). -/
def State.txInOrder (s : State) : Prop :=
  (s.he.phase = .s1 ∨ s.he.phase = .s2 → s.hp.txf = [] ∧ s.he.w = 0) ∧
  (s.he.phase.running = true → s.he.phase ≠ .s1 → s.he.phase ≠ .s2 →
    if s.he.mode.txOn then
      s.hp.txf.length ≤ s.he.w ∧
      ∀ k, k < s.hp.txf.length → s.hp.txf[k]? = s.txByte (s.he.w - s.hp.txf.length + k)
    else s.hp.txf = [])

/-- During an operation that began with the Host peripheral quiet: quiet until S3, the path enables as S1 sets them, and the first byte primed before S3 (R145 to R147, R153). -/
def State.engineQuiet (s : State) : Prop :=
  (s.he.phase = .s1 ∨ s.he.phase = .s2 ∨ s.he.phase = .s3 → s.hostQuiet = true) ∧
  (s.he.phase.running = true → s.he.phase ≠ .s1 →
    s.hp.txEn = s.he.mode.txOn ∧ s.hp.rxEn = s.he.mode.rxOn) ∧
  (s.he.phase = .s3 → s.he.mode.txOn = true → s.hp.txf ≠ [])

/-- During a `send` that began with the Host peripheral quiet the Host receive FIFO is empty (R115, R154). -/
def State.sendReceivesNothing (s : State) : Prop :=
  s.he.phase.running = true → s.he.mode = .send → s.hp.rxf = []

/-- The byte of position `i` of a frame, where `content` is what the FrameBuffer held when the frame's start event was handled (R234). -/
def State.loopByte (s : State) (content : Nat → Byte) (i : Nat) : Byte :=
  if i < s.cfg.cap then content i else s.cfg.exhaustedFill

/-- A frame of which the Client has latched `n` bytes, in the loopback of R234: the transmit FIFO holds in order the bytes of the positions from `n` on, so the write cursor runs ahead of the wire by what it holds (R194); the byte being shifted is that of position `n - 1`; no more bytes are stored, waiting or in flight than were latched, so no slot is overwritten before it is sent. -/
structure State.LoopsBack (s : State) (content : Nat → Byte) (n : Nat) : Prop where
  cursor : s.ce.wc = min (n + s.cp.txf.length) s.cfg.cap
  fifo : ∀ k, k < s.cp.txf.length → s.cp.txf[k]? = some (s.loopByte content (n + k))
  latch : ∀ c, s.cp.sh = .latched c → 1 ≤ n ∧ c = s.loopByte content (n - 1)
  behind : s.ce.rc + s.cp.rxf.length + (if s.cp.sh = .idle then 0 else 1) ≤ n
  unsent : ∀ j, s.ce.rc ≤ j → s.byteAt .buf j = content j

end Sys2Proof.Machine
end

