-- ==== Sys2Proof/Certificates/Slice0/Obligations.lean ====
section
/-! DEFINITION. The statements about the block, for the provers. Each docstring names the rule of spec/ it formalises; where a clause is the model's own choice it names the log entry. -/

open Sys2Proof Sys2Proof.Machine

/-! ### Encoding (30_encoding.md) -/

/-- Decoding an encoded command gives it back, with every operand at every value (R80 to R87). -/
def Obligations.DecodeInvertsEncode : Prop := ∀ i : Instr, decode (encode i) = .ok i

/-- Each word has one meaning: the command read from a word encodes as that word (R84 to R89). -/
def Obligations.EncodeInvertsDecode : Prop := ∀ (w : Word) (i : Instr), decode w = .ok i → encode i = w

/-- R89: the row that matches gives the command; at most one row matches; with none the word is reserved. -/
def Obligations.MatchingRowDecodes : Prop :=
  ∀ w : Word,
    (∀ row ∈ opcodeRows, row.hits w = true → decode w = .ok (row.build w)) ∧
    opcodeRows.Pairwise (fun a b => ¬(a.hits w = true ∧ b.hits w = true)) ∧
    ((∀ row ∈ opcodeRows, row.hits w = false) → ∃ e, decode w = .error e)

/-- R88 and R85: the words that are reserved, case by case. -/
def Obligations.ReservedWordsAreTheseCases : Prop :=
  ∀ w : Word, (∃ e, decode w = .error e) ↔
    let u := (unitField w).toNat
    let op := (opField w).toNat
    5 ≤ u ∨
    (u = 0 ∧ 8 ≤ op) ∨ (u = 2 ∧ 9 ≤ op) ∨ (u = 3 ∧ 6 ≤ op) ∨ (u = 4 ∧ 6 ≤ op) ∨
    (u = 0 ∧ op = 1 ∧ 4 ≤ (immField w).toNat) ∨
    (immField w ≠ 0 ∧
      ((u = 0 ∧ op ∈ [0, 3, 4, 5, 7]) ∨ (u = 2 ∧ op ∈ [0, 1, 2, 3, 4, 5, 6, 8]) ∨
       (u = 3 ∧ op ∈ [0, 1, 2, 4, 5]) ∨ (u = 4 ∧ op ∈ [0, 1, 3, 4, 5]))) ∨
    (u = 1 ∧ (kindField w = 3 ∨ (kindField w = 1 ∧ engineR w = true) ∨ (kindField w = 2 ∧ engineT w = true)))

/-- Words written out from the encoding tables, one or more of each unit (R82 to R87; 95_test_vectors.md section 2.1). -/
def Obligations.SpecWordsDecode : Prop :=
  decode 0b0000_0001_0000_0010#16 = .ok (.hSetdir true false) ∧
  decode 0b0000_0010_1111_1111#16 = .ok (.hLdtcnt 255) ∧
  decode 0b0001_0011_0000_0101#16 = .ok (.exchange true true 5) ∧
  decode 0b0001_0110_0000_0101#16 = .ok (.send true 5) ∧
  decode 0b0001_1001_0000_0100#16 = .ok (.receive true 4) ∧
  decode 0b0010_1000_0000_0000#16 = .ok .cRdrx ∧
  decode 0b0011_0011_0111_1111#16 = .ok (.ceRecv 0x7F) ∧
  decode 0b0100_0010_1111_1111#16 = .ok (.envLine 0xFF) ∧
  decode 0b0001_0101_0000_0000#16 = .error .engineKind ∧
  decode 0b0101_0000_0000_0000#16 = .error .unit

/-! ### Reset, streams and the step (10_state.md, 70_reset_and_hazards.md) -/

/-- The values the spec states for reset (R22 to R39, R46, R290 to R292, R294), for every sizing, program and receive sequence, the slots of the FrameBuffer that `BUF_INIT` fixes among them; the values of `res` and the engine locals are the model's choice (log 3, log 4) and are not stated, only that `res` is not yet written. -/
def Obligations.ResetLeavesQuietBlock : Prop :=
  ∀ cfg prog cprog rxb, let s := State.resetWith cfg prog cprog rxb
    s.pc = 0 ∧ s.cpc = 0 ∧ s.he.phase = .idle ∧ s.resValid = false ∧
    s.hp = { txf := [], rxf := [], tcnt := 0, sh := .idle, txEn := true, rxEn := true } ∧
    s.cp = { txf := [], rxf := [], sh := .idle, ss := false, sof := false, eof := false } ∧
    s.ce.rc = 0 ∧ s.ce.wc = 0 ∧ s.ce.fs = .idle ∧
    s.env = { line := .float, stalled := false } ∧ s.flt = 0 ∧ s.refused = none ∧
    (∀ i b, Memory.lookup cfg.bufInit i = some b → s.byteAt .buf i = b) ∧
    (cfg.clientTxWhenIdle = false → s.anyPending = false)

/-- A step of the host program runs the command decoded from the word at `PROG.pc` (R22, R81, R89). -/
def Obligations.StepRunsHostCommand : Prop :=
  ∀ (s : State) (c : HostCmd) (i : Instr) (e : Event) (rest : List Pick),
    s.picks = ⟨.hostProgram, e⟩ :: rest → s.prog[s.pc]? = some c → decode c.word = .ok i → i.stream = .host →
    step s = exec i (s.after e rest)

/-- A step of the client program runs the command decoded from the word at `CPROG.pc` (R22, R81, R89). -/
def Obligations.StepRunsClientCommand : Prop :=
  ∀ (s : State) (w : Word) (i : Instr) (e : Event) (rest : List Pick),
    s.picks = ⟨.clientProgram, e⟩ :: rest → s.cprog[s.cpc]? = some w → decode w = .ok i → i.stream = .client →
    step s = exec i (s.after e rest)

/-- R46, with R88 and R143: a reserved word, a wrong unit or a bad operand sets the mark, keeps the first reason, changes nothing else and does not advance its pc; no step clears the mark; the stream that issued it has no further step; reset gives none.
That a bad operand covers a mismatched attachment of length 0 is log 11 (R267), that an unknown name counts as a missing RXB is log 9, and how a stopped stream is told from its refused command is log 18. -/
def Obligations.RefusalMarksAndStops : Prop :=
  (∀ (s : State) (c : HostCmd) (e : Event) (rest : List Pick),
    s.picks = ⟨.hostProgram, e⟩ :: rest → s.prog[s.pc]? = some c →
    ((∃ x, decode c.word = .error x) ∨ (∃ i, decode c.word = .ok i ∧ i.stream = .client)) →
    step s = .next { s.after e rest with refused := some (s.refused.getD .reservedEncoding) }) ∧
  (∀ (s : State) (w : Word) (e : Event) (rest : List Pick),
    s.picks = ⟨.clientProgram, e⟩ :: rest → s.cprog[s.cpc]? = some w →
    ((∃ x, decode w = .error x) ∨ (∃ i, decode w = .ok i ∧ i.stream = .host)) →
    step s = .next { s.after e rest with refused := some (s.refused.getD .reservedEncoding) }) ∧
  (∀ (s : State) (c : HostCmd) (i : Instr) (k : Mode) (t r : Bool) (len : Byte) (e : Event) (rest : List Pick),
    s.picks = ⟨.hostProgram, e⟩ :: rest → s.prog[s.pc]? = some c → decode c.word = .ok i →
    i.engine? = some (k, t, r, len) → s.he.phase = .idle → s.badOperand t r len = true →
    step s = .next { s.after e rest with refused := some (s.refused.getD .badOperand) }) ∧
  (∀ (s t : State) (q : RefuseMark), step s = .next t → s.refused = some q → t.refused = some q) ∧
  (∀ s : State, s.refused ≠ none →
    ((∃ i, s.hostIssue = .command i ∧ s.operandRefused i = true) ∨ s.hostIssue = .reserved → s.enabled .hostProgram = false) ∧
    (s.clientIssue = .reserved → s.enabled .clientProgram = false)) ∧
  State.reset.refused = none

/-- R11 and log 13 (the model's choice of what a step does then): an agent with no enabled step, when picked, changes nothing but the pick; a wait is never a fault. With R114: a stalled clock gives the Host peripheral no step. -/
def Obligations.DisabledAgentWaits : Prop :=
  ∀ (s : State) (a : Agent) (e : Event) (rest : List Pick),
    s.picks = ⟨a, e⟩ :: rest →
    ((s.after e rest).enabled a = false → step s = .next (s.after e rest)) ∧
    (s.env.stalled = true → s.enabled .hostPeripheral = false)

/-- The order of the reference schedule (R311); following it when no pick is given is the model's policy Ref (log 1). -/
def Obligations.ReferenceScheduleOrder : Prop :=
  ∀ s : State, s.picks = [] → s.policy = .ref →
    ∃ e, let s' := { s with choice := e }
      (∀ x, (s.pending .rx = true ∧ x = .rx ∨
             s.pending .rx = false ∧ s.pending .stop = true ∧ x = .stop ∨
             s.pending .rx = false ∧ s.pending .stop = false ∧ s.pending .start = true ∧ x = .start ∨
             s.pending .rx = false ∧ s.pending .stop = false ∧ s.pending .start = false ∧ s.pending .tx = true ∧ x = .tx) →
        step s = .next (runHandler x s')) ∧
      (s.anyPending = false → s.clientEnabled = true → step s = runIssue s.clientIssue s') ∧
      (s.anyPending = false → s.clientEnabled = false → s.enabled .hostPeripheral = true →
        (s.he.phase = .idle ∨ s.he.phase = .l1 ∧ s.hwTurn = true) →
        ∃ t, hostPeripheralStep s' = some t ∧ step s = .next t) ∧
      (s.anyPending = false → s.clientEnabled = false →
        (s.enabled .hostPeripheral = false ∨ s.he.phase ≠ .idle ∧ (s.he.phase ≠ .l1 ∨ s.hwTurn = false)) →
        s.hostEnabled = true → step s = runIssue s.hostIssue s') ∧
      (s.anyEnabled = false → step s = .next s)

/-! ### Host peripheral commands (40_host_peripheral.md) -/

/-- R101. -/
def Obligations.HClrbufClearsFifos : Prop :=
  decode 0x0000#16 = .ok .hClrbuf ∧
  ∀ s : State, ∃ t, exec .hClrbuf s = .next t ∧
    t = { s with pc := s.pc + 1, hp := { s.hp with txf := [], rxf := [] }, flt := t.flt } ∧
    FaultsAdded s t (fun f => f = .hClearBusy ∧ s.hp.sh ≠ .idle) ∧ SameMemory s t

/-- R102. -/
def Obligations.HSetdirSetsPathEnables : Prop :=
  (∀ tx rx : Bool, decode (0x0100#16 ||| (if tx then 2 else 0) ||| (if rx then 1 else 0)) = .ok (.hSetdir tx rx)) ∧
  ∀ (s : State) (tx rx : Bool), ∃ t, exec (.hSetdir tx rx) s = .next t ∧
    t = { s with pc := s.pc + 1, hp := { s.hp with txEn := tx, rxEn := rx }, flt := t.flt } ∧
    FaultsAdded s t (fun f => f = .hConfigActive ∧ (s.hp.sh ≠ .idle ∨ s.hp.tcnt ≠ 0)) ∧ SameMemory s t

/-- R103, for a counter that holds the 8-bit operand (`TCNT_W` of at least 8, R26; what a narrower one holds is not stated, log 7); more than one of the causes can be recorded in one step. -/
def Obligations.HLdtcntLoadsCount : Prop :=
  (∀ n : Byte, decode (0x0200#16 ||| n.setWidth 16) = .ok (.hLdtcnt n)) ∧
  ∀ (s : State) (n : Byte), ∃ t, exec (.hLdtcnt n) s = .next t ∧
    t = { s with pc := s.pc + 1, hp := { s.hp with tcnt := t.hp.tcnt }, flt := t.flt } ∧
    (8 ≤ s.cfg.tcntW → t.hp.tcnt = n.toNat) ∧
    FaultsAdded s t (fun f =>
      f = .hTcntZero ∧ n = 0 ∨ f = .hTcntBusy ∧ s.hp.sh ≠ .idle ∨
      f = .hUnprimed ∧ n ≠ 0 ∧ s.hp.txEn = true ∧ s.hp.txf = []) ∧ SameMemory s t

/-- R104, R105, R106: the three Host queries write `res` and nothing else. -/
def Obligations.HostQueriesReadStatus : Prop :=
  decode 0x0300#16 = .ok .hTcz ∧ decode 0x0400#16 = .ok .hTxspc ∧ decode 0x0500#16 = .ok .hRxdat ∧
  ∀ s : State,
    (exec .hTcz s = .next { s with pc := s.pc + 1, res := if s.hp.tcnt = 0 then 1 else 0, resValid := true }) ∧
    (exec .hTxspc s =
      .next { s with pc := s.pc + 1, res := if s.hp.txf.length < s.cfg.txd then 1 else 0, resValid := true }) ∧
    (exec .hRxdat s = .next { s with pc := s.pc + 1, res := if 0 < s.hp.rxf.length then 1 else 0, resValid := true }) ∧
    ∀ t, exec .hTcz s = .next t ∨ exec .hTxspc s = .next t ∨ exec .hRxdat s = .next t → SameMemory s t

/-- R107. -/
def Obligations.HWrtxPushesOrRecordsError : Prop :=
  (∀ b : Byte, decode (0x0600#16 ||| b.setWidth 16) = .ok (.hWrtx b)) ∧
  ∀ (s : State) (b : Byte), ∃ t, exec (.hWrtx b) s = .next t ∧
    t = { s with
          pc := s.pc + 1
          hp := { s.hp with txf := if s.hp.txf.length < s.cfg.txd then s.hp.txf ++ [b] else s.hp.txf }
          flt := t.flt } ∧
    FaultsAdded s t (fun f => f = .hTxWriteErr ∧ s.cfg.txd ≤ s.hp.txf.length) ∧ SameMemory s t

/-- R108: the oldest byte, or some byte (a draw) and the read error. -/
def Obligations.HRdrxPopsOrDraws : Prop :=
  decode 0x0700#16 = .ok .hRdrx ∧
  (∀ (s : State) (b : Byte) (rest : List Byte), s.hp.rxf = b :: rest →
    exec .hRdrx s =
      .next { s with pc := s.pc + 1, res := b, resValid := true, hp := { s.hp with rxf := rest } }) ∧
  (∀ s : State, s.hp.rxf = [] → ∃ t, exec .hRdrx s = .next t ∧
    t = { s with pc := s.pc + 1, res := t.res, resValid := true, draws := s.draws + 1, flt := t.flt } ∧
    FaultsAdded s t (fun f => f = .hRxReadErr)) ∧
  ∀ s t : State, exec .hRdrx s = .next t → SameMemory s t

/-! ### The byte steps and the wire (40_host_peripheral.md, 42_client_peripheral.md) -/

/-- R110 and R182: HS_START and the ClientLatch inside it. Where R110 does not enable it, the step leaves the state but for the pick, which is the model's choice (log 13); the draw's counter and REF's flag are the model's fields (log 2, log 17). -/
def Obligations.HsStartShiftsOneByte : Prop :=
  ∀ (s : State) (e : Event) (rest : List Pick), s.picks = ⟨.hostPeripheral, e⟩ :: rest → s.hp.sh = .idle →
    let guard := s.env.stalled = false ∧ s.hp.tcnt ≠ 0 ∧ (s.hp.txEn = true → s.hp.txf ≠ []) ∧
      (s.hp.rxEn = true → s.hp.rxf.length < s.cfg.rxd)
    (¬ guard → step s = .next (s.after e rest)) ∧
    (guard → ∃ t, step s = .next t ∧
      t = { s.after e rest with
            hp := { s.hp with
              txf := if s.hp.txEn then s.hp.txf.tail else s.hp.txf
              tcnt := if s.cfg.tcntDec = .atStart then s.hp.tcnt - 1 else s.hp.tcnt
              sh := t.hp.sh }
            cp := t.cp, flt := t.flt, draws := t.draws, hwTurn := false } ∧
      (s.hp.txEn = true → s.hp.txf.head?.map HostShift.busy = some t.hp.sh) ∧
      (s.hp.txEn = false → t.hp.sh = .busy s.cfg.fill) ∧
      (s.cp.ss = false → t.cp = s.cp ∧ t.draws = s.draws) ∧
      (∀ c cs, s.cp.ss = true → s.cp.txf = c :: cs →
        t.cp = { s.cp with sh := .latched c, txf := cs } ∧ t.draws = s.draws) ∧
      (s.cp.ss = true → s.cp.txf = [] → ∃ d, t.cp = { s.cp with sh := .latched d } ∧ t.draws = s.draws + 1) ∧
      FaultsAdded s t (fun f => f = .cTxUnderflow ∧ s.cp.ss = true ∧ s.cp.txf = []) ∧ SameMemory s t)

/-- R111 and R183: HS_COMPLETE and the ClientCapture inside it. Where the counter is already 0 it stays 0 (R26, log 10). -/
def Obligations.HsCompleteReceivesOneByte : Prop :=
  ∀ (s : State) (out : Byte) (e : Event) (rest : List Pick),
    s.picks = ⟨.hostPeripheral, e⟩ :: rest → s.hp.sh = .busy out → s.env.stalled = false →
    ∃ (t : State) (got : Byte), step s = .next t ∧
      t = { s.after e rest with
            hp := { s.hp with
              rxf := if s.hp.rxEn = true ∧ s.hp.rxf.length < s.cfg.rxd then s.hp.rxf ++ [got] else s.hp.rxf
              tcnt := if s.cfg.tcntDec = .atComplete ∧ s.hp.tcnt ≠ 0 then s.hp.tcnt - 1 else s.hp.tcnt
              sh := .idle }
            cp := t.cp, flt := t.flt, draws := t.draws, hwTurn := false } ∧
      (∀ c, s.cp.sh = .latched c → got = c ∧ t.draws = s.draws ∧
        t.cp = { s.cp with
                  sh := .idle
                  rxf := if s.cp.rxf.length < s.cfg.rxd then s.cp.rxf ++ [out] else s.cp.rxf }) ∧
      (s.cp.sh = .idle → t.cp = s.cp ∧ (∀ v, s.env.line = .held v → got = v ∧ t.draws = s.draws) ∧
        (s.env.line = .float → t.draws = s.draws + 1)) ∧
      FaultsAdded s t (fun f => f = .cRxOverflow ∧ s.cp.sh ≠ .idle ∧ s.cfg.rxd ≤ s.cp.rxf.length) ∧ SameMemory s t

/-- R112 and R181: over one byte exchange the two sides swap their bytes when the Client takes part, and the Client is untouched when Slave-Select is de-asserted; the counter goes down by one whichever `TCNT_DEC` is (R113). -/
def Obligations.ByteExchangeSwapsBytes : Prop :=
  ∀ (s : State) (b : Byte) (bs : List Byte) (e e' : Event) (rest : List Pick),
    s.picks = ⟨.hostPeripheral, e⟩ :: ⟨.hostPeripheral, e'⟩ :: rest →
    s.env.stalled = false → s.hp.sh = .idle → s.hp.tcnt ≠ 0 → s.hp.txEn = true → s.hp.txf = b :: bs →
    s.hp.rxEn = true → s.hp.rxf.length < s.cfg.rxd →
    (∀ c cs, s.cp.ss = true → s.cp.txf = c :: cs → s.cp.rxf.length < s.cfg.rxd →
      Host.Core.run core 2 s = .next
        { s.after e' rest with
          hp := { s.hp with txf := bs, rxf := s.hp.rxf ++ [c], tcnt := s.hp.tcnt - 1 }
          cp := { s.cp with txf := cs, rxf := s.cp.rxf ++ [b], sh := .idle }
          hwTurn := false }) ∧
    (∀ v, s.cp.ss = false → s.cp.sh = .idle → s.env.line = .held v →
      Host.Core.run core 2 s = .next
        { s.after e' rest with
          hp := { s.hp with txf := bs, rxf := s.hp.rxf ++ [v], tcnt := s.hp.tcnt - 1 }
          hwTurn := false })

/-- R113. First, step by step and so for every count and every schedule: unless the step is a load (R103, R147), the count changes only where a byte starts (under `AtStart`) or completes (under `AtComplete`), by one, and no byte starts at 0; a count of 0 at a completion stays 0 (log 10). Then, as a run: from a count of `n`, with bytes and room for them, the count after `m` byte exchanges is `n - m`, and at 0 no HS_START is enabled. -/
def Obligations.CounterStopsClockAfterNExchanges : Prop :=
  (∀ s t : State, step s = .next t → ¬(s.nextPick.map Pick.agent = some .hostProgram ∧ s.loadsCount = true) →
    (t.hp.sh = s.hp.sh ∧ t.hp.tcnt = s.hp.tcnt) ∨
    (s.hp.sh = .idle ∧ t.hp.sh ≠ .idle ∧ s.hp.tcnt ≠ 0 ∧
      t.hp.tcnt = if s.cfg.tcntDec = .atStart then s.hp.tcnt - 1 else s.hp.tcnt) ∨
    (s.hp.sh ≠ .idle ∧ t.hp.sh = .idle ∧
      t.hp.tcnt = if s.cfg.tcntDec = .atComplete then s.hp.tcnt - 1 else s.hp.tcnt)) ∧
  ∀ (s : State) (n m : Nat) (e : Event) (rest : List Pick),
    s.picks = List.replicate (2 * m) ⟨.hostPeripheral, e⟩ ++ rest → m ≤ n →
    s.env.stalled = false → s.hp.sh = .idle → s.hp.tcnt = n →
    (s.hp.txEn = true → n ≤ s.hp.txf.length) → (s.hp.rxEn = true → s.hp.rxf.length + n ≤ s.cfg.rxd) →
    ∃ t, Host.Core.run core (2 * m) s = .next t ∧ t.picks = rest ∧ t.hp.sh = .idle ∧ t.hp.tcnt = n - m ∧
      (s.hp.txEn = true → t.hp.txf = s.hp.txf.drop m) ∧
      (s.hp.rxEn = true → t.hp.rxf.length = s.hp.rxf.length + m) ∧
      (t.hp.tcnt = 0 → t.enabled .hostPeripheral = false)

/-- R31 and R181: every step keeps that the Client is latched only while Slave-Select is asserted and a Host byte is in flight. -/
def Obligations.ClientLatchStaysFramed : Prop :=
  ∀ s t : State, s.latchFramed → step s = .next t → t.latchFramed

/-! ### Host engine operations (41_host_engine.md) -/

/-- R142: length 0 writes `InvalidLength` and touches nothing else. That a length above `LEN_MAX`, its operands large enough, does the same is the model's choice (log 7); the order against the attachment check is log 11. -/
def Obligations.LengthZeroIsRejected : Prop :=
  (∀ (s : State) (i : Instr) (k : Mode) (t r : Bool),
    i.engine? = some (k, t, r, 0) → s.he.phase = .idle → s.attachmentsMatch t r = true →
    exec i s = .next { s with res := 1, resValid := true, pc := s.pc + 1 }) ∧
  ∀ (s : State) (i : Instr) (k : Mode) (t r : Bool) (len : Byte),
    i.engine? = some (k, t, r, len) → s.he.phase = .idle → s.badOperand t r len = false → s.cfg.lenMax < len.toNat →
    exec i s = .next { s with res := 1, resValid := true, pc := s.pc + 1 }

/-- R143: an operand shorter than `len` is refused with no other effect. -/
def Obligations.ShortOperandIsRefused : Prop :=
  ∀ (s : State) (i : Instr) (k : Mode) (t r : Bool) (len : Byte),
    i.engine? = some (k, t, r, len) → s.he.phase = .idle → s.attachmentsMatch t r = true → 1 ≤ len.toNat →
    ((∃ xs, s.attachedTx = some xs ∧ xs.length < len.toNat) ∨
     (∃ n b, s.attachedRx = some n ∧ s.rxb[n]? = some b ∧ b.size < len.toNat)) →
    exec i s = .next { s with refused := some (s.refused.getD .badOperand) }

/-- R145: steps S0 and S1, for EXCHANGE, SEND and RECEIVE; `txOn` and `rxOn` by R140. The attachments are those of the command at `PROG.pc`, present as `t` and `r` say and at least `len` bytes; `len` is in 1 to `LEN_MAX` (R29). -/
def Obligations.EngineCapturesClearsAndSetsPaths : Prop :=
  ∀ (s : State) (i : Instr) (k : Mode) (t r : Bool) (len : Byte), i.engine? = some (k, t, r, len) →
    (s.he.phase = .idle → len ≠ 0 → len.toNat ≤ s.cfg.lenMax → s.attachedTx.isSome = t → s.attachedRx.isSome = r →
      (∀ xs, s.attachedTx = some xs → len.toNat ≤ xs.length) →
      (∀ n, s.attachedRx = some n → ∃ b, s.rxb[n]? = some b ∧ len.toNat ≤ b.size) →
      ∃ u, exec i s = .next u ∧
        u = { s with
              hp := { s.hp with txf := [], rxf := [] }
              he := { phase := .s1, mode := k, len := len.toNat, w := 0, r := 0, tx := s.attachedTx, rx := s.attachedRx }
              flt := u.flt } ∧
        FaultsAdded s u (fun f => f = .hClearBusy ∧ s.hp.sh ≠ .idle) ∧ SameMemory s u) ∧
    (s.he.phase = .s1 →
      ∃ u, exec i s = .next u ∧
        u = { s with
              hp := { s.hp with
                txEn := if s.he.mode = .receive then false else true
                rxEn := if s.he.mode = .send then false else true }
              he := { s.he with phase := .s2 }
              flt := u.flt } ∧
        FaultsAdded s u (fun f => f = .hConfigActive ∧ (s.hp.sh ≠ .idle ∨ s.hp.tcnt ≠ 0)) ∧ SameMemory s u)

/-- R146 with R144: step S2 primes `txByte(0)`, with the effect and the fault of `H.WRTX`. -/
def Obligations.EnginePrimesFirstByte : Prop :=
  ∀ (s : State) (i : Instr) (x : Mode × Bool × Bool × Byte), i.engine? = some x → s.he.phase = .s2 →
    (s.he.mode = .receive → exec i s = .next { s with he := { s.he with phase := .s3 } }) ∧
    (∀ b : Byte, s.he.mode ≠ .receive →
      ((∃ xs, s.he.tx = some xs ∧ xs[0]? = some b) ∨ s.he.tx = none ∧ b = s.cfg.fill) →
      ∃ t, exec i s = .next t ∧
        t = { s with
              hp := { s.hp with txf := if s.hp.txf.length < s.cfg.txd then s.hp.txf ++ [b] else s.hp.txf }
              he := { s.he with w := 1, phase := .s3 }
              flt := t.flt } ∧
        FaultsAdded s t (fun f => f = .hTxWriteErr ∧ s.cfg.txd ≤ s.hp.txf.length) ∧ SameMemory s t)

/-- R147: step S3 loads the count, with the faults of R103, for a counter that holds it (`TCNT_W` of at least 8; log 7). -/
def Obligations.EngineStartsTransfer : Prop :=
  ∀ (s : State) (i : Instr) (x : Mode × Bool × Bool × Byte), i.engine? = some x → s.he.phase = .s3 →
    1 ≤ s.he.len → s.he.len ≤ 255 →
    ∃ t, exec i s = .next t ∧
      t = { s with
            hp := { s.hp with tcnt := t.hp.tcnt }
            he := { s.he with phase := .l1 }
            flt := t.flt, hwTurn := true } ∧
      (8 ≤ s.cfg.tcntW → t.hp.tcnt = s.he.len) ∧
      FaultsAdded s t (fun f =>
        f = .hTcntBusy ∧ s.hp.sh ≠ .idle ∨ f = .hUnprimed ∧ s.hp.txEn = true ∧ s.hp.txf = []) ∧ SameMemory s t

/-- R148 with R144: step L1 loads at most one byte, `txByte(HE.w)`. -/
def Obligations.EngineRefillsOneByte : Prop :=
  ∀ (s : State) (i : Instr) (x : Mode × Bool × Bool × Byte), i.engine? = some x → s.he.phase = .l1 →
    (s.he.mode = .receive ∨ s.he.len ≤ s.he.w ∨ s.cfg.txd ≤ s.hp.txf.length →
      exec i s = .next { s with he := { s.he with phase := .l2 } }) ∧
    (∀ b : Byte, s.he.mode ≠ .receive → s.he.w < s.he.len → s.hp.txf.length < s.cfg.txd →
      ((∃ xs, s.he.tx = some xs ∧ xs[s.he.w]? = some b) ∨ s.he.tx = none ∧ b = s.cfg.fill) →
      exec i s = .next
        { s with hp := { s.hp with txf := s.hp.txf ++ [b] }, he := { s.he with w := s.he.w + 1, phase := .l2 } })

/-- R149: step L2 reads at most one byte and stores it at `RXB[HE.r]`; an absent `rxData` discards it and still advances; past `len` it is only discarded. Every other byte of memory reads as before. -/
def Obligations.EngineDrainsOneByte : Prop :=
  ∀ (s : State) (i : Instr) (x : Mode × Bool × Bool × Byte), i.engine? = some x → s.he.phase = .l2 →
    (s.he.mode = .send ∨ s.hp.rxf = [] → exec i s = .next { s with he := { s.he with phase := .l3 } }) ∧
    (∀ (b : Byte) (bs : List Byte), s.he.mode ≠ .send → s.hp.rxf = b :: bs →
      (s.he.len ≤ s.he.r →
        exec i s = .next { s with hp := { s.hp with rxf := bs }, he := { s.he with phase := .l3 } }) ∧
      (s.he.r < s.he.len → s.he.rx = none →
        exec i s = .next
          { s with hp := { s.hp with rxf := bs }, he := { s.he with r := s.he.r + 1, phase := .l3 } }) ∧
      (∀ n, s.he.r < s.he.len → s.he.rx = some n → s.he.r < s.spaceSize (.rxb n) →
        ∃ t, exec i s = .next t ∧
          t = { s with
                hp := { s.hp with rxf := bs }
                he := { s.he with r := s.he.r + 1, phase := .l3 }
                rxb := t.rxb } ∧
          t.byteAt (.rxb n) s.he.r = b ∧
          (∀ k j, ¬(k = n ∧ j = s.he.r) → t.byteAt (.rxb k) j = s.byteAt (.rxb k) j) ∧
          (∀ k, t.spaceSize (.rxb k) = s.spaceSize (.rxb k)) ∧ ∀ j, t.byteAt .buf j = s.byteAt .buf j))

/-- R151: step L3 leaves the loop when the counter is 0 and for no other reason; going back sets REF's flag (R311). -/
def Obligations.EngineLoopEndsOnCounterAlone : Prop :=
  ∀ (s : State) (i : Instr) (x : Mode × Bool × Bool × Byte), i.engine? = some x → s.he.phase = .l3 →
    (s.hp.tcnt = 0 → exec i s = .next { s with he := { s.he with phase := .d } }) ∧
    (s.hp.tcnt ≠ 0 → exec i s = .next { s with he := { s.he with phase := .l1 }, hwTurn := true })

/-- R150 and R152: step D drains at most once, whether or not more bytes wait, and returns success. -/
def Obligations.EngineDrainsOnceAndReturns : Prop :=
  ∀ (s : State) (i : Instr) (x : Mode × Bool × Bool × Byte), i.engine? = some x → s.he.phase = .d →
    (s.he.mode = .send ∨ s.hp.rxf = [] →
      exec i s = .next { s with res := 0, resValid := true, pc := s.pc + 1, he := { s.he with phase := .idle } }) ∧
    (∀ (b : Byte) (bs : List Byte), s.he.mode ≠ .send → s.hp.rxf = b :: bs →
      (∀ n, s.he.rx = some n → s.he.r < s.he.len → s.he.r < s.spaceSize (.rxb n)) →
      ∃ t, exec i s = .next t ∧
        t = { s with
              res := 0, resValid := true, pc := s.pc + 1
              hp := { s.hp with rxf := bs }
              he := { s.he with r := if s.he.r < s.he.len then s.he.r + 1 else s.he.r, phase := .idle }
              rxb := t.rxb } ∧
        (∀ n, s.he.rx = some n → s.he.r < s.he.len → t.byteAt (.rxb n) s.he.r = b) ∧
        (∀ k j, ¬(s.he.rx = some k ∧ s.he.r < s.he.len ∧ j = s.he.r) → t.byteAt (.rxb k) j = s.byteAt (.rxb k) j) ∧
        (∀ k, t.spaceSize (.rxb k) = s.spaceSize (.rxb k)) ∧ ∀ j, t.byteAt .buf j = s.byteAt .buf j)

/-- R60 and log 16 (the stop is the model's): an engine phase that would access a byte outside its space stops: S2 and L1 reading TXB, L2 and D writing RXB; the invariant of the block excludes it. -/
def Obligations.AccessOutsideSpaceStops : Prop :=
  ∀ (s : State) (i : Instr) (x : Mode × Bool × Bool × Byte), i.engine? = some x →
    (s.he.phase = .s2 → s.he.mode ≠ .receive → s.he.tx = some [] → exec i s = .fault .spaceRange) ∧
    (∀ xs, s.he.phase = .l1 → s.he.mode ≠ .receive → s.he.tx = some xs → s.he.w < s.he.len →
      s.hp.txf.length < s.cfg.txd → xs.length ≤ s.he.w → exec i s = .fault .spaceRange) ∧
    (∀ n, s.he.phase = .l2 ∨ s.he.phase = .d → s.he.mode ≠ .send → s.hp.rxf ≠ [] → s.he.rx = some n →
      s.he.r < s.he.len → s.spaceSize (.rxb n) ≤ s.he.r → exec i s = .fault .spaceRange)

/-- R156 with R144: during an operation every step, of whatever agent, keeps that the transmit FIFO holds in order the bytes of the operand just below the write index; HS_START shifts its head. -/
def Obligations.EngineTransmitsInOrder : Prop :=
  ∀ s t : State, s.Inv → s.txInOrder → step s = .next t → t.txInOrder

/-- R153, for FIFOs that hold a byte (with `TXD` of 0 the prime of R146 would be the write error of R107): an operation that starts with the Host peripheral quiet records no Host fault, whatever the other agents do between its steps. -/
def Obligations.QuietOperationRecordsNoHostFault : Prop :=
  (∀ (s u : State) (i : Instr) (k : Mode) (t r : Bool) (len : Byte), i.engine? = some (k, t, r, len) →
    s.he.phase = .idle → s.hostQuiet = true → exec i s = .next u → u.he.phase = .s1 →
    u.engineQuiet ∧ u.flt = s.flt) ∧
  ∀ s t : State, s.Inv → 1 ≤ s.cfg.txd → s.txInOrder → s.engineQuiet → s.he.phase.running = true →
    step s = .next t →
    t.engineQuiet ∧ ∀ f : FaultBit, f.index < 7 → t.hasFault f = s.hasFault f

/-- R154 and R115: from a quiet start `SEND` never has a received byte, up to and including its return. -/
def Obligations.SendReceivesNothing : Prop :=
  ∀ s t : State, s.Inv → s.engineQuiet → s.sendReceivesNothing → s.he.phase.running = true → s.he.mode = .send →
    step s = .next t → t.hp.rxf = [] ∧ t.sendReceivesNothing

/-- R157: at step D, under HOST_DRAIN_MARGIN, the drain completes the operation: the byte still in the receive FIFO is stored in RXB at the read index, so every byte received has been stored. Without it the bytes from the read index on keep their values and the operation still returns 0. -/
def Obligations.DrainMarginCompletesReceive : Prop :=
  ∀ (s : State) (i : Instr) (x : Mode × Bool × Bool × Byte), i.engine? = some x → s.he.phase = .d →
    s.he.mode ≠ .send → s.Inv →
    ∃ t, exec i s = .next t ∧ t.res = 0 ∧ t.he.phase = .idle ∧
      (s.hostDrainMargin → t.he.r = s.he.len ∧ t.hp.rxf = [] ∧
        ∀ n b, s.he.rx = some n → s.hp.rxf = [b] → t.byteAt (.rxb n) s.he.r = b) ∧
      (∀ n j, s.he.rx = some n → t.he.r ≤ j → t.byteAt (.rxb n) j = s.byteAt (.rxb n) j) ∧
      (∀ b b' bs, s.hp.rxf = b :: b' :: bs → t.hp.rxf = b' :: bs)

/-- R303: under `AtComplete` a byte in flight is always still counted (every step keeps it), so the loop is left, and the operation returns, with the Host peripheral quiet. -/
def Obligations.AtCompleteReturnsQuiet : Prop :=
  (∀ s t : State, s.flightCounted → step s = .next t → t.flightCounted) ∧
  ∀ (s t : State) (i : Instr) (x : Mode × Bool × Bool × Byte), i.engine? = some x → s.he.phase = .l3 →
    s.cfg.tcntDec = .atComplete → s.flightCounted → s.hasFault .hTcntBusy = false →
    exec i s = .next t → t.he.phase = .d → t.hostQuiet = true

/-- R155, §8 property 3: a whole `RECEIVE len` with no Client on the wire and the line held at `v`, for every length and both `TCNT_DEC`, with a counter that holds the length, under the schedule of one byte exchange per pass of the loop: every byte of `RXB` is `v`, the bytes past `len` are unchanged, and it returns 0. -/
def Obligations.ReceiveFromHeldLineFillsBuffer : Prop :=
  ∀ (s : State) (c : HostCmd) (len v : Byte) (n : Nat) (b : Space) (e : Event) (rest : List Pick),
    s.picks = List.replicate 4 ⟨.hostProgram, e⟩ ++
      (List.replicate len.toNat
        [⟨.hostPeripheral, e⟩, ⟨.hostPeripheral, e⟩, ⟨.hostProgram, e⟩, ⟨.hostProgram, e⟩, ⟨.hostProgram, e⟩]).flatten ++
      ⟨.hostProgram, e⟩ :: rest →
    s.prog[s.pc]? = some c → decode c.word = .ok (.receive true len) → c.tx = none → c.rx = some n →
    s.rxb[n]? = some b → 1 ≤ len.toNat → len.toNat ≤ b.size → 1 ≤ s.cfg.rxd →
    len.toNat ≤ s.cfg.lenMax → 8 ≤ s.cfg.tcntW →
    s.he.phase = .idle → s.hostQuiet = true → s.env.stalled = false → s.env.line = .held v →
    s.cp.ss = false → s.cp.sh = .idle →
    ∃ t, Host.Core.run core (5 + 5 * len.toNat) s = .next t ∧
      t.res = 0 ∧ t.resValid = true ∧ t.pc = s.pc + 1 ∧ t.he.phase = .idle ∧ t.hp.tcnt = 0 ∧ t.hp.sh = .idle ∧
      t.hp.rxf = [] ∧ t.flt = s.flt ∧ t.cp = s.cp ∧ t.ce = s.ce ∧ t.picks = rest ∧
      (∀ j, t.byteAt (.rxb n) j = if j < len.toNat then v else s.byteAt (.rxb n) j) ∧
      (∀ k j, k ≠ n → t.byteAt (.rxb k) j = s.byteAt (.rxb k) j)

/-- R158: in every run whose Host peripheral is weakly fair (R114), an operation whose step S0 is taken with the Host peripheral quiet and no stall reaches step D, which returns 0; until then it stays the operation under way, `PROG.pc` at its command. No fairness of the host program is needed: a run takes only enabled steps (R11), and the other agents have finitely many of them between two of its own. A path that the operation turns on needs a FIFO of depth 1 or more (R8 bounds neither depth). During a stall the loop repeats for ever: the host program has a step in every later state and nothing but the loop goes on. -/
def Obligations.OperationReachesD : Prop :=
  (∀ (run : Run) (n : Nat), run.hostPeripheralFair →
    (run.at_ n).env.stalled = false → (run.at_ n).hostQuiet = true →
    (run.at_ n).he.phase = .idle → run.moves n .hostProgram → (run.at_ (n + 1)).he.phase = .s1 →
    ((run.at_ (n + 1)).he.mode.txOn = true → 1 ≤ (run.at_ n).cfg.txd) →
    ((run.at_ (n + 1)).he.mode.rxOn = true → 1 ≤ (run.at_ n).cfg.rxd) →
    ∃ m, n < m ∧ (run.at_ m).he.phase = .d ∧ run.moves m .hostProgram ∧
      (∀ k, n < k → k ≤ m → (run.at_ k).he.phase.running = true ∧ (run.at_ k).pc = (run.at_ n).pc) ∧
      (run.at_ (m + 1)).he.phase = .idle ∧ (run.at_ (m + 1)).pc = (run.at_ n).pc + 1 ∧
      (run.at_ (m + 1)).res = 0 ∧ (run.at_ (m + 1)).resValid = true) ∧
  ∀ (run : Run) (n : Nat), (run.at_ n).Inv → (run.at_ n).env.stalled = true → (run.at_ n).he.phase.looping = true →
    (run.at_ n).hp.tcnt ≠ 0 →
    ∀ m, n ≤ m →
      (run.at_ m).enabled .hostProgram = true ∧ (run.at_ m).enabled .hostPeripheral = false ∧
      (run.at_ m).he.phase.looping = true ∧ (run.at_ m).env.stalled = true ∧
      (run.at_ m).hp.tcnt = (run.at_ n).hp.tcnt ∧ (run.at_ m).hp.sh = (run.at_ n).hp.sh ∧ (run.at_ m).pc = (run.at_ n).pc

/-! ### Client peripheral and environment commands (42_client_peripheral.md) -/

/-- R184. -/
def Obligations.CClrbufClearsFifosAndLatch : Prop :=
  decode 0x2000#16 = .ok .cClrbuf ∧
  ∀ s : State, exec .cClrbuf s =
    .next { s with cpc := s.cpc + 1, cp := { s.cp with txf := [], rxf := [], sh := .idle } }

/-- R185 to R190: the four Client queries write `res` and nothing else, and clear no flag; each acknowledgement clears its own flag and nothing else. -/
def Obligations.ClientQueriesAndAcknowledges : Prop :=
  decode 0x2100#16 = .ok .cSof ∧ decode 0x2200#16 = .ok .cEof ∧ decode 0x2300#16 = .ok .cAcksof ∧
  decode 0x2400#16 = .ok .cAckeof ∧ decode 0x2500#16 = .ok .cRxdat ∧ decode 0x2600#16 = .ok .cTxspc ∧
  ∀ s : State,
    exec .cSof s = .next { s with cpc := s.cpc + 1, res := if s.cp.sof then 1 else 0, resValid := true } ∧
    exec .cEof s = .next { s with cpc := s.cpc + 1, res := if s.cp.eof then 1 else 0, resValid := true } ∧
    exec .cAcksof s = .next { s with cpc := s.cpc + 1, cp := { s.cp with sof := false } } ∧
    exec .cAckeof s = .next { s with cpc := s.cpc + 1, cp := { s.cp with eof := false } } ∧
    exec .cRxdat s =
      .next { s with cpc := s.cpc + 1, res := if 0 < s.cp.rxf.length then 1 else 0, resValid := true } ∧
    exec .cTxspc s =
      .next { s with cpc := s.cpc + 1, res := if s.cp.txf.length < s.cfg.txd then 1 else 0, resValid := true }

/-- R191. -/
def Obligations.CWrtxPushesOrRecordsError : Prop :=
  (∀ b : Byte, decode (0x2700#16 ||| b.setWidth 16) = .ok (.cWrtx b)) ∧
  ∀ (s : State) (b : Byte), ∃ t, exec (.cWrtx b) s = .next t ∧
    t = { s with
          cpc := s.cpc + 1
          cp := { s.cp with txf := if s.cp.txf.length < s.cfg.txd then s.cp.txf ++ [b] else s.cp.txf }
          flt := t.flt } ∧
    FaultsAdded s t (fun f => f = .cTxWriteErr ∧ s.cfg.txd ≤ s.cp.txf.length) ∧ SameMemory s t

/-- R192: the oldest byte, or some byte (a draw) and the read error. -/
def Obligations.CRdrxPopsOrDraws : Prop :=
  decode 0x2800#16 = .ok .cRdrx ∧
  (∀ (s : State) (b : Byte) (rest : List Byte), s.cp.rxf = b :: rest →
    exec .cRdrx s =
      .next { s with cpc := s.cpc + 1, res := b, resValid := true, cp := { s.cp with rxf := rest } }) ∧
  (∀ s : State, s.cp.rxf = [] → ∃ t, exec .cRdrx s = .next t ∧
    t = { s with cpc := s.cpc + 1, res := t.res, resValid := true, draws := s.draws + 1, flt := t.flt } ∧
    FaultsAdded s t (fun f => f = .cRxReadErr)) ∧
  ∀ s t : State, exec .cRdrx s = .next t → SameMemory s t

/-- R200, R201, R193: Slave-Select edges set the sticky flags; without an edge nothing changes; de-assertion abandons the Client's byte in flight. -/
def Obligations.SlaveSelectEdgesSetFlags : Prop :=
  decode 0x4000#16 = .ok .envSsa ∧ decode 0x4100#16 = .ok .envSsd ∧
  ∀ s : State,
    (s.cp.ss = false → exec .envSsa s = .next { s with pc := s.pc + 1, cp := { s.cp with ss := true, sof := true } }) ∧
    (s.cp.ss = true → exec .envSsa s = .next { s with pc := s.pc + 1 }) ∧
    (s.cp.ss = true →
      exec .envSsd s = .next { s with pc := s.pc + 1, cp := { s.cp with ss := false, eof := true, sh := .idle } }) ∧
    (s.cp.ss = false → exec .envSsd s = .next { s with pc := s.pc + 1 })

/-- R202, R203, R204, R205. -/
def Obligations.EnvironmentCommandsSetLineAndStall : Prop :=
  (∀ v : Byte, decode (0x4200#16 ||| v.setWidth 16) = .ok (.envLine v)) ∧ decode 0x4300#16 = .ok .envFloat ∧
  decode 0x4400#16 = .ok .envStall ∧ decode 0x4500#16 = .ok .envUnstall ∧
  ∀ s : State,
    (∀ v, exec (.envLine v) s = .next { s with pc := s.pc + 1, env := { s.env with line := .held v } }) ∧
    exec .envFloat s = .next { s with pc := s.pc + 1, env := { s.env with line := .float } } ∧
    exec .envStall s = .next { s with pc := s.pc + 1, env := { s.env with stalled := true } } ∧
    exec .envUnstall s = .next { s with pc := s.pc + 1, env := { s.env with stalled := false } }

/-! ### Client engine (43_client_engine.md) -/

/-- R221, R222, R223: the three operations on the frame state; none touches the FrameBuffer or the fault record. -/
def Obligations.FrameOperationsResetCursors : Prop :=
  decode 0x3000#16 = .ok .ceInit ∧ decode 0x3100#16 = .ok .ceStart ∧ decode 0x3200#16 = .ok .ceStop ∧
  ∀ s : State,
    exec .ceInit s = .next { s with cpc := s.cpc + 1, ce := { s.ce with rc := 0, wc := 0, fs := .idle } } ∧
    exec .ceStart s = .next { s with cpc := s.cpc + 1, ce := { s.ce with rc := 0, wc := 0, fs := .active } } ∧
    exec .ceStop s =
      .next { s with
              cpc := s.cpc + 1
              cp := { s.cp with txf := [], rxf := [], sh := .idle }
              ce := { s.ce with rc := 0, wc := 0, fs := .idle } }

/-- R224: below the capacity the byte is stored at the read cursor and every other byte reads as before; at the capacity it is dropped and the overrun recorded. -/
def Obligations.CeRecvStoresOrOverruns : Prop :=
  (∀ b : Byte, decode (0x3300#16 ||| b.setWidth 16) = .ok (.ceRecv b)) ∧
  ∀ (s : State) (b : Byte), ∃ t, exec (.ceRecv b) s = .next t ∧
    t = { s with cpc := s.cpc + 1, ce := { s.ce with buf := t.ce.buf, rc := t.ce.rc }, flt := t.flt } ∧
    (s.ce.rc < s.cfg.cap → t.ce.rc = s.ce.rc + 1 ∧ t.byteAt .buf s.ce.rc = b ∧
      ∀ j, j ≠ s.ce.rc → t.byteAt .buf j = s.byteAt .buf j) ∧
    (s.cfg.cap ≤ s.ce.rc → t.ce = s.ce) ∧
    FaultsAdded s t (fun f => f = .ceBufferOverrun ∧ s.cfg.cap ≤ s.ce.rc)

/-- R225: the slot at the write cursor, whether or not this frame filled it, or the exhausted fill at the capacity, with no fault. -/
def Obligations.CeReqReturnsSlotAtWriteCursor : Prop :=
  decode 0x3400#16 = .ok .ceReq ∧
  ∀ s : State,
    (s.ce.wc < s.cfg.cap →
      exec .ceReq s =
        .next { s with cpc := s.cpc + 1, res := s.byteAt .buf s.ce.wc, resValid := true, ce := { s.ce with wc := s.ce.wc + 1 } }) ∧
    (s.cfg.cap ≤ s.ce.wc →
      exec .ceReq s = .next { s with cpc := s.cpc + 1, res := s.cfg.exhaustedFill, resValid := true })

/-- R228, R229 and R230: the dispatcher runs the handler of an event, each as the spec lists it; `res` is not written and the reads and writes of the FIFOs raise nothing. That the pick names the event taken is the model's form of the free choice (log 14), and that with none pending the step leaves the state is the model's too (log 13). -/
def Obligations.DispatcherRunsHandler : Prop :=
  ∀ (s : State) (e : Event) (rest : List Pick), s.picks = ⟨.dispatcher, e⟩ :: rest →
    (e = .start → s.cp.sof = true →
      step s = .next { s.after e rest with
        cp := { s.cp with sof := false }, ce := { s.ce with rc := 0, wc := 0, fs := .active } }) ∧
    (e = .stop → s.cp.eof = true →
      step s = .next { s.after e rest with
        cp := { s.cp with eof := false, txf := [], rxf := [], sh := .idle }
        ce := { s.ce with rc := 0, wc := 0, fs := .idle } }) ∧
    (∀ b bs, e = .rx → s.cp.rxf = b :: bs →
      ∃ t, step s = .next t ∧
        t = { s.after e rest with
              cp := { s.cp with rxf := bs }, ce := { s.ce with buf := t.ce.buf, rc := t.ce.rc }, flt := t.flt } ∧
        (s.ce.rc < s.cfg.cap → t.ce.rc = s.ce.rc + 1 ∧ t.byteAt .buf s.ce.rc = b ∧
          ∀ j, j ≠ s.ce.rc → t.byteAt .buf j = s.byteAt .buf j) ∧
        (s.cfg.cap ≤ s.ce.rc → t.ce = s.ce) ∧
        FaultsAdded s t (fun f => f = .ceBufferOverrun ∧ s.cfg.cap ≤ s.ce.rc)) ∧
    (e = .tx → s.cp.txf.length < s.cfg.txd → (s.ce.fs = .active ∨ s.cfg.clientTxWhenIdle = true) →
      (s.ce.wc < s.cfg.cap →
        step s = .next { s.after e rest with
          cp := { s.cp with txf := s.cp.txf ++ [s.byteAt .buf s.ce.wc] }, ce := { s.ce with wc := s.ce.wc + 1 } }) ∧
      (s.cfg.cap ≤ s.ce.wc →
        step s = .next { s.after e rest with cp := { s.cp with txf := s.cp.txf ++ [s.cfg.exhaustedFill] } })) ∧
    (s.cp.sof = false → s.cp.eof = false → s.cp.rxf = [] →
      (s.cfg.txd ≤ s.cp.txf.length ∨ s.ce.fs = .idle ∧ s.cfg.clientTxWhenIdle = false) →
      step s = .next (s.after e rest))

/-- R232: `CE.DISPATCH` runs the handler of one pending event, any one being possible, and with none pending only advances its pc. -/
def Obligations.CeDispatchRunsOneHandler : Prop :=
  decode 0x3500#16 = .ok .ceDispatch ∧
  ∀ s : State,
    (s.anyPending = true → ∃ e, s.pending e = true ∧
      exec .ceDispatch s = .next { runHandler e s with cpc := s.cpc + 1 }) ∧
    (∀ e, s.pending e = true →
      exec .ceDispatch { s with choice := e } = .next { runHandler e { s with choice := e } with cpc := s.cpc + 1 }) ∧
    (s.anyPending = false → exec .ceDispatch s = .next { s with cpc := s.cpc + 1 })

/-- R227: after `n` bytes received from a cursor at 0, the cursor is `min(n, C)`, the slots below it hold the first `min(n, C)` bytes in order, the others read as before, and the overrun is recorded exactly when more than `C` came. -/
def Obligations.FrameKeepsFirstBytesInOrder : Prop :=
  ∀ (s : State) (bs : List Byte), s.ce.rc = 0 →
    let t := bs.foldl (fun u b => ceRecvEffect b u) s
    t = { s with ce := { s.ce with buf := t.ce.buf, rc := t.ce.rc }, flt := t.flt } ∧
    t.ce.rc = min bs.length s.cfg.cap ∧
    (∀ j, t.byteAt .buf j = if j < min bs.length s.cfg.cap then bs.getD j 0 else s.byteAt .buf j) ∧
    FaultsAdded s t (fun f => f = .ceBufferOverrun ∧ s.cfg.cap < bs.length)

/-- R91: `PRELOAD` of at most `C` bytes, issued command by command, leaves the FrameBuffer holding them from slot 0, the other slots as before, and both cursors at 0. -/
def Obligations.PreloadFillsBufferFromZero : Prop :=
  ∀ (s : State) (bs : List Byte) (e : Event) (rest : List Pick),
    s.cprog.drop s.cpc = (preloadCommands bs).map encode → bs.length ≤ s.cfg.cap →
    s.picks = List.replicate (bs.length + 2) ⟨.clientProgram, e⟩ ++ rest →
    ∃ t, Host.Core.run core (bs.length + 2) s = .next t ∧
      t = { s with
            picks := rest, choice := e, cpc := s.cpc + bs.length + 2
            cp := { s.cp with txf := [], rxf := [], sh := .idle }
            ce := { buf := t.ce.buf, rc := 0, wc := 0, fs := .idle } } ∧
      ∀ j, t.byteAt .buf j = if j < bs.length then bs.getD j 0 else s.byteAt .buf j

/-- R234 with R194: handling the start event with the Client's FIFOs and latch empty begins the loopback at position 0 with the content of the FrameBuffer, and every step keeps it that is no command of the client program, finds no framing event pending and records no underflow: each byte latched is that of the next position, `B[i]` below the capacity and the exhausted fill past it. -/
def Obligations.ClientLoopsBackFrameBuffer : Prop :=
  (∀ (s : State) (rest : List Pick), s.picks = ⟨.dispatcher, .start⟩ :: rest → s.cp.sof = true →
    s.cp.txf = [] → s.cp.rxf = [] → s.cp.sh = .idle →
    ∃ t, step s = .next t ∧ t.LoopsBack (fun j => s.byteAt .buf j) 0) ∧
  ∀ (s t : State) (content : Nat → Byte) (n : Nat), s.LoopsBack content n → step s = .next t →
    s.nextPick.map Pick.agent ≠ some .clientProgram → s.cp.sof = false → s.cp.eof = false →
    t.hasFault .cTxUnderflow = false →
    t.LoopsBack content n ∨ t.LoopsBack content (n + 1) ∧ t.cp.sh = .latched (s.loopByte content n)

/-! ### The whole block -/

/-- R266: no step of any agent clears a fault bit; reset of the block clears them all. -/
def Obligations.FaultsAreSticky : Prop :=
  (∀ (s t : State) (f : FaultBit), step s = .next t → s.hasFault f = true → t.hasFault f = true) ∧
  ∀ (s : State) (f : FaultBit), s.afterReset.hasFault f = false

/-- R22, R65, R77 and R8: no step writes a program or a parameter, and a step advances at most one of the two program counters, by 1 (R96). -/
def Obligations.ProgramsAndParametersNeverWritten : Prop :=
  ∀ s t : State, step s = .next t →
    t.cfg = s.cfg ∧ t.prog = s.prog ∧ t.cprog = s.cprog ∧
    (t.pc = s.pc ∧ t.cpc = s.cpc ∨ t.pc = s.pc + 1 ∧ t.cpc = s.cpc ∨ t.pc = s.pc ∧ t.cpc = s.cpc + 1)

/-- R21: a command that returns nothing leaves `res`, and no command reads it. An engine operation writes it only when it returns (R142, R152). -/
def Obligations.ResultWrittenOnlyByReturningCommands : Prop :=
  ∀ (i : Instr) (s t : State), exec i s = .next t →
    (i ∉ [Instr.hTcz, .hTxspc, .hRxdat, .hRdrx, .cSof, .cEof, .cRxdat, .cTxspc, .cRdrx, .ceReq] →
      (i.engine? = none ∨ t.pc = s.pc) → t.res = s.res ∧ t.resValid = s.resValid) ∧
    ∀ (v : Byte) (w : Bool), ∃ t', exec i { s with res := v, resValid := w } = .next t' ∧
      { t' with res := t.res, resValid := t.resValid } = t

/-- R60 to R63 with the frame of every command: only `CE.RECV`, a dispatch, and the draining phases of an engine operation change a byte of memory; no Host-side command changes the FrameBuffer, and no Client-side command changes a receive sequence. -/
def Obligations.OnlyStoringCommandsChangeMemory : Prop :=
  ∀ (i : Instr) (s t : State), exec i s = .next t →
    ((∀ b, i ≠ .ceRecv b) → i ≠ .ceDispatch →
      (i.engine? = none ∨ s.he.phase ≠ .l2 ∧ s.he.phase ≠ .d) → SameMemory s t) ∧
    (i.stream = .host → ∀ j, t.byteAt .buf j = s.byteAt .buf j) ∧
    (i.stream = .client → ∀ n j, t.byteAt (.rxb n) j = s.byteAt (.rxb n) j)

/-- R2, R44 and R74: a Host-side command other than the Slave-Select commands neither reads nor writes the Client side, and a Client-side command neither reads nor writes the Host side, its operands or the environment. -/
def Obligations.SidesAreIsolated : Prop :=
  ∀ (i : Instr) (s t : State), exec i s = .next t →
    (i.stream = .host → i ≠ .envSsa → i ≠ .envSsd → ∀ (x : ClientPeripheral) (y : ClientEngine),
      t.cp = s.cp ∧ t.ce = s.ce ∧ exec i { s with cp := x, ce := y } = .next { t with cp := x, ce := y }) ∧
    (i.stream = .client → ∀ (x : HostPeripheral) (y : HostEngine) (z : Environment) (m : List Space),
      t.hp = s.hp ∧ t.he = s.he ∧ t.env = s.env ∧ t.rxb = s.rxb ∧
      exec i { s with hp := x, he := y, env := z, rxb := m } = .next { t with hp := x, he := y, env := z, rxb := m })

/-- The invariant of the block: from every state that has it, a step of any agent answers a next state (the block never stops) and that state has it. FIFO bounds (R24, R25, R30, R115), cursors (R35, R227), canonical memory inside its sizes (R60), program counters (R22), the counter within its width (R26), captured operands while an operation runs (R29, R140). -/
def Obligations.EveryStepKeepsInvariant : Prop :=
  ∀ s : State, s.Inv → ∃ t, step s = .next t ∧ t.Inv

/-- The invariant holds after reset, for every sizing R8 allows, canonical receive sequences and a canonical `BUF_INIT`. -/
def Obligations.ResetHasInvariant : Prop :=
  (∀ cfg prog cprog rxb, cfg.wf = true → Memory.wf cfg.cap cfg.bufInit = true → (∀ b ∈ rxb, b.cells.wf b.size = true) →
    (State.resetWith cfg prog cprog rxb).Inv ∧ (State.resetWith cfg prog cprog rxb).latchFramed ∧
    (State.resetWith cfg prog cprog rxb).flightCounted ∧ (State.resetWith cfg prog cprog rxb).txInOrder) ∧
  State.reset.Inv
end

