-- ==== Sys2Proof/Laws/Memory.lean ====
section
/-! SUPPORT. The laws of memory: a read after a write, and that a write keeps the canonical form. -/

namespace Sys2Proof.Machine

/-- The least address a canonical memory could hold before its first entry. -/
def Memory.above (i : Nat) (m : Memory) : Prop := ∀ c ∈ m, i < c.1

theorem Memory.rising_cons {c : Host.Cell} {m : Memory} :
    Memory.rising (c :: m) = true ↔ Memory.above c.1 m ∧ Memory.rising m = true := by
  induction m generalizing c with
  | nil => simp [Memory.rising, Memory.above]
  | cons d rest ih =>
    obtain ⟨a, v⟩ := c
    obtain ⟨b, w⟩ := d
    have h := ih (c := (b, w))
    simp only [Memory.rising, Bool.and_eq_true, decide_eq_true_eq, Memory.above, List.mem_cons] at h ⊢
    constructor
    · rintro ⟨hab, hr⟩
      refine ⟨?_, hr⟩
      rintro e (rfl | he)
      · exact hab
      · exact Nat.lt_trans hab ((h.1 hr).1 e he)
    · rintro ⟨ha, hr⟩
      exact ⟨ha (b, w) (.inl rfl), hr⟩

theorem Memory.above_insert {m : Memory} {a i : Nat} {v : Byte} (hm : m.above a) (hi : a < i) :
    (m.insert i v).above a := by
  induction m with
  | nil => simpa [Memory.insert, Memory.above] using hi
  | cons d rest ih =>
    obtain ⟨b, w⟩ := d
    have hb : a < b := hm (b, w) (by simp)
    have hr : Memory.above a rest := fun c hc => hm c (by simp [hc])
    have hins : Memory.above a (Memory.insert rest i v) := ih hr
    simp only [Memory.insert]
    split
    · rintro c hc
      simp only [List.mem_cons] at hc
      obtain rfl | rfl | hc := hc
      exacts [hi, hb, hr c hc]
    · split
      · rintro c hc
        simp only [List.mem_cons] at hc
        obtain rfl | hc := hc
        exacts [hi, hr c hc]
      · rintro c hc
        simp only [List.mem_cons] at hc
        obtain rfl | hc := hc
        exacts [hb, hins c hc]

/-- A write keeps the addresses strictly rising. -/
theorem Memory.rising_insert {m : Memory} {i : Nat} {v : Byte} (hm : m.rising = true) :
    (m.insert i v).rising = true := by
  induction m with
  | nil => rfl
  | cons d rest ih =>
    obtain ⟨b, w⟩ := d
    obtain ⟨hab, hr⟩ := Memory.rising_cons.1 hm
    simp only [Memory.insert]
    split
    next h =>
      refine Memory.rising_cons.2 ⟨?_, hm⟩
      rintro c hc
      simp only [List.mem_cons] at hc
      obtain rfl | hc := hc
      exacts [h, Nat.lt_trans h (hab c hc)]
    next h =>
      split
      next h2 => exact Memory.rising_cons.2 ⟨h2 ▸ hab, hr⟩
      next h2 => exact Memory.rising_cons.2 ⟨Memory.above_insert hab (by omega), ih hr⟩

theorem Memory.all_insert {m : Memory} {i : Nat} {v : Byte} {p : Host.Cell → Bool} (hm : m.all p = true)
    (hi : p (i, v) = true) : (m.insert i v).all p = true := by
  induction m with
  | nil => simpa [Memory.insert] using hi
  | cons d rest ih =>
    obtain ⟨b, w⟩ := d
    simp only [List.all_cons, Bool.and_eq_true] at hm
    simp only [Memory.insert]
    split
    · simp [hi, hm.1, hm.2]
    · split
      · simp [hi, hm.2]
      · simp only [List.all_cons, Bool.and_eq_true]
        exact ⟨hm.1, ih hm.2⟩

/-- A write inside the space keeps the canonical form. -/
theorem Memory.wf_insert {m : Memory} {size i : Nat} {v : Byte} (hm : m.wf size = true) (hi : i < size) :
    (m.insert i v).wf size = true := by
  simp only [Memory.wf, Bool.and_eq_true] at hm ⊢
  exact ⟨Memory.rising_insert hm.1, Memory.all_insert hm.2 (by simpa using hi)⟩

/-- The empty space is in canonical form. -/
@[simp] theorem Memory.wf_nil (size : Nat) : Memory.wf size [] = true := rfl

/-- A read of the written address gives the written byte. -/
@[simp] theorem Memory.lookup_insert_same (m : Memory) (i : Nat) (v : Byte) :
    (m.insert i v).lookup i = some v := by
  induction m with
  | nil => simp [Memory.insert, Memory.lookup]
  | cons d rest ih =>
    obtain ⟨b, w⟩ := d
    simp only [Memory.insert]
    split
    · simp [Memory.lookup]
    · split
      · simp [Memory.lookup]
      · rename_i h1 h2
        simp [Memory.lookup, Ne.symm h2, ih]

/-- A write leaves every other address alone. -/
theorem Memory.lookup_insert_other (m : Memory) {i j : Nat} (v : Byte) (h : j ≠ i) :
    (m.insert i v).lookup j = m.lookup j := by
  induction m with
  | nil => simp [Memory.insert, Memory.lookup, Ne.symm h]
  | cons d rest ih =>
    obtain ⟨b, w⟩ := d
    simp only [Memory.insert]
    split
    · simp [Memory.lookup, Ne.symm h]
    · split
      · rename_i _ h2
        subst h2
        simp [Memory.lookup, Ne.symm h]
      · simp [Memory.lookup, ih]

/-! ### Named receive sequences -/

@[simp] theorem writeRxb_length (bufs : List Space) (n i : Nat) (v : Byte) :
    (writeRxb bufs n i v).length = bufs.length := by
  unfold writeRxb
  split <;> simp

/-- A write changes the named sequence's cells only. -/
theorem writeRxb_get (bufs : List Space) (n i : Nat) (v : Byte) (k : Nat) :
    (writeRxb bufs n i v)[k]? =
      if k = n then (bufs[n]?).map (fun b => { b with cells := b.cells.insert i v }) else bufs[k]? := by
  unfold writeRxb
  split
  next b hb =>
    rw [List.getElem?_set]
    obtain ⟨hn, hget⟩ := List.getElem?_eq_some_iff.1 hb
    by_cases hk : n = k
    · subst hk; simp [hn, hget]
    · simp [hk, Ne.symm hk]
  next hb =>
    by_cases hk : k = n
    · subst hk; simp [hb]
    · simp [hk]

theorem writeRxb_mem {bufs : List Space} {n i : Nat} {v : Byte} {c : Space} (h : c ∈ writeRxb bufs n i v) :
    c ∈ bufs ∨ ∃ b, bufs[n]? = some b ∧ c = { b with cells := b.cells.insert i v } := by
  unfold writeRxb at h
  split at h
  next b hb =>
    obtain h | h := List.mem_or_eq_of_mem_set h
    · exact .inl h
    · exact .inr ⟨b, hb, h⟩
  next => exact .inl h

/-- Inversion of `MemWrite`: what a write in range does. -/
theorem State.memWrite_cases {s t : State} {sp : SpaceId} {i : Nat} {v : Byte} (h : s.memWrite sp i v = some t) :
    i < s.spaceSize sp ∧
      ((∃ n, sp = .rxb n ∧ t = { s with rxb := writeRxb s.rxb n i v }) ∨
       (sp = .buf ∧ t = { s with ce := { s.ce with buf := s.ce.buf.insert i v } })) := by
  unfold State.memWrite at h
  split at h
  next hi =>
    refine ⟨hi, ?_⟩
    cases sp with
    | txb => simp at h
    | rxb n => exact .inl ⟨n, rfl, by simpa using h.symm⟩
    | buf => exact .inr ⟨rfl, by simpa using h.symm⟩
  next => simp at h

/-- The byte written reads back, and every other byte of that sequence and of the others reads as before. -/
theorem State.byteAt_writeRxb (s : State) (n i : Nat) (v : Byte) (hn : n < s.rxb.length) (k j : Nat) :
    ({ s with rxb := writeRxb s.rxb n i v } : State).byteAt (.rxb k) j =
      if k = n ∧ j = i then v else s.byteAt (.rxb k) j := by
  simp only [State.byteAt, writeRxb_get]
  by_cases hk : k = n
  · subst hk
    have hb : s.rxb[k]? = some s.rxb[k] := List.getElem?_eq_getElem hn
    by_cases hj : j = i
    · subst hj; simp [hb]
    · simp [hb, hj, Memory.lookup_insert_other _ _ hj]
  · simp [hk]

/-- A byte of the FrameBuffer after a write of it. -/
theorem State.byteAt_buf_insert (s : State) (c : ClientEngine) (i : Nat) (v : Byte) (j : Nat)
    (h : c.buf = s.ce.buf.insert i v) :
    ({ s with ce := c } : State).byteAt .buf j = if j = i then v else s.byteAt .buf j := by
  simp only [State.byteAt, h]
  by_cases hj : j = i
  · subst hj; simp
  · simp [hj, Memory.lookup_insert_other _ _ hj]

/-- A write keeps every size. -/
theorem State.spaceSize_writeRxb (s : State) (n i : Nat) (v : Byte) (k : Nat) :
    ({ s with rxb := writeRxb s.rxb n i v } : State).spaceSize (.rxb k) = s.spaceSize (.rxb k) := by
  simp only [State.spaceSize, writeRxb_get]
  by_cases hk : k = n
  · subst hk
    cases s.rxb[k]? <;> simp
  · simp [hk]

end Sys2Proof.Machine
end

