-- ==== Sys2Proof/Laws/State.lean ====
section
/-! SUPPORT. One lemma per field per named update of the state, so that no later proof unfolds a record update. -/

namespace Sys2Proof.Machine

variable (s : State)

/-! ### `State.raise` -/

@[simp] theorem State.raise_cfg (f : FaultBit) : (s.raise f).cfg = s.cfg := rfl
@[simp] theorem State.raise_prog (f : FaultBit) : (s.raise f).prog = s.prog := rfl
@[simp] theorem State.raise_pc (f : FaultBit) : (s.raise f).pc = s.pc := rfl
@[simp] theorem State.raise_cprog (f : FaultBit) : (s.raise f).cprog = s.cprog := rfl
@[simp] theorem State.raise_cpc (f : FaultBit) : (s.raise f).cpc = s.cpc := rfl
@[simp] theorem State.raise_res (f : FaultBit) : (s.raise f).res = s.res := rfl
@[simp] theorem State.raise_resValid (f : FaultBit) : (s.raise f).resValid = s.resValid := rfl
@[simp] theorem State.raise_hp (f : FaultBit) : (s.raise f).hp = s.hp := rfl
@[simp] theorem State.raise_he (f : FaultBit) : (s.raise f).he = s.he := rfl
@[simp] theorem State.raise_cp (f : FaultBit) : (s.raise f).cp = s.cp := rfl
@[simp] theorem State.raise_ce (f : FaultBit) : (s.raise f).ce = s.ce := rfl
@[simp] theorem State.raise_env (f : FaultBit) : (s.raise f).env = s.env := rfl
@[simp] theorem State.raise_rxb (f : FaultBit) : (s.raise f).rxb = s.rxb := rfl
@[simp] theorem State.raise_flt (f : FaultBit) : (s.raise f).flt = s.flt ||| f.mask := rfl
@[simp] theorem State.raise_refused (f : FaultBit) : (s.raise f).refused = s.refused := rfl
@[simp] theorem State.raise_resets (f : FaultBit) : (s.raise f).resets = s.resets := rfl
@[simp] theorem State.raise_draws (f : FaultBit) : (s.raise f).draws = s.draws := rfl
@[simp] theorem State.raise_picks (f : FaultBit) : (s.raise f).picks = s.picks := rfl
@[simp] theorem State.raise_policy (f : FaultBit) : (s.raise f).policy = s.policy := rfl
@[simp] theorem State.raise_choice (f : FaultBit) : (s.raise f).choice = s.choice := rfl
@[simp] theorem State.raise_hwTurn (f : FaultBit) : (s.raise f).hwTurn = s.hwTurn := rfl

/-! ### `State.refuse` -/

@[simp] theorem State.refuse_cfg (r : RefuseMark) : (s.refuse r).cfg = s.cfg := rfl
@[simp] theorem State.refuse_prog (r : RefuseMark) : (s.refuse r).prog = s.prog := rfl
@[simp] theorem State.refuse_pc (r : RefuseMark) : (s.refuse r).pc = s.pc := rfl
@[simp] theorem State.refuse_cprog (r : RefuseMark) : (s.refuse r).cprog = s.cprog := rfl
@[simp] theorem State.refuse_cpc (r : RefuseMark) : (s.refuse r).cpc = s.cpc := rfl
@[simp] theorem State.refuse_res (r : RefuseMark) : (s.refuse r).res = s.res := rfl
@[simp] theorem State.refuse_resValid (r : RefuseMark) : (s.refuse r).resValid = s.resValid := rfl
@[simp] theorem State.refuse_hp (r : RefuseMark) : (s.refuse r).hp = s.hp := rfl
@[simp] theorem State.refuse_he (r : RefuseMark) : (s.refuse r).he = s.he := rfl
@[simp] theorem State.refuse_cp (r : RefuseMark) : (s.refuse r).cp = s.cp := rfl
@[simp] theorem State.refuse_ce (r : RefuseMark) : (s.refuse r).ce = s.ce := rfl
@[simp] theorem State.refuse_env (r : RefuseMark) : (s.refuse r).env = s.env := rfl
@[simp] theorem State.refuse_rxb (r : RefuseMark) : (s.refuse r).rxb = s.rxb := rfl
@[simp] theorem State.refuse_flt (r : RefuseMark) : (s.refuse r).flt = s.flt := rfl
@[simp] theorem State.refuse_refused (r : RefuseMark) : (s.refuse r).refused = some (s.refused.getD r) := rfl
@[simp] theorem State.refuse_resets (r : RefuseMark) : (s.refuse r).resets = s.resets := rfl
@[simp] theorem State.refuse_draws (r : RefuseMark) : (s.refuse r).draws = s.draws := rfl
@[simp] theorem State.refuse_picks (r : RefuseMark) : (s.refuse r).picks = s.picks := rfl
@[simp] theorem State.refuse_policy (r : RefuseMark) : (s.refuse r).policy = s.policy := rfl
@[simp] theorem State.refuse_choice (r : RefuseMark) : (s.refuse r).choice = s.choice := rfl
@[simp] theorem State.refuse_hwTurn (r : RefuseMark) : (s.refuse r).hwTurn = s.hwTurn := rfl

/-! ### `State.setRes` -/

@[simp] theorem State.setRes_cfg (v : Byte) : (s.setRes v).cfg = s.cfg := rfl
@[simp] theorem State.setRes_prog (v : Byte) : (s.setRes v).prog = s.prog := rfl
@[simp] theorem State.setRes_pc (v : Byte) : (s.setRes v).pc = s.pc := rfl
@[simp] theorem State.setRes_cprog (v : Byte) : (s.setRes v).cprog = s.cprog := rfl
@[simp] theorem State.setRes_cpc (v : Byte) : (s.setRes v).cpc = s.cpc := rfl
@[simp] theorem State.setRes_res (v : Byte) : (s.setRes v).res = v := rfl
@[simp] theorem State.setRes_resValid (v : Byte) : (s.setRes v).resValid = true := rfl
@[simp] theorem State.setRes_hp (v : Byte) : (s.setRes v).hp = s.hp := rfl
@[simp] theorem State.setRes_he (v : Byte) : (s.setRes v).he = s.he := rfl
@[simp] theorem State.setRes_cp (v : Byte) : (s.setRes v).cp = s.cp := rfl
@[simp] theorem State.setRes_ce (v : Byte) : (s.setRes v).ce = s.ce := rfl
@[simp] theorem State.setRes_env (v : Byte) : (s.setRes v).env = s.env := rfl
@[simp] theorem State.setRes_rxb (v : Byte) : (s.setRes v).rxb = s.rxb := rfl
@[simp] theorem State.setRes_flt (v : Byte) : (s.setRes v).flt = s.flt := rfl
@[simp] theorem State.setRes_refused (v : Byte) : (s.setRes v).refused = s.refused := rfl
@[simp] theorem State.setRes_resets (v : Byte) : (s.setRes v).resets = s.resets := rfl
@[simp] theorem State.setRes_draws (v : Byte) : (s.setRes v).draws = s.draws := rfl
@[simp] theorem State.setRes_picks (v : Byte) : (s.setRes v).picks = s.picks := rfl
@[simp] theorem State.setRes_policy (v : Byte) : (s.setRes v).policy = s.policy := rfl
@[simp] theorem State.setRes_choice (v : Byte) : (s.setRes v).choice = s.choice := rfl
@[simp] theorem State.setRes_hwTurn (v : Byte) : (s.setRes v).hwTurn = s.hwTurn := rfl

/-! ### `State.drew` -/

@[simp] theorem State.drew_cfg : (s.drew).cfg = s.cfg := rfl
@[simp] theorem State.drew_prog : (s.drew).prog = s.prog := rfl
@[simp] theorem State.drew_pc : (s.drew).pc = s.pc := rfl
@[simp] theorem State.drew_cprog : (s.drew).cprog = s.cprog := rfl
@[simp] theorem State.drew_cpc : (s.drew).cpc = s.cpc := rfl
@[simp] theorem State.drew_res : (s.drew).res = s.res := rfl
@[simp] theorem State.drew_resValid : (s.drew).resValid = s.resValid := rfl
@[simp] theorem State.drew_hp : (s.drew).hp = s.hp := rfl
@[simp] theorem State.drew_he : (s.drew).he = s.he := rfl
@[simp] theorem State.drew_cp : (s.drew).cp = s.cp := rfl
@[simp] theorem State.drew_ce : (s.drew).ce = s.ce := rfl
@[simp] theorem State.drew_env : (s.drew).env = s.env := rfl
@[simp] theorem State.drew_rxb : (s.drew).rxb = s.rxb := rfl
@[simp] theorem State.drew_flt : (s.drew).flt = s.flt := rfl
@[simp] theorem State.drew_refused : (s.drew).refused = s.refused := rfl
@[simp] theorem State.drew_resets : (s.drew).resets = s.resets := rfl
@[simp] theorem State.drew_draws : (s.drew).draws = s.draws + 1 := rfl
@[simp] theorem State.drew_picks : (s.drew).picks = s.picks := rfl
@[simp] theorem State.drew_policy : (s.drew).policy = s.policy := rfl
@[simp] theorem State.drew_choice : (s.drew).choice = s.choice := rfl
@[simp] theorem State.drew_hwTurn : (s.drew).hwTurn = s.hwTurn := rfl

/-! ### `State.advanceHost` -/

@[simp] theorem State.advanceHost_cfg : (s.advanceHost).cfg = s.cfg := rfl
@[simp] theorem State.advanceHost_prog : (s.advanceHost).prog = s.prog := rfl
@[simp] theorem State.advanceHost_pc : (s.advanceHost).pc = s.pc + 1 := rfl
@[simp] theorem State.advanceHost_cprog : (s.advanceHost).cprog = s.cprog := rfl
@[simp] theorem State.advanceHost_cpc : (s.advanceHost).cpc = s.cpc := rfl
@[simp] theorem State.advanceHost_res : (s.advanceHost).res = s.res := rfl
@[simp] theorem State.advanceHost_resValid : (s.advanceHost).resValid = s.resValid := rfl
@[simp] theorem State.advanceHost_hp : (s.advanceHost).hp = s.hp := rfl
@[simp] theorem State.advanceHost_he : (s.advanceHost).he = s.he := rfl
@[simp] theorem State.advanceHost_cp : (s.advanceHost).cp = s.cp := rfl
@[simp] theorem State.advanceHost_ce : (s.advanceHost).ce = s.ce := rfl
@[simp] theorem State.advanceHost_env : (s.advanceHost).env = s.env := rfl
@[simp] theorem State.advanceHost_rxb : (s.advanceHost).rxb = s.rxb := rfl
@[simp] theorem State.advanceHost_flt : (s.advanceHost).flt = s.flt := rfl
@[simp] theorem State.advanceHost_refused : (s.advanceHost).refused = s.refused := rfl
@[simp] theorem State.advanceHost_resets : (s.advanceHost).resets = s.resets := rfl
@[simp] theorem State.advanceHost_draws : (s.advanceHost).draws = s.draws := rfl
@[simp] theorem State.advanceHost_picks : (s.advanceHost).picks = s.picks := rfl
@[simp] theorem State.advanceHost_policy : (s.advanceHost).policy = s.policy := rfl
@[simp] theorem State.advanceHost_choice : (s.advanceHost).choice = s.choice := rfl
@[simp] theorem State.advanceHost_hwTurn : (s.advanceHost).hwTurn = s.hwTurn := rfl

/-! ### `State.advanceClient` -/

@[simp] theorem State.advanceClient_cfg : (s.advanceClient).cfg = s.cfg := rfl
@[simp] theorem State.advanceClient_prog : (s.advanceClient).prog = s.prog := rfl
@[simp] theorem State.advanceClient_pc : (s.advanceClient).pc = s.pc := rfl
@[simp] theorem State.advanceClient_cprog : (s.advanceClient).cprog = s.cprog := rfl
@[simp] theorem State.advanceClient_cpc : (s.advanceClient).cpc = s.cpc + 1 := rfl
@[simp] theorem State.advanceClient_res : (s.advanceClient).res = s.res := rfl
@[simp] theorem State.advanceClient_resValid : (s.advanceClient).resValid = s.resValid := rfl
@[simp] theorem State.advanceClient_hp : (s.advanceClient).hp = s.hp := rfl
@[simp] theorem State.advanceClient_he : (s.advanceClient).he = s.he := rfl
@[simp] theorem State.advanceClient_cp : (s.advanceClient).cp = s.cp := rfl
@[simp] theorem State.advanceClient_ce : (s.advanceClient).ce = s.ce := rfl
@[simp] theorem State.advanceClient_env : (s.advanceClient).env = s.env := rfl
@[simp] theorem State.advanceClient_rxb : (s.advanceClient).rxb = s.rxb := rfl
@[simp] theorem State.advanceClient_flt : (s.advanceClient).flt = s.flt := rfl
@[simp] theorem State.advanceClient_refused : (s.advanceClient).refused = s.refused := rfl
@[simp] theorem State.advanceClient_resets : (s.advanceClient).resets = s.resets := rfl
@[simp] theorem State.advanceClient_draws : (s.advanceClient).draws = s.draws := rfl
@[simp] theorem State.advanceClient_picks : (s.advanceClient).picks = s.picks := rfl
@[simp] theorem State.advanceClient_policy : (s.advanceClient).policy = s.policy := rfl
@[simp] theorem State.advanceClient_choice : (s.advanceClient).choice = s.choice := rfl
@[simp] theorem State.advanceClient_hwTurn : (s.advanceClient).hwTurn = s.hwTurn := rfl

/-! ### `State.toPhase` -/

@[simp] theorem State.toPhase_cfg (p : Phase) : (s.toPhase p).cfg = s.cfg := rfl
@[simp] theorem State.toPhase_prog (p : Phase) : (s.toPhase p).prog = s.prog := rfl
@[simp] theorem State.toPhase_pc (p : Phase) : (s.toPhase p).pc = s.pc := rfl
@[simp] theorem State.toPhase_cprog (p : Phase) : (s.toPhase p).cprog = s.cprog := rfl
@[simp] theorem State.toPhase_cpc (p : Phase) : (s.toPhase p).cpc = s.cpc := rfl
@[simp] theorem State.toPhase_res (p : Phase) : (s.toPhase p).res = s.res := rfl
@[simp] theorem State.toPhase_resValid (p : Phase) : (s.toPhase p).resValid = s.resValid := rfl
@[simp] theorem State.toPhase_hp (p : Phase) : (s.toPhase p).hp = s.hp := rfl
@[simp] theorem State.toPhase_he (p : Phase) : (s.toPhase p).he = { s.he with phase := p } := rfl
@[simp] theorem State.toPhase_cp (p : Phase) : (s.toPhase p).cp = s.cp := rfl
@[simp] theorem State.toPhase_ce (p : Phase) : (s.toPhase p).ce = s.ce := rfl
@[simp] theorem State.toPhase_env (p : Phase) : (s.toPhase p).env = s.env := rfl
@[simp] theorem State.toPhase_rxb (p : Phase) : (s.toPhase p).rxb = s.rxb := rfl
@[simp] theorem State.toPhase_flt (p : Phase) : (s.toPhase p).flt = s.flt := rfl
@[simp] theorem State.toPhase_refused (p : Phase) : (s.toPhase p).refused = s.refused := rfl
@[simp] theorem State.toPhase_resets (p : Phase) : (s.toPhase p).resets = s.resets := rfl
@[simp] theorem State.toPhase_draws (p : Phase) : (s.toPhase p).draws = s.draws := rfl
@[simp] theorem State.toPhase_picks (p : Phase) : (s.toPhase p).picks = s.picks := rfl
@[simp] theorem State.toPhase_policy (p : Phase) : (s.toPhase p).policy = s.policy := rfl
@[simp] theorem State.toPhase_choice (p : Phase) : (s.toPhase p).choice = s.choice := rfl
@[simp] theorem State.toPhase_hwTurn (p : Phase) : (s.toPhase p).hwTurn = s.hwTurn := rfl

/-! ### `State.raiseIf` -/

@[simp] theorem State.raiseIf_cfg (c : Bool) (f : FaultBit) : (s.raiseIf c f).cfg = s.cfg := by cases c <;> rfl
@[simp] theorem State.raiseIf_prog (c : Bool) (f : FaultBit) : (s.raiseIf c f).prog = s.prog := by cases c <;> rfl
@[simp] theorem State.raiseIf_pc (c : Bool) (f : FaultBit) : (s.raiseIf c f).pc = s.pc := by cases c <;> rfl
@[simp] theorem State.raiseIf_cprog (c : Bool) (f : FaultBit) : (s.raiseIf c f).cprog = s.cprog := by cases c <;> rfl
@[simp] theorem State.raiseIf_cpc (c : Bool) (f : FaultBit) : (s.raiseIf c f).cpc = s.cpc := by cases c <;> rfl
@[simp] theorem State.raiseIf_res (c : Bool) (f : FaultBit) : (s.raiseIf c f).res = s.res := by cases c <;> rfl
@[simp] theorem State.raiseIf_resValid (c : Bool) (f : FaultBit) : (s.raiseIf c f).resValid = s.resValid := by cases c <;> rfl
@[simp] theorem State.raiseIf_hp (c : Bool) (f : FaultBit) : (s.raiseIf c f).hp = s.hp := by cases c <;> rfl
@[simp] theorem State.raiseIf_he (c : Bool) (f : FaultBit) : (s.raiseIf c f).he = s.he := by cases c <;> rfl
@[simp] theorem State.raiseIf_cp (c : Bool) (f : FaultBit) : (s.raiseIf c f).cp = s.cp := by cases c <;> rfl
@[simp] theorem State.raiseIf_ce (c : Bool) (f : FaultBit) : (s.raiseIf c f).ce = s.ce := by cases c <;> rfl
@[simp] theorem State.raiseIf_env (c : Bool) (f : FaultBit) : (s.raiseIf c f).env = s.env := by cases c <;> rfl
@[simp] theorem State.raiseIf_rxb (c : Bool) (f : FaultBit) : (s.raiseIf c f).rxb = s.rxb := by cases c <;> rfl
@[simp] theorem State.raiseIf_flt (c : Bool) (f : FaultBit) : (s.raiseIf c f).flt = if c then s.flt ||| f.mask else s.flt := by cases c <;> rfl
@[simp] theorem State.raiseIf_refused (c : Bool) (f : FaultBit) : (s.raiseIf c f).refused = s.refused := by cases c <;> rfl
@[simp] theorem State.raiseIf_resets (c : Bool) (f : FaultBit) : (s.raiseIf c f).resets = s.resets := by cases c <;> rfl
@[simp] theorem State.raiseIf_draws (c : Bool) (f : FaultBit) : (s.raiseIf c f).draws = s.draws := by cases c <;> rfl
@[simp] theorem State.raiseIf_picks (c : Bool) (f : FaultBit) : (s.raiseIf c f).picks = s.picks := by cases c <;> rfl
@[simp] theorem State.raiseIf_policy (c : Bool) (f : FaultBit) : (s.raiseIf c f).policy = s.policy := by cases c <;> rfl
@[simp] theorem State.raiseIf_choice (c : Bool) (f : FaultBit) : (s.raiseIf c f).choice = s.choice := by cases c <;> rfl
@[simp] theorem State.raiseIf_hwTurn (c : Bool) (f : FaultBit) : (s.raiseIf c f).hwTurn = s.hwTurn := by cases c <;> rfl

/-! ### Status conditions under updates they do not read -/

@[simp] theorem State.raiseIf_false (f : FaultBit) : s.raiseIf false f = s := rfl
@[simp] theorem State.raiseIf_true (f : FaultBit) : s.raiseIf true f = s.raise f := rfl

end Sys2Proof.Machine
end

