-- ==== Sys2Proof/Laws/Effects.lean ====
section
/-! SUPPORT. For each shared effect one lemma that says all it does: the record it gives. Later proofs rewrite with these and do not unfold the effects. -/

namespace Sys2Proof.Machine

/-! ### Fault bits -/

@[simp] theorem FaultBit.getLsbD_mask (f : FaultBit) (k : Nat) : f.mask.getLsbD k = decide (k = f.index) := by
  by_cases hk : k < 12
  · cases f <;> interval_cases k <;> rfl
  · rw [BitVec.getLsbD_of_ge _ _ (by omega), decide_eq_false]
    cases f <;> simp only [FaultBit.index] <;> omega

/-- `raise` sets its own bit and no other. -/
@[simp] theorem getLsbD_raise (s : State) (f : FaultBit) (k : Nat) :
    (s.raise f).flt.getLsbD k = (s.flt.getLsbD k || decide (k = f.index)) := by
  simp

/-- A conditional raise sets its own bit under its condition and no other. -/
theorem getLsbD_raiseIf (s : State) (c : Bool) (f : FaultBit) (k : Nat) :
    (s.raiseIf c f).flt.getLsbD k = (s.flt.getLsbD k || (c && decide (k = f.index))) := by
  cases c <;> simp

/-- What a conditional raise adds to the fault record. -/
def FaultBit.when (f : FaultBit) (c : Bool) : BitVec 12 := if c then f.mask else 0

@[simp] theorem FaultBit.getLsbD_when (f : FaultBit) (c : Bool) (k : Nat) :
    (f.when c).getLsbD k = (c && decide (k = f.index)) := by
  cases c <;> simp [FaultBit.when]

/-- A conditional raise as a record. -/
theorem raiseIf_eq (s : State) (c : Bool) (f : FaultBit) : s.raiseIf c f = { s with flt := s.flt ||| f.when c } := by
  cases c <;> simp [FaultBit.when, State.raise]

/-! ### Host peripheral (R101 to R108) -/

theorem hClrbufEffect_eq (s : State) :
    hClrbufEffect s =
      { s with hp := { s.hp with txf := [], rxf := [] }, flt := s.flt ||| FaultBit.hClearBusy.when s.hostBusy } := by
  simp [hClrbufEffect, raiseIf_eq]

theorem hSetdirEffect_eq (t r : Bool) (s : State) :
    hSetdirEffect t r s =
      { s with
        hp := { s.hp with txEn := t, rxEn := r }
        flt := s.flt ||| FaultBit.hConfigActive.when (s.hostBusy || !s.hostCountZero) } := by
  simp [hSetdirEffect, raiseIf_eq]

theorem hLdtcntEffect_eq (n : Byte) (s : State) :
    hLdtcntEffect n s =
      { s with
        hp := { s.hp with tcnt := s.loadedCount n }
        flt := s.flt ||| FaultBit.hTcntZero.when (n == 0) ||| FaultBit.hTcntBusy.when s.hostBusy |||
          FaultBit.hUnprimed.when (n != 0 && s.hp.txEn && s.hp.txf.isEmpty) } := by
  simp [hLdtcntEffect, raiseIf_eq, State.loadedCount]

theorem hWrtxEffect_eq (b : Byte) (s : State) :
    hWrtxEffect b s =
      { s with
        hp := { s.hp with txf := if s.hostTxSpace then s.hp.txf ++ [b] else s.hp.txf }
        flt := s.flt ||| FaultBit.hTxWriteErr.when (!s.hostTxSpace) } := by
  unfold hWrtxEffect
  cases h : s.hostTxSpace <;> simp [push, FaultBit.when, State.raise]

/-- `H.RDRX` gives the head of the FIFO, or a draw and its fault. -/
theorem hRdrxEffect_cases (s : State) :
    (∃ b rest, s.hp.rxf = b :: rest ∧ hRdrxEffect s = (b, { s with hp := { s.hp with rxf := rest } })) ∨
    (s.hp.rxf = [] ∧ hRdrxEffect s =
      (Config.freeByte s.draws, { s with draws := s.draws + 1, flt := s.flt ||| FaultBit.hRxReadErr.mask })) := by
  unfold hRdrxEffect
  split
  next b rest h => exact .inl ⟨b, rest, h, rfl⟩
  next h => exact .inr ⟨h, rfl⟩

/-! ### Client peripheral (R182 to R192) -/

/-- ClientLatch: nothing while de-asserted, else the head of the FIFO, or a draw and the underflow. -/
theorem clientLatch_cases (s : State) :
    (s.cp.ss = false ∧ clientLatch s = s) ∨
    (∃ b rest, s.cp.ss = true ∧ s.cp.txf = b :: rest ∧
      clientLatch s = { s with cp := { s.cp with sh := .latched b, txf := rest } }) ∨
    (s.cp.ss = true ∧ s.cp.txf = [] ∧
      clientLatch s =
        { s with
          cp := { s.cp with sh := .latched (Config.freeByte s.draws) }
          draws := s.draws + 1
          flt := s.flt ||| FaultBit.cTxUnderflow.mask }) := by
  unfold clientLatch
  cases hss : s.cp.ss
  · exact .inl ⟨rfl, by simp⟩
  · cases htx : s.cp.txf with
    | nil => exact .inr (.inr ⟨rfl, rfl, by simp [State.raise, State.drew, State.drawn]⟩)
    | cons b rest => exact .inr (.inl ⟨b, rest, rfl, rfl, by simp⟩)

/-- ClientCapture: the latched byte and the receive FIFO, or the undriven line. -/
theorem clientCapture_cases (out : Byte) (s : State) :
    (∃ c, s.cp.sh = .latched c ∧
      clientCapture out s =
        (c, { s with
              cp := { s.cp with rxf := if s.clientRxRoom then s.cp.rxf ++ [out] else s.cp.rxf, sh := .idle }
              flt := s.flt ||| FaultBit.cRxOverflow.when (!s.clientRxRoom) })) ∨
    (∃ v, s.cp.sh = .idle ∧ s.env.line = .held v ∧ clientCapture out s = (v, s)) ∨
    (s.cp.sh = .idle ∧ s.env.line = .float ∧
      clientCapture out s = (Config.freeByte s.draws, { s with draws := s.draws + 1 })) := by
  unfold clientCapture undrivenByte
  cases hsh : s.cp.sh with
  | latched c =>
    refine .inl ⟨c, rfl, ?_⟩
    cases s.clientRxRoom <;> simp [push, FaultBit.when, State.raise]
  | idle =>
    cases hl : s.env.line with
    | held v => exact .inr (.inl ⟨v, rfl, rfl, rfl⟩)
    | float => exact .inr (.inr ⟨rfl, rfl, rfl⟩)

theorem cWrtxEffect_eq (b : Byte) (s : State) :
    cWrtxEffect b s =
      { s with
        cp := { s.cp with txf := if s.clientTxSpace then s.cp.txf ++ [b] else s.cp.txf }
        flt := s.flt ||| FaultBit.cTxWriteErr.when (!s.clientTxSpace) } := by
  unfold cWrtxEffect
  cases h : s.clientTxSpace <;> simp [push, FaultBit.when, State.raise]

/-- `C.RDRX` gives the head of the FIFO, or a draw and its fault. -/
theorem cRdrxEffect_cases (s : State) :
    (∃ b rest, s.cp.rxf = b :: rest ∧ cRdrxEffect s = (b, { s with cp := { s.cp with rxf := rest } })) ∨
    (s.cp.rxf = [] ∧ cRdrxEffect s =
      (Config.freeByte s.draws, { s with draws := s.draws + 1, flt := s.flt ||| FaultBit.cRxReadErr.mask })) := by
  unfold cRdrxEffect
  split
  next b rest h => exact .inl ⟨b, rest, h, rfl⟩
  next h => exact .inr ⟨h, rfl⟩

/-! ### Client engine (R224, R225, R229) -/

/-- `onByteReceived`: stored below the capacity, else dropped and the overrun recorded. -/
theorem ceRecvEffect_cases (b : Byte) (s : State) :
    (s.ce.rc < s.cfg.cap ∧
      ceRecvEffect b s = { s with ce := { s.ce with buf := s.ce.buf.insert s.ce.rc b, rc := s.ce.rc + 1 } }) ∨
    (s.cfg.cap ≤ s.ce.rc ∧ ceRecvEffect b s = { s with flt := s.flt ||| FaultBit.ceBufferOverrun.mask }) := by
  unfold ceRecvEffect
  split
  next h => exact .inl ⟨h, rfl⟩
  next h => exact .inr ⟨by omega, rfl⟩

/-- `onByteRequested`: the slot at the write cursor, or the exhausted fill at the capacity. -/
theorem ceReqEffect_cases (s : State) :
    (s.ce.wc < s.cfg.cap ∧
      ceReqEffect s = (s.byteAt .buf s.ce.wc, { s with ce := { s.ce with wc := s.ce.wc + 1 } })) ∨
    (s.cfg.cap ≤ s.ce.wc ∧ ceReqEffect s = (s.cfg.exhaustedFill, s)) := by
  unfold ceReqEffect
  split
  next h => exact .inl ⟨h, rfl⟩
  next h => exact .inr ⟨by omega, rfl⟩

theorem handleStart_eq (s : State) :
    handleStart s =
      { s with cp := { s.cp with sof := false }, ce := { s.ce with rc := 0, wc := 0, fs := .active } } := rfl

theorem handleStop_eq (s : State) :
    handleStop s =
      { s with
        cp := { s.cp with txf := [], rxf := [], sh := .idle, eof := false }
        ce := { s.ce with rc := 0, wc := 0, fs := .idle } } := rfl

/-- An event is pending when `chosenEvent` finds it, and `chosenEvent` finds one whenever any is pending. -/
theorem State.chosenEvent_pending {s : State} {e : Event} (h : s.chosenEvent = some e) : s.pending e = true := by
  unfold State.chosenEvent at h
  split at h
  next hc => simpa [← Option.some.inj h] using hc
  next =>
    unfold State.firstPending at h
    split at h
    next hc => simpa [← Option.some.inj h] using hc
    next =>
      split at h
      next hc => simpa [← Option.some.inj h] using hc
      next =>
        split at h
        next hc => simpa [← Option.some.inj h] using hc
        next =>
          split at h
          next hc => simpa [← Option.some.inj h] using hc
          next => simp at h

theorem State.chosenEvent_isSome (s : State) : s.chosenEvent.isSome = s.anyPending := by
  have hc : s.pending s.choice = true → s.anyPending = true := by
    intro h
    cases hch : s.choice <;> simp [hch] at h <;> simp [State.anyPending, h]
  unfold State.chosenEvent
  split
  next h => simp [hc h]
  next =>
    unfold State.firstPending State.anyPending
    cases s.pending .rx <;> cases s.pending .stop <;> cases s.pending .start <;> cases s.pending .tx <;> rfl

/-- A dispatch runs the handler of some pending event, or changes nothing when none is pending. -/
theorem dispatchOne_cases (s : State) :
    (∃ e, s.chosenEvent = some e ∧ s.pending e = true ∧ dispatchOne s = runHandler e s) ∨
    (s.anyPending = false ∧ dispatchOne s = s) := by
  unfold dispatchOne
  cases h : s.chosenEvent with
  | some e => exact .inl ⟨e, rfl, State.chosenEvent_pending h, rfl⟩
  | none => exact .inr ⟨by simpa [h] using (State.chosenEvent_isSome s).symm, rfl⟩

/-! ### Draining the Host receive FIFO (R149, R150) -/

/-- `store`: everything a success can be. -/
theorem store_cases {b : Byte} {s t : State} (h : store b s = some t) :
    (s.he.len ≤ s.he.r ∧ t = s) ∨
    (s.he.r < s.he.len ∧ s.he.rx = none ∧ t = { s with he := { s.he with r := s.he.r + 1 } }) ∨
    (∃ n, s.he.r < s.he.len ∧ s.he.rx = some n ∧ s.he.r < s.spaceSize (.rxb n) ∧
      t = { s with rxb := writeRxb s.rxb n s.he.r b, he := { s.he with r := s.he.r + 1 } }) := by
  unfold store at h
  split at h
  next hlt =>
    obtain ⟨u, hu, rfl⟩ := Option.map_eq_some_iff.1 h
    split at hu
    next n hrx =>
      obtain ⟨hi, ⟨m, hm, rfl⟩ | ⟨hm, -⟩⟩ := State.memWrite_cases hu
      · obtain rfl := SpaceId.rxb.inj hm
        exact .inr (.inr ⟨n, hlt, hrx, hi, rfl⟩)
      · cases hm
    next hrx =>
      obtain rfl := Option.some.inj hu
      exact .inr (.inl ⟨hlt, hrx, rfl⟩)
  next hge => exact .inl ⟨by omega, by simpa using h.symm⟩

/-- `store` succeeds when the slot exists. -/
theorem store_isSome {b : Byte} {s : State}
    (h : ∀ n, s.he.rx = some n → s.he.r < s.he.len → s.he.r < s.spaceSize (.rxb n)) : ∃ t, store b s = some t := by
  unfold store
  split
  next hlt =>
    cases hrx : s.he.rx with
    | none => exact ⟨_, rfl⟩
    | some n => exact ⟨_, by simp only [State.memWrite, if_pos (h n hrx hlt)]; rfl⟩
  next => exact ⟨s, rfl⟩

/-- `drain`: nothing to read, or the head of the FIFO stored. -/
theorem drain_cases {s t : State} (h : drain s = some t) :
    ((s.he.mode.rxOn = false ∨ s.hp.rxf = []) ∧ t = s) ∨
    (∃ b rest, s.he.mode.rxOn = true ∧ s.hp.rxf = b :: rest ∧
      store b { s with hp := { s.hp with rxf := rest } } = some t) := by
  unfold drain at h
  split at h
  next hon =>
    cases hf : s.hp.rxf with
    | nil =>
      simp only [hf, Option.some.injEq] at h
      exact .inl ⟨.inr rfl, h.symm⟩
    | cons b rest =>
      simp only [hf] at h
      exact .inr ⟨b, rest, hon, rfl, h⟩
  next hoff => exact .inl ⟨.inl (by simpa using hoff), by simpa using h.symm⟩

/-- `loadTx`: the byte `txByte` gives, written to the transmit FIFO, and the index past it. -/
theorem loadTx_cases {i : Nat} {s t : State} (h : loadTx i s = some t) :
    ∃ b, s.txByte i = some b ∧
      t = { s with
            hp := { s.hp with txf := if s.hostTxSpace then s.hp.txf ++ [b] else s.hp.txf }
            he := { s.he with w := i + 1 }
            flt := s.flt ||| FaultBit.hTxWriteErr.when (!s.hostTxSpace) } := by
  simp only [loadTx, Option.map_eq_some_iff] at h
  obtain ⟨b, hb, rfl⟩ := h
  exact ⟨b, hb, by simp [hWrtxEffect_eq]⟩

/-- `txByte` is defined below the operand's size. -/
theorem txByte_isSome {s : State} {i : Nat} (h : ∀ xs, s.he.tx = some xs → i < xs.length) : ∃ b, s.txByte i = some b := by
  unfold State.txByte
  cases hx : s.he.tx with
  | none => exact ⟨_, rfl⟩
  | some xs =>
    have hi : i < s.spaceSize .txb := by simpa [State.spaceSize, hx] using h xs hx
    exact ⟨s.byteAt .txb i, by simp [State.memRead, hi]⟩

/-- `txByte(i) = TXB[i]` when the operand is present (R144). -/
theorem txByte_present {s : State} {xs : List Byte} {i : Nat} (hx : s.he.tx = some xs) (hi : i < xs.length) :
    s.txByte i = xs[i]? := by
  have hs : i < s.spaceSize .txb := by simpa [State.spaceSize, hx] using hi
  simp [State.txByte, hx, State.memRead, hs, State.byteAt, List.getElem?_eq_getElem hi]

end Sys2Proof.Machine
end

