-- ==== Sys2Proof/Laws/Engine.lean ====
section
/-! SUPPORT. What one step of a Host engine operation can be (41_host_engine.md R141 to R152), said once. -/

namespace Sys2Proof.Machine

@[simp] theorem phaseResult_next {o : Option State} {t : State} : phaseResult o = .next t ↔ o = some t := by
  cases o <;> simp [phaseResult]

@[simp] theorem hostCommand_next {s t : State} : hostCommand s = .next t ↔ s.advanceHost = t := by
  simp [hostCommand]

@[simp] theorem clientCommand_next {s t : State} : clientCommand s = .next t ↔ s.advanceClient = t := by
  simp [clientCommand]

/-- S0: a refusal, an invalid length, or the capture and the clear (R142, R143, R145). -/
theorem engineS0_cases {k : Mode} {t r : Bool} {len : Byte} {s u : State} (h : engineS0 k t r len s = .next u) :
    (s.badOperand t r len = true ∧ u = s.refuse .badOperand) ∨
    (s.badOperand t r len = false ∧ s.lengthValid len = false ∧ u = { s with res := 1, resValid := true, pc := s.pc + 1 }) ∨
    (s.badOperand t r len = false ∧ s.lengthValid len = true ∧
      u = { s with
            hp := { s.hp with txf := [], rxf := [] }
            he := { phase := .s1, mode := k, len := len.toNat, w := 0, r := 0, tx := s.attachedTx, rx := s.attachedRx }
            flt := s.flt ||| FaultBit.hClearBusy.when s.hostBusy }) := by
  unfold engineS0 at h
  split at h
  next hb => exact .inl ⟨hb, by simpa using h.symm⟩
  next hb =>
    split at h
    next hl =>
      refine .inr (.inr ⟨by simpa using hb, hl, ?_⟩)
      obtain rfl := Host.Outcome.next.inj h
      simp [hClrbufEffect_eq, captureOperands, State.hostBusy]
    next hl => exact .inr (.inl ⟨by simpa using hb, by simpa using hl, (hostCommand_next.1 h).symm⟩)

theorem engineS1_eq (s : State) :
    engineS1 s =
      { s with
        hp := { s.hp with txEn := s.he.mode.txOn, rxEn := s.he.mode.rxOn }
        he := { s.he with phase := .s2 }
        flt := s.flt ||| FaultBit.hConfigActive.when (s.hostBusy || !s.hostCountZero) } := by
  simp [engineS1, hSetdirEffect_eq, State.toPhase]

theorem engineS2_cases {s t : State} (h : engineS2 s = some t) :
    (s.he.mode.txOn = false ∧ t = { s with he := { s.he with phase := .s3 } }) ∨
    (∃ b, s.he.mode.txOn = true ∧ s.txByte 0 = some b ∧
      t = { s with
            hp := { s.hp with txf := if s.hostTxSpace then s.hp.txf ++ [b] else s.hp.txf }
            he := { s.he with w := 1, phase := .s3 }
            flt := s.flt ||| FaultBit.hTxWriteErr.when (!s.hostTxSpace) }) := by
  obtain ⟨u, hu, rfl⟩ := Option.map_eq_some_iff.1 h
  split at hu
  next hon =>
    obtain ⟨b, hb, rfl⟩ := loadTx_cases hu
    exact .inr ⟨b, hon, hb, rfl⟩
  next hoff =>
    obtain rfl := Option.some.inj hu
    exact .inl ⟨by simpa using hoff, rfl⟩

theorem engineS3_eq (s : State) :
    engineS3 s =
      { s with
        hp := { s.hp with tcnt := s.loadedCount (BitVec.ofNat 8 s.he.len) }
        he := { s.he with phase := .l1 }
        flt := s.flt ||| FaultBit.hTcntZero.when (BitVec.ofNat 8 s.he.len == 0) |||
          FaultBit.hTcntBusy.when s.hostBusy |||
          FaultBit.hUnprimed.when (BitVec.ofNat 8 s.he.len != 0 && s.hp.txEn && s.hp.txf.isEmpty)
        hwTurn := true } := by
  simp [engineS3, hLdtcntEffect_eq, State.toPhase]

theorem engineL1_cases {s t : State} (h : engineL1 s = some t) :
    ((s.he.mode.txOn && decide (s.he.w < s.he.len) && s.hostTxSpace) = false ∧
      t = { s with he := { s.he with phase := .l2 } }) ∨
    (∃ b, s.he.mode.txOn = true ∧ s.he.w < s.he.len ∧ s.hostTxSpace = true ∧ s.txByte s.he.w = some b ∧
      t = { s with
            hp := { s.hp with txf := s.hp.txf ++ [b] }
            he := { s.he with w := s.he.w + 1, phase := .l2 } }) := by
  obtain ⟨u, hu, rfl⟩ := Option.map_eq_some_iff.1 h
  split at hu
  next hon =>
    simp only [Bool.and_eq_true, decide_eq_true_eq] at hon
    obtain ⟨b, hb, rfl⟩ := loadTx_cases hu
    refine .inr ⟨b, hon.1.1, hon.1.2, hon.2, hb, ?_⟩
    simp [hon.2, FaultBit.when, State.toPhase]
  next hoff =>
    obtain rfl := Option.some.inj hu
    exact .inl ⟨by simpa using hoff, rfl⟩

theorem engineL2_cases {s t : State} (h : engineL2 s = some t) :
    ∃ u, drain s = some u ∧ t = { u with he := { u.he with phase := .l3 } } := by
  obtain ⟨u, hu, rfl⟩ := Option.map_eq_some_iff.1 h
  exact ⟨u, hu, rfl⟩

theorem engineL3_cases (s : State) :
    (s.hostCountZero = true ∧ engineL3 s = { s with he := { s.he with phase := .d } }) ∨
    (s.hostCountZero = false ∧ engineL3 s = { s with he := { s.he with phase := .l1 }, hwTurn := true }) := by
  unfold engineL3
  cases s.hostCountZero
  · exact .inr ⟨rfl, rfl⟩
  · exact .inl ⟨rfl, rfl⟩

theorem engineD_cases {s t : State} (h : engineD s = some t) :
    ∃ u, drain s = some u ∧
      t = { u with res := 0, resValid := true, he := { u.he with phase := .idle }, pc := u.pc + 1 } := by
  obtain ⟨u, hu, rfl⟩ := Option.map_eq_some_iff.1 h
  exact ⟨u, hu, rfl⟩

/-- One step of an operation, phase by phase. -/
theorem engineStep_cases {k : Mode} {t r : Bool} {len : Byte} {s u : State} (h : engineStep k t r len s = .next u) :
    ((s.he.phase = .idle ∨ s.he.phase = .s0) ∧ engineS0 k t r len s = .next u) ∨
    (s.he.phase = .s1 ∧ u = engineS1 s) ∨
    (s.he.phase = .s2 ∧ engineS2 s = some u) ∨
    (s.he.phase = .s3 ∧ u = engineS3 s) ∨
    (s.he.phase = .l1 ∧ engineL1 s = some u) ∨
    (s.he.phase = .l2 ∧ engineL2 s = some u) ∨
    (s.he.phase = .l3 ∧ u = engineL3 s) ∨
    (s.he.phase = .d ∧ engineD s = some u) := by
  unfold engineStep at h
  split at h <;> rename_i hp <;> simp_all

/-- An engine command is one step of its operation, whichever constructor it is. -/
theorem exec_engine {i : Instr} {k : Mode} {t r : Bool} {len : Byte} (h : i.engine? = some (k, t, r, len)) (s : State) :
    exec i s = engineStep k t r len s := by
  cases i <;> simp only [Instr.engine?, Option.some.injEq, Prod.mk.injEq, reduceCtorEq] at h
  all_goals
    obtain ⟨rfl, rfl, rfl, rfl⟩ := h
    rfl

end Sys2Proof.Machine
end

