-- ==== Sys2Proof/Laws/PerInstr.lean ====
section
/-! SUPPORT. Statements about every instruction as syntax, one lemma per constructor. TableRow: the encoded word is matched by a row of the opcode table that reads the instruction back with all its operands (30_encoding.md R84 to R87, R89). -/

set_option Elab.async false

namespace Sys2Proof.Laws

/-- Some row of the opcode table matches the instruction's word and reads the instruction from it. -/
def TableRow.Statement (i : Instr) : Prop :=
  ∃ row ∈ opcodeRows, row.hits (encode i) = true ∧ row.build (encode i) = i

/-- The row at an index of the table proves the statement, when it matches and reads back. -/
theorem TableRow.of_index {i : Instr} (k : Nat) (hk : k < opcodeRows.length)
    (h : opcodeRows[k].hits (encode i) = true ∧ opcodeRows[k].build (encode i) = i) : TableRow.Statement i :=
  ⟨opcodeRows[k], List.getElem_mem hk, h⟩

theorem TableRow.hClrbuf : TableRow.Statement (.hClrbuf) :=
  TableRow.of_index 0 (by decide) (by decide +kernel)

theorem TableRow.hSetdir (t r : Bool) : TableRow.Statement (.hSetdir t r) :=
  TableRow.of_index 1 (by decide) (by revert t r; decide +kernel)

theorem TableRow.hLdtcnt (n : Byte) : TableRow.Statement (.hLdtcnt n) :=
  TableRow.of_index 2 (by decide) (by revert n; decide +kernel)

theorem TableRow.hTcz : TableRow.Statement (.hTcz) :=
  TableRow.of_index 3 (by decide) (by decide +kernel)

theorem TableRow.hTxspc : TableRow.Statement (.hTxspc) :=
  TableRow.of_index 4 (by decide) (by decide +kernel)

theorem TableRow.hRxdat : TableRow.Statement (.hRxdat) :=
  TableRow.of_index 5 (by decide) (by decide +kernel)

theorem TableRow.hWrtx (b : Byte) : TableRow.Statement (.hWrtx b) :=
  TableRow.of_index 6 (by decide) (by revert b; decide +kernel)

theorem TableRow.hRdrx : TableRow.Statement (.hRdrx) :=
  TableRow.of_index 7 (by decide) (by decide +kernel)

theorem TableRow.exchange (t r : Bool) (len : Byte) : TableRow.Statement (.exchange t r len) :=
  TableRow.of_index 8 (by decide) (by revert t r len; decide +kernel)

theorem TableRow.send (t : Bool) (len : Byte) : TableRow.Statement (.send t len) :=
  TableRow.of_index 9 (by decide) (by revert t len; decide +kernel)

theorem TableRow.receive (r : Bool) (len : Byte) : TableRow.Statement (.receive r len) :=
  TableRow.of_index 10 (by decide) (by revert r len; decide +kernel)

theorem TableRow.cClrbuf : TableRow.Statement (.cClrbuf) :=
  TableRow.of_index 11 (by decide) (by decide +kernel)

theorem TableRow.cSof : TableRow.Statement (.cSof) :=
  TableRow.of_index 12 (by decide) (by decide +kernel)

theorem TableRow.cEof : TableRow.Statement (.cEof) :=
  TableRow.of_index 13 (by decide) (by decide +kernel)

theorem TableRow.cAcksof : TableRow.Statement (.cAcksof) :=
  TableRow.of_index 14 (by decide) (by decide +kernel)

theorem TableRow.cAckeof : TableRow.Statement (.cAckeof) :=
  TableRow.of_index 15 (by decide) (by decide +kernel)

theorem TableRow.cRxdat : TableRow.Statement (.cRxdat) :=
  TableRow.of_index 16 (by decide) (by decide +kernel)

theorem TableRow.cTxspc : TableRow.Statement (.cTxspc) :=
  TableRow.of_index 17 (by decide) (by decide +kernel)

theorem TableRow.cWrtx (b : Byte) : TableRow.Statement (.cWrtx b) :=
  TableRow.of_index 18 (by decide) (by revert b; decide +kernel)

theorem TableRow.cRdrx : TableRow.Statement (.cRdrx) :=
  TableRow.of_index 19 (by decide) (by decide +kernel)

theorem TableRow.ceInit : TableRow.Statement (.ceInit) :=
  TableRow.of_index 20 (by decide) (by decide +kernel)

theorem TableRow.ceStart : TableRow.Statement (.ceStart) :=
  TableRow.of_index 21 (by decide) (by decide +kernel)

theorem TableRow.ceStop : TableRow.Statement (.ceStop) :=
  TableRow.of_index 22 (by decide) (by decide +kernel)

theorem TableRow.ceRecv (b : Byte) : TableRow.Statement (.ceRecv b) :=
  TableRow.of_index 23 (by decide) (by revert b; decide +kernel)

theorem TableRow.ceReq : TableRow.Statement (.ceReq) :=
  TableRow.of_index 24 (by decide) (by decide +kernel)

theorem TableRow.ceDispatch : TableRow.Statement (.ceDispatch) :=
  TableRow.of_index 25 (by decide) (by decide +kernel)

theorem TableRow.envSsa : TableRow.Statement (.envSsa) :=
  TableRow.of_index 26 (by decide) (by decide +kernel)

theorem TableRow.envSsd : TableRow.Statement (.envSsd) :=
  TableRow.of_index 27 (by decide) (by decide +kernel)

theorem TableRow.envLine (v : Byte) : TableRow.Statement (.envLine v) :=
  TableRow.of_index 28 (by decide) (by revert v; decide +kernel)

theorem TableRow.envFloat : TableRow.Statement (.envFloat) :=
  TableRow.of_index 29 (by decide) (by decide +kernel)

theorem TableRow.envStall : TableRow.Statement (.envStall) :=
  TableRow.of_index 30 (by decide) (by decide +kernel)

theorem TableRow.envUnstall : TableRow.Statement (.envUnstall) :=
  TableRow.of_index 31 (by decide) (by decide +kernel)

end Sys2Proof.Laws
end

