-- ==== Sys2Proof/Laws/Step.lean ====
section
/-! SUPPORT. What one step of the block can be, said once (00_scope.md R11, R12): later proofs cite `step_cases` and do not unfold `step`. -/

namespace Sys2Proof.Machine

/-! ### `takePick` changes the scheduling data only -/

section
variable (s : State)

@[simp] theorem State.takePick_cfg : s.takePick.cfg = s.cfg := by unfold State.takePick; split <;> [rfl; (split <;> rfl)]
@[simp] theorem State.takePick_prog : s.takePick.prog = s.prog := by unfold State.takePick; split <;> [rfl; (split <;> rfl)]
@[simp] theorem State.takePick_pc : s.takePick.pc = s.pc := by unfold State.takePick; split <;> [rfl; (split <;> rfl)]
@[simp] theorem State.takePick_cprog : s.takePick.cprog = s.cprog := by unfold State.takePick; split <;> [rfl; (split <;> rfl)]
@[simp] theorem State.takePick_cpc : s.takePick.cpc = s.cpc := by unfold State.takePick; split <;> [rfl; (split <;> rfl)]
@[simp] theorem State.takePick_res : s.takePick.res = s.res := by unfold State.takePick; split <;> [rfl; (split <;> rfl)]
@[simp] theorem State.takePick_resValid : s.takePick.resValid = s.resValid := by unfold State.takePick; split <;> [rfl; (split <;> rfl)]
@[simp] theorem State.takePick_hp : s.takePick.hp = s.hp := by unfold State.takePick; split <;> [rfl; (split <;> rfl)]
@[simp] theorem State.takePick_he : s.takePick.he = s.he := by unfold State.takePick; split <;> [rfl; (split <;> rfl)]
@[simp] theorem State.takePick_cp : s.takePick.cp = s.cp := by unfold State.takePick; split <;> [rfl; (split <;> rfl)]
@[simp] theorem State.takePick_ce : s.takePick.ce = s.ce := by unfold State.takePick; split <;> [rfl; (split <;> rfl)]
@[simp] theorem State.takePick_env : s.takePick.env = s.env := by unfold State.takePick; split <;> [rfl; (split <;> rfl)]
@[simp] theorem State.takePick_rxb : s.takePick.rxb = s.rxb := by unfold State.takePick; split <;> [rfl; (split <;> rfl)]
@[simp] theorem State.takePick_flt : s.takePick.flt = s.flt := by unfold State.takePick; split <;> [rfl; (split <;> rfl)]
@[simp] theorem State.takePick_resets : s.takePick.resets = s.resets := by unfold State.takePick; split <;> [rfl; (split <;> rfl)]
@[simp] theorem State.takePick_refused : s.takePick.refused = s.refused := by unfold State.takePick; split <;> [rfl; (split <;> rfl)]
@[simp] theorem State.takePick_hwTurn : s.takePick.hwTurn = s.hwTurn := by unfold State.takePick; split <;> [rfl; (split <;> rfl)]

end

/-! ### The steps of the agents -/

/-- HS_START as a record before the latch, and the latch (R110). -/
theorem hostPeripheralStep_cases {s t : State} (h : hostPeripheralStep s = some t) :
    (∃ out, s.env.stalled = false ∧ s.hp.sh = .busy out ∧ t = hsComplete out s) ∨
    (s.hsStartEnabled = true ∧ s.hp.sh = .idle ∧ t = hsStart s) := by
  unfold hostPeripheralStep at h
  split at h
  next => simp at h
  next hst =>
    split at h
    next out hsh => exact .inl ⟨out, by simpa using hst, hsh, by simpa using h.symm⟩
    next hsh =>
      split at h
      next hen => exact .inr ⟨hen, hsh, by simpa using h.symm⟩
      next => simp at h

/-- HS_COMPLETE changes the two peripherals, the fault record, the draws and REF's flag. -/
theorem hsComplete_frame (out : Byte) (s : State) :
    ∃ hp cp flt draws,
      hsComplete out s = { s with hp := hp, cp := cp, flt := flt, draws := draws, hwTurn := false } := by
  obtain ⟨c, -, h⟩ | ⟨v, -, -, h⟩ | ⟨-, -, h⟩ := clientCapture_cases out s <;>
    exact ⟨_, _, _, _, by simp only [hsComplete, h]; rfl⟩

/-- HS_START changes the two peripherals, the fault record, the draws and REF's flag. -/
theorem hsStart_frame (s : State) :
    ∃ hp cp flt draws,
      hsStart s = { s with hp := hp, cp := cp, flt := flt, draws := draws, hwTurn := false } := by
  unfold hsStart
  obtain ⟨-, h⟩ | ⟨b, rest, -, -, h⟩ | ⟨-, -, h⟩ := clientLatch_cases
    { s with
      hp := { s.hp with
        txf := if s.hp.txEn then s.hp.txf.tail else s.hp.txf
        sh := .busy s.shiftOut
        tcnt := if s.cfg.tcntDec = .atStart then decrement s.hp.tcnt else s.hp.tcnt }
      hwTurn := false } <;>
    exact ⟨_, _, _, _, h⟩

/-- A handler changes the Client side, the fault record and the draws. -/
theorem runHandler_frame (e : Event) (s : State) :
    ∃ cp ce flt draws, runHandler e s = { s with cp := cp, ce := ce, flt := flt, draws := draws } := by
  cases e with
  | start => exact ⟨_, _, _, _, rfl⟩
  | stop => exact ⟨_, _, _, _, rfl⟩
  | rx =>
    obtain ⟨b, rest, -, h⟩ | ⟨-, h⟩ := cRdrxEffect_cases s <;>
      simp only [runHandler, handleRx, h]
    · obtain ⟨-, h'⟩ | ⟨-, h'⟩ := ceRecvEffect_cases b { s with cp := { s.cp with rxf := rest } } <;>
        exact ⟨_, _, _, _, h'⟩
    · obtain ⟨-, h'⟩ | ⟨-, h'⟩ := ceRecvEffect_cases (Config.freeByte s.draws)
          { s with draws := s.draws + 1, flt := s.flt ||| FaultBit.cRxReadErr.mask } <;>
        exact ⟨_, _, _, _, h'⟩
  | tx =>
    obtain ⟨-, h⟩ | ⟨-, h⟩ := ceReqEffect_cases s <;>
      simp only [runHandler, handleTx, h] <;>
      exact ⟨_, _, _, _, cWrtxEffect_eq _ _⟩

/-! ### The step of the block -/

/-- Everything a step that answers a next state can be. -/
theorem step_cases {s t : State} (h : step s = .next t) :
    (s.nextPick = none ∧ t = s) ∨
    t = s.takePick ∨
    t = s.takePick.refuse .reservedEncoding ∨
    (∃ i, s.takePick.hostIssue = .command i ∧ exec i s.takePick = .next t) ∨
    (∃ i, s.takePick.clientIssue = .command i ∧ exec i s.takePick = .next t) ∨
    hostPeripheralStep s.takePick = some t ∨
    (∃ e, s.takePick.chosenEvent = some e ∧ s.takePick.pending e = true ∧ t = runHandler e s.takePick) := by
  unfold step at h
  split at h
  next p hp =>
    cases ha : p.agent <;> simp only [ha, runAgent, Host.Outcome.next.injEq] at h
    case hostProgram =>
      cases hi : s.takePick.hostIssue with
      | finished => simp only [hi, runIssue, Host.Outcome.next.injEq] at h; exact .inr (.inl h.symm)
      | reserved => simp only [hi, runIssue, Host.Outcome.next.injEq] at h; exact .inr (.inr (.inl h.symm))
      | command i => simp only [hi, runIssue] at h; exact .inr (.inr (.inr (.inl ⟨i, rfl, h⟩)))
    case clientProgram =>
      cases hi : s.takePick.clientIssue with
      | finished => simp only [hi, runIssue, Host.Outcome.next.injEq] at h; exact .inr (.inl h.symm)
      | reserved => simp only [hi, runIssue, Host.Outcome.next.injEq] at h; exact .inr (.inr (.inl h.symm))
      | command i => simp only [hi, runIssue] at h; exact .inr (.inr (.inr (.inr (.inl ⟨i, rfl, h⟩))))
    case hostPeripheral =>
      cases hs : hostPeripheralStep s.takePick with
      | none => simp only [hs, Option.getD_none] at h; exact .inr (.inl h.symm)
      | some u =>
        simp only [hs, Option.getD_some] at h
        exact .inr (.inr (.inr (.inr (.inr (.inl (congrArg some h))))))
    case dispatcher =>
      obtain ⟨e, he, hpend, hd⟩ | ⟨-, hd⟩ := dispatchOne_cases s.takePick
      · exact .inr (.inr (.inr (.inr (.inr (.inr ⟨e, he, hpend, by rw [← h, hd]⟩)))))
      · exact .inr (.inl (by rw [← h, hd]))
    case clientPeripheral => exact .inr (.inl h.symm)
    case environment => exact .inr (.inl h.symm)
  next hn => exact .inl ⟨hn, by simpa using h.symm⟩

/-! ### No command and no step resets the block (log 5, log 19) -/

theorem store_resets {b : Byte} {s t : State} (h : store b s = some t) : t.resets = s.resets := by
  obtain ⟨-, rfl⟩ | ⟨-, -, rfl⟩ | ⟨n, -, -, -, rfl⟩ := store_cases h <;> rfl

theorem drain_resets {s t : State} (h : drain s = some t) : t.resets = s.resets := by
  obtain ⟨-, rfl⟩ | ⟨b, rest, -, -, h⟩ := drain_cases h
  · rfl
  · have := store_resets h; exact this

theorem engineStep_resets {k : Mode} {t r : Bool} {len : Byte} {s u : State} (h : engineStep k t r len s = .next u) :
    u.resets = s.resets := by
  obtain ⟨-, h⟩ | ⟨-, rfl⟩ | ⟨-, h⟩ | ⟨-, rfl⟩ | ⟨-, h⟩ | ⟨-, h⟩ | ⟨-, rfl⟩ | ⟨-, h⟩ := engineStep_cases h
  · obtain ⟨-, rfl⟩ | ⟨-, -, rfl⟩ | ⟨-, -, rfl⟩ := engineS0_cases h <;> rfl
  · rw [engineS1_eq]
  · obtain ⟨-, rfl⟩ | ⟨b, -, -, rfl⟩ := engineS2_cases h <;> rfl
  · rw [engineS3_eq]
  · obtain ⟨-, rfl⟩ | ⟨b, -, -, -, -, rfl⟩ := engineL1_cases h <;> rfl
  · obtain ⟨v, hv, rfl⟩ := engineL2_cases h; have := drain_resets hv; exact this
  · obtain ⟨-, h⟩ | ⟨-, h⟩ := engineL3_cases s <;> rw [h]
  · obtain ⟨v, hv, rfl⟩ := engineD_cases h; have := drain_resets hv; exact this

theorem runHandler_resets (e : Event) (s : State) : (runHandler e s).resets = s.resets := by
  obtain ⟨_, _, _, _, h⟩ := runHandler_frame e s; rw [h]

theorem exec_resets {i : Instr} {s t : State} (h : exec i s = .next t) : t.resets = s.resets := by
  cases hi : i.engine? with
  | some x => exact engineStep_resets (exec_engine (k := x.1) hi s ▸ h)
  | none =>
    cases i <;> simp only [Instr.engine?, reduceCtorEq] at hi <;> obtain rfl := Host.Outcome.next.inj h
    case hClrbuf => simp [hClrbufEffect_eq]
    case hSetdir => simp [hSetdirEffect_eq]
    case hLdtcnt => simp [hLdtcntEffect_eq]
    case hWrtx => simp [hWrtxEffect_eq]
    case cWrtx => simp [cWrtxEffect_eq]
    case hRdrx => obtain ⟨_, _, -, h⟩ | ⟨-, h⟩ := hRdrxEffect_cases s <;> simp [h]
    case cRdrx => obtain ⟨_, _, -, h⟩ | ⟨-, h⟩ := cRdrxEffect_cases s <;> simp [h]
    case ceRecv b => obtain ⟨-, h⟩ | ⟨-, h⟩ := ceRecvEffect_cases b s <;> simp [h]
    case ceReq => obtain ⟨-, h⟩ | ⟨-, h⟩ := ceReqEffect_cases s <;> simp [h]
    case ceDispatch => obtain ⟨e, -, -, h⟩ | ⟨-, h⟩ := dispatchOne_cases s <;> simp [h, runHandler_resets]
    case envSsa => simp; split <;> rfl
    case envSsd => simp; split <;> rfl
    all_goals rfl

/-- No step is a reset, so the draws of the FrameBuffer stay those of the last reset. -/
theorem step_resets {s t : State} (h : step s = .next t) : t.resets = s.resets := by
  obtain ⟨-, rfl⟩ | rfl | rfl | ⟨i, -, h⟩ | ⟨i, -, h⟩ | h | ⟨e, -, -, rfl⟩ := step_cases h
  · rfl
  · simp
  · simp
  · simpa using exec_resets h
  · simpa using exec_resets h
  · obtain ⟨out, -, -, rfl⟩ | ⟨-, -, rfl⟩ := hostPeripheralStep_cases h
    · obtain ⟨_, _, _, _, h⟩ := hsComplete_frame out s.takePick; simp [h]
    · obtain ⟨_, _, _, _, h⟩ := hsStart_frame s.takePick; simp [h]
  · simp [runHandler_resets]

end Sys2Proof.Machine
end

