-- ==== Sys2Proof/Laws/Run.lean ====
section
/-! SUPPORT. What one step of a run can be, and what a Host engine operation keeps, said once. -/

namespace Sys2Proof.Machine

/-- A step under a pick is one of its agent. -/
theorem stepWith_eq (p : Pick) (s : State) : stepWith p s = runAgent p.agent (s.after p.event []) := rfl

/-- A command of the client program changes the Client side, `res`, the fault record and the draws. -/
theorem exec_client_frame {i : Instr} {s t : State} (hi : i.stream = .client) (h : exec i s = .next t) :
    ∃ res v cp ce flt draws,
      t = { s with cpc := s.cpc + 1, res := res, resValid := v, cp := cp, ce := ce, flt := flt, draws := draws } := by
  cases i <;> simp only [Instr.stream, Instr.unit, CmdUnit.stream, reduceCtorEq] at hi <;>
    obtain rfl := Host.Outcome.next.inj h
  case cWrtx b => exact ⟨_, _, _, _, _, _, by rw [cWrtxEffect_eq]; rfl⟩
  case cRdrx =>
    obtain ⟨b, rest, -, h⟩ | ⟨-, h⟩ := cRdrxEffect_cases s <;> exact ⟨_, _, _, _, _, _, by rw [h]; rfl⟩
  case ceRecv b => obtain ⟨-, h⟩ | ⟨-, h⟩ := ceRecvEffect_cases b s <;> exact ⟨_, _, _, _, _, _, by rw [h]; rfl⟩
  case ceReq => obtain ⟨-, h⟩ | ⟨-, h⟩ := ceReqEffect_cases s <;> exact ⟨_, _, _, _, _, _, by rw [h]; rfl⟩
  case ceDispatch =>
    obtain ⟨e, -, -, h⟩ | ⟨-, h⟩ := dispatchOne_cases s
    · obtain ⟨cp, ce, flt, draws, h'⟩ := runHandler_frame e s
      exact ⟨_, _, _, _, _, _, by rw [h, h']; rfl⟩
    · exact ⟨_, _, _, _, _, _, by rw [h]; rfl⟩
  all_goals exact ⟨_, _, _, _, _, _, rfl⟩

/-- A command the client program issues is one of its stream (R81, R88). -/
theorem State.clientIssue_stream {s : State} {i : Instr} (h : s.clientIssue = .command i) :
    i.stream = .client ∧ s.cpc < s.cprog.length := by
  unfold State.clientIssue at h
  split at h
  next w hw =>
    refine ⟨?_, (List.getElem?_eq_some_iff.1 hw).1⟩
    unfold issueWord at h
    split at h
    next j _ =>
      split at h
      next hb => obtain rfl := Issue.command.inj h; simpa [Instr.belongsTo] using hb
      next => cases h
    next => cases h
  next => cases h

/-- The Host side of the block, which only the host program and the Host peripheral change. -/
structure SameHost (s t : State) : Prop where
  cfg : t.cfg = s.cfg
  prog : t.prog = s.prog
  pc : t.pc = s.pc
  he : t.he = s.he
  env : t.env = s.env
  rxb : t.rxb = s.rxb

/-- The steps the Host peripheral still has before it needs a load of the counter (R110, R111). -/
def State.exchangeSteps (s : State) : Nat :=
  match s.cfg.tcntDec, s.hp.sh with
  | .atStart, .idle => 2 * s.hp.tcnt
  | .atStart, .busy _ => 2 * s.hp.tcnt + 1
  | .atComplete, .idle => 2 * s.hp.tcnt
  | .atComplete, .busy _ => if s.hp.tcnt = 0 then 1 else 2 * s.hp.tcnt - 1

/-- The steps the client program still has. -/
def State.clientSteps (s : State) : Nat := (s.cprog.length - s.cpc) + s.refused.isNone.toNat

/-- A bound on the events the dispatcher can handle with nothing else moving. -/
def State.eventSteps (s : State) : Nat :=
  s.cp.sof.toNat + (s.cfg.txd + 1) * s.cp.eof.toNat + s.cp.rxf.length +
    (s.cfg.txd - s.cp.txf.length)

/-- A handler uses up one of the events the dispatcher can handle (R228). -/
theorem runHandler_eventSteps {e : Event} {s : State} (h : s.pending e = true) :
    (runHandler e s).eventSteps < s.eventSteps := by
  cases e with
  | start =>
    have hs : s.cp.sof = true := h
    simp [runHandler, handleStart_eq, State.eventSteps, hs]
  | stop =>
    have hs : s.cp.eof = true := h
    simp [runHandler, handleStop_eq, State.eventSteps, hs]; omega
  | rx =>
    have hs : s.cp.rxf ≠ [] := by simpa [State.pending, State.clientRxData, List.length_pos_iff] using h
    obtain ⟨b, rest, hr, hc⟩ | ⟨hn, -⟩ := cRdrxEffect_cases s
    · simp only [runHandler, handleRx, hc]
      obtain ⟨-, h'⟩ | ⟨-, h'⟩ := ceRecvEffect_cases b { s with cp := { s.cp with rxf := rest } } <;>
        rw [h'] <;> simp [State.eventSteps, hr]
    · exact absurd hn hs
  | tx =>
    simp only [State.pending, Bool.and_eq_true, State.clientTxSpace, decide_eq_true_eq] at h
    have hl := h.1
    simp only [runHandler, handleTx, cWrtxEffect_eq]
    obtain ⟨-, h'⟩ | ⟨-, h'⟩ := ceReqEffect_cases s <;>
      rw [h'] <;> simp [State.eventSteps, State.clientTxSpace, hl] <;> omega

/-- What an enabled step of another agent than the host program is: one byte step, a client step, or a handled event, and each uses up one of the steps its agent has. -/
theorem stepWith_cases {p : Pick} {s t : State} (h : stepWith p s = .next t) (hen : s.enabled p.agent = true)
    (hp : p.agent ≠ .hostProgram) :
    SameHost s t ∧
    ((p.agent = .hostPeripheral ∧ hostPeripheralStep (s.after p.event []) = some t) ∨
     (t.hp = s.hp ∧ p.agent ≠ .hostPeripheral ∧ t.clientSteps < s.clientSteps) ∨
     (t.hp = s.hp ∧ p.agent ≠ .hostPeripheral ∧ t.clientSteps = s.clientSteps ∧ t.eventSteps < s.eventSteps)) := by
  rw [stepWith_eq] at h
  cases ha : p.agent <;> simp only [ha, runAgent, Host.Outcome.next.injEq] at h hen hp
  case hostProgram => exact absurd rfl hp
  case clientProgram =>
    have hi' : (s.after p.event []).clientIssue = s.clientIssue := rfl
    rw [hi'] at h
    cases hi : s.clientIssue with
    | finished => simp [State.enabled, State.clientEnabled, hi] at hen
    | reserved =>
      simp only [State.enabled, State.clientEnabled, hi] at hen
      simp only [hi, runIssue, Host.Outcome.next.injEq] at h
      have hr : s.refused = none := by simpa using hen
      subst h
      refine ⟨⟨rfl, rfl, rfl, rfl, rfl, rfl⟩, .inr (.inl ⟨rfl, by simp, ?_⟩)⟩
      simp [State.clientSteps, State.refuse, State.after, hr]
    | command i =>
      simp only [hi, runIssue] at h
      obtain ⟨hs, hl⟩ := State.clientIssue_stream hi
      obtain ⟨res, v, cp, ce, flt, draws, rfl⟩ := exec_client_frame hs h
      refine ⟨⟨rfl, rfl, rfl, rfl, rfl, rfl⟩, .inr (.inl ⟨rfl, by simp, ?_⟩)⟩
      simp only [State.clientSteps, State.after]; omega
  case hostPeripheral =>
    cases hs : hostPeripheralStep (s.after p.event []) with
    | none =>
      simp only [State.enabled, State.hsStartEnabled, State.hsCompleteEnabled, State.hostBusy] at hen
      unfold hostPeripheralStep at hs
      have e1 : (s.after p.event []).env = s.env := rfl
      have e2 : (s.after p.event []).hp = s.hp := rfl
      have e3 : (s.after p.event []).hsStartEnabled = s.hsStartEnabled := rfl
      rw [e1, e2, e3] at hs
      cases hst : s.env.stalled <;> cases hsh : s.hp.sh <;> simp [hst, hsh] at hen hs
      simp [State.hsStartEnabled, State.hostBusy, hst, hsh, hen] at hs
      simp [hs] at hen
    | some u =>
      simp only [hs, Option.getD_some] at h
      subst h
      refine ⟨?_, .inl ⟨rfl, rfl⟩⟩
      obtain ⟨out, -, -, rfl⟩ | ⟨-, -, rfl⟩ := hostPeripheralStep_cases hs
      · obtain ⟨_, _, _, _, h⟩ := hsComplete_frame out (s.after p.event []); rw [h]
        exact ⟨rfl, rfl, rfl, rfl, rfl, rfl⟩
      · obtain ⟨_, _, _, _, h⟩ := hsStart_frame (s.after p.event []); rw [h]; exact ⟨rfl, rfl, rfl, rfl, rfl, rfl⟩
  case dispatcher =>
    obtain ⟨e, -, hpend, hd⟩ | ⟨hn, -⟩ := dispatchOne_cases (s.after p.event [])
    · rw [hd] at h
      have := runHandler_eventSteps hpend
      obtain ⟨cp, ce, flt, draws, hf⟩ := runHandler_frame e (s.after p.event [])
      rw [h] at this hf
      subst hf
      exact ⟨⟨rfl, rfl, rfl, rfl, rfl, rfl⟩, .inr (.inr ⟨rfl, by simp, rfl, this⟩)⟩
    · have : (s.after p.event []).anyPending = true := hen
      rw [hn] at this; cases this
  case clientPeripheral => simp [State.enabled] at hen
  case environment => simp [State.enabled] at hen

@[simp] theorem clientLatch_hp (s : State) : (clientLatch s).hp = s.hp := by
  obtain ⟨-, h⟩ | ⟨b, rest, -, -, h⟩ | ⟨-, -, h⟩ := clientLatch_cases s <;> rw [h]

/-- What HS_START leaves of the Host peripheral (R110). -/
theorem hsStart_hp (s : State) :
    (hsStart s).hp =
      { s.hp with
        txf := if s.hp.txEn then s.hp.txf.tail else s.hp.txf
        sh := .busy s.shiftOut
        tcnt := if s.cfg.tcntDec = .atStart then s.hp.tcnt - 1 else s.hp.tcnt } := by
  have hd : decrement s.hp.tcnt = s.hp.tcnt - 1 := by unfold decrement; split <;> omega
  simp [hsStart, hd]

/-- What HS_COMPLETE leaves of the Host peripheral (R111). -/
theorem hsComplete_hp (out : Byte) (s : State) :
    ∃ rxf, (s.hp.rxf.length ≤ s.cfg.rxd → rxf.length ≤ s.cfg.rxd) ∧ (hsComplete out s).hp =
      { s.hp with
        rxf := rxf
        sh := .idle
        tcnt := if s.cfg.tcntDec = .atComplete then s.hp.tcnt - 1 else s.hp.tcnt } := by
  have hd : decrement s.hp.tcnt = s.hp.tcnt - 1 := by unfold decrement; split <;> omega
  refine ⟨if s.hp.rxEn && s.hostRxRoom then push s.hp.rxf (clientCapture out s).1 else s.hp.rxf, ?_,
    by simp only [hsComplete, hd]⟩
  intro hl
  split
  next h =>
    simp only [State.hostRxRoom, Bool.and_eq_true, decide_eq_true_eq] at h
    simp [push]; omega
  next => exact hl

/-- A step of the Host peripheral completes the byte in flight, or starts one when a byte waits where it is needed (R110, R111). -/
theorem hostPeripheralStep_hp {s t : State} (h : hostPeripheralStep s = some t) :
    (∃ out rxf, s.hp.sh = .busy out ∧ (s.hp.rxf.length ≤ s.cfg.rxd → rxf.length ≤ s.cfg.rxd) ∧ t.hp = { s.hp with
        rxf := rxf, sh := .idle
        tcnt := if s.cfg.tcntDec = .atComplete then s.hp.tcnt - 1 else s.hp.tcnt }) ∨
    (∃ out, s.hp.sh = .idle ∧ s.hp.tcnt ≠ 0 ∧ (s.hp.txEn = true → s.hp.txf ≠ []) ∧ t.hp = { s.hp with
        txf := if s.hp.txEn then s.hp.txf.tail else s.hp.txf
        sh := .busy out
        tcnt := if s.cfg.tcntDec = .atStart then s.hp.tcnt - 1 else s.hp.tcnt }) := by
  obtain ⟨out, -, hsh, rfl⟩ | ⟨hen, hsh, rfl⟩ := hostPeripheralStep_cases h
  · obtain ⟨rxf, hr, h⟩ := hsComplete_hp out s
    exact .inl ⟨out, rxf, hsh, hr, h⟩
  · refine .inr ⟨s.shiftOut, hsh, ?_, ?_, hsStart_hp s⟩
    · intro h; simp [State.hsStartEnabled, State.hostCountZero, h] at hen
    · intro h1 h2; simp [State.hsStartEnabled, h1, h2] at hen

/-- It writes no parameter and no client program counter. -/
theorem hostPeripheralStep_cfg {s t : State} (h : hostPeripheralStep s = some t) :
    t.cfg = s.cfg ∧ t.clientSteps = s.clientSteps := by
  obtain ⟨out, -, -, rfl⟩ | ⟨-, -, rfl⟩ := hostPeripheralStep_cases h
  · obtain ⟨_, _, _, _, h⟩ := hsComplete_frame out s; rw [h]; exact ⟨rfl, rfl⟩
  · obtain ⟨_, _, _, _, h⟩ := hsStart_frame s; rw [h]; exact ⟨rfl, rfl⟩

/-- It uses up one of its steps. -/
theorem hostPeripheralStep_exchangeSteps {s t : State} (h : hostPeripheralStep s = some t) :
    t.exchangeSteps < s.exchangeSteps := by
  have hc := (hostPeripheralStep_cfg h).1
  obtain ⟨out, rxf, hsh, -, ht⟩ | ⟨out, hsh, h0, -, ht⟩ := hostPeripheralStep_hp h <;>
    simp only [State.exchangeSteps, ht, hsh, hc] <;> cases s.cfg.tcntDec <;>
    simp only [reduceCtorEq, if_true, if_false] <;>
    first | omega | (split_ifs <;> omega)

/-- The bytes still to start before the count is 0. -/
def State.startsLeft (s : State) : Nat :=
  s.hp.tcnt - if s.cfg.tcntDec = .atComplete ∧ s.hp.sh ≠ .idle then 1 else 0

/-- What holds all through an operation that began with the Host quiet and no stall. -/
structure State.Operating (s : State) : Prop where
  txd : s.he.mode.txOn = true → 1 ≤ s.cfg.txd
  rxd : s.he.mode.rxOn = true → 1 ≤ s.cfg.rxd
  fits : s.hp.rxf.length ≤ s.cfg.rxd
  live : s.env.stalled = false
  running : s.he.phase.running = true
  issue : ∃ i t r len, s.hostIssue = .command i ∧ i.engine? = some (s.he.mode, t, r, len)
  quiet : s.he.phase = .s1 ∨ s.he.phase = .s2 ∨ s.he.phase = .s3 → s.hp.sh = .idle ∧ s.hp.tcnt = 0
  empty : s.he.phase = .s1 ∨ s.he.phase = .s2 → s.hp.txf = []
  paths : s.he.phase ≠ .s1 → s.hp.txEn = s.he.mode.txOn ∧ s.hp.rxEn = s.he.mode.rxOn
  len : 1 ≤ s.he.len
  primed : s.he.phase = .s3 → s.he.mode.txOn = true → s.he.w = 1 ∧ s.hp.txf.length = 1
  fed : s.he.phase.looping = true → s.he.mode.txOn = true → s.startsLeft ≤ (s.he.len - s.he.w) + s.hp.txf.length

theorem SameHost.issue {s t : State} (h : SameHost s t) : t.hostIssue = s.hostIssue := by
  simp only [State.hostIssue, h.prog, h.pc]

theorem SameHost.trans {s t u : State} (h : SameHost s t) (h' : SameHost t u) : SameHost s u :=
  ⟨h'.cfg.trans h.cfg, h'.prog.trans h.prog, h'.pc.trans h.pc, h'.he.trans h.he, h'.env.trans h.env, h'.rxb.trans h.rxb⟩

theorem SameHost.refl (s : State) : SameHost s s := ⟨rfl, rfl, rfl, rfl, rfl, rfl⟩

/-- The host program always has a step in an operation (R158). -/
theorem State.Operating.enabled {s : State} (h : s.Operating) : s.enabled .hostProgram = true := by
  obtain ⟨i, t, r, len, hi, he⟩ := h.issue
  have hr := h.running
  have : s.operandRefused i = false := by
    simp only [State.operandRefused, he]
    cases hp : s.he.phase <;> simp [hp, Phase.running] at hr ⊢
  simp [State.enabled, State.hostEnabled, hi, this]

/-- Another agent's step keeps it. -/
theorem State.Operating.other {p : Pick} {s t : State} (hs : s.Operating) (h : stepWith p s = .next t)
    (hen : s.enabled p.agent = true) (hp : p.agent ≠ .hostProgram) : t.Operating := by
  obtain ⟨hh, hc⟩ := stepWith_cases h hen hp
  have key : ∀ (hhp : t.hp.sh = s.hp.sh ∧ t.hp.tcnt = s.hp.tcnt ∨ ¬(s.hp.sh = .idle ∧ s.hp.tcnt = 0))
      (h1 : t.hp.txEn = s.hp.txEn) (h2 : t.hp.rxEn = s.hp.rxEn)
      (h3 : s.hp.sh = .idle ∧ s.hp.tcnt = 0 → t.hp.txf = s.hp.txf)
      (h4 : s.he.phase.looping = true → s.he.mode.txOn = true → t.startsLeft ≤ (s.he.len - s.he.w) + t.hp.txf.length)
      (h5 : t.hp.rxf.length ≤ s.cfg.rxd), t.Operating := by
    intro hhp h1 h2 h3 h4 h5
    refine ⟨by rw [hh.cfg, hh.he]; exact hs.txd, by rw [hh.cfg, hh.he]; exact hs.rxd, by rw [hh.cfg]; exact h5,
      by rw [hh.env]; exact hs.live, by rw [hh.he]; exact hs.running,
      by rw [hh.issue, hh.he]; exact hs.issue, ?_, ?_, ?_, by rw [hh.he]; exact hs.len, ?_, ?_⟩ <;> rw [hh.he]
    · intro hq
      have := hs.quiet hq
      obtain h | h := hhp
      · rw [h.1, h.2]; exact this
      · exact absurd this h
    · intro hq
      rw [h3 (hs.quiet (by tauto))]; exact hs.empty hq
    · rw [h1, h2]; exact hs.paths
    · intro hq ht
      rw [h3 (hs.quiet (by tauto))]; exact hs.primed hq ht
    · exact h4
  have hsame : t.hp = s.hp → t.Operating := fun hhp =>
    key (.inl (by rw [hhp]; exact ⟨rfl, rfl⟩)) (by rw [hhp]) (by rw [hhp]) (fun _ => by rw [hhp]) (by
      simp only [State.startsLeft, hhp, hh.cfg]; exact hs.fed) (by rw [hhp]; exact hs.fits)
  obtain ⟨-, hst⟩ | ⟨hhp, -⟩ | ⟨hhp, -⟩ := hc
  · have e2 : (s.after p.event []).hp = s.hp := rfl
    have e3 : (s.after p.event []).cfg = s.cfg := rfl
    have hst' := hostPeripheralStep_hp hst
    rw [e2, e3] at hst'
    obtain ⟨out, rxf, hsh, hfit, ht⟩ | ⟨out, hsh, h0, hne, ht⟩ := hst'
    · refine key (.inr (by simp [hsh])) (by rw [ht]) (by rw [ht]) (by simp [hsh]) ?_ (by rw [ht]; exact hfit hs.fits)
      intro hl hon
      have := hs.fed hl hon
      simp only [State.startsLeft, ht, hh.cfg, hsh] at this ⊢
      cases hd : s.cfg.tcntDec <;> simp [hd] at this ⊢ <;> omega
    · refine key (.inr (by simp [h0])) (by rw [ht]) (by rw [ht]) (by simp [h0]) ?_ (by rw [ht]; exact hs.fits)
      intro hl hon
      have hten : s.hp.txEn = true := by
        rw [(hs.paths (by intro hq; simp [hq, Phase.looping] at hl)).1]; exact hon
      have hpos := List.length_pos_iff.2 (hne hten)
      have := hs.fed hl hon
      simp only [State.startsLeft, ht, hh.cfg, hsh] at this ⊢
      cases hd : s.cfg.tcntDec <;> simp [hd, hten] at this ⊢ <;> omega
  · exact hsame hhp
  · exact hsame hhp

/-- The drain writes the receive FIFO, the read index and a receive sequence; it takes the oldest byte where the path is on and there is one (R149). -/
theorem drain_frame {s t : State} (h : drain s = some t) :
    ∃ rxf r rxb, t = { s with hp := { s.hp with rxf := rxf }, he := { s.he with r := r }, rxb := rxb } ∧
      (rxf = s.hp.rxf ∧ (s.he.mode.rxOn = false ∨ s.hp.rxf = []) ∨ ∃ b, s.hp.rxf = b :: rxf) := by
  obtain ⟨hoff, rfl⟩ | ⟨b, rest, -, hf, hst⟩ := drain_cases h
  · exact ⟨_, _, _, rfl, .inl ⟨rfl, hoff⟩⟩
  · obtain ⟨-, rfl⟩ | ⟨-, -, rfl⟩ | ⟨n, -, -, -, rfl⟩ := store_cases hst <;> exact ⟨rest, _, _, rfl, .inr ⟨b, hf⟩⟩

/-- A step of the host program from S1 to L3 (R141), and what of the Host peripheral it leaves: L1 leaves a byte to shift out where one is needed, L2 leaves room for one. -/
inductive PhaseStep (s t : State) : Prop
  | s1 (at_ : s.he.phase = .s1) (goes : t.he.phase = .s2)
  | s2 (at_ : s.he.phase = .s2) (goes : t.he.phase = .s3)
  | s3 (at_ : s.he.phase = .s3) (goes : t.he.phase = .l1)
  | l1 (at_ : s.he.phase = .l1) (goes : t.he.phase = .l2) (sh : t.hp.sh = s.hp.sh) (tcnt : t.hp.tcnt = s.hp.tcnt)
      (cfg : t.cfg = s.cfg) (rxf : t.hp.rxf = s.hp.rxf) (rxEn : t.hp.rxEn = s.hp.rxEn)
      (fed : s.hp.sh = .idle → s.hp.tcnt ≠ 0 → t.hp.txEn = true → t.hp.txf ≠ [])
  | l2 (at_ : s.he.phase = .l2) (goes : t.he.phase = .l3) (sh : t.hp.sh = s.hp.sh) (tcnt : t.hp.tcnt = s.hp.tcnt)
      (cfg : t.cfg = s.cfg) (txf : t.hp.txf = s.hp.txf) (txEn : t.hp.txEn = s.hp.txEn)
      (room : t.hp.rxEn = true → t.hp.rxf.length < t.cfg.rxd)
  | again (at_ : s.he.phase = .l3) (count : s.hp.tcnt ≠ 0) (goes : t.he.phase = .l1) (hp : t.hp = s.hp)
      (cfg : t.cfg = s.cfg)
  | leave (at_ : s.he.phase = .l3) (count : s.hp.tcnt = 0) (goes : t.he.phase = .d)

/-- The steps from S3 on keep it: the loop, and D, ask only that the FIFOs keep up with the count. -/
theorem State.Operating.inLoop {s u : State} (hs : s.Operating) (hq : s.he.phase ≠ .s1)
    (hu : u.he.phase.looping = true ∨ u.he.phase = .d) (hcfg : u.cfg = s.cfg) (hprog : u.prog = s.prog) (hpc : u.pc = s.pc)
    (henv : u.env = s.env) (hmode : u.he.mode = s.he.mode) (hlen : u.he.len = s.he.len) (htx : u.hp.txEn = s.hp.txEn)
    (hrx : u.hp.rxEn = s.hp.rxEn) (hfits : u.hp.rxf.length ≤ s.cfg.rxd)
    (hfed : u.he.phase.looping = true → s.he.mode.txOn = true → u.startsLeft ≤ (s.he.len - u.he.w) + u.hp.txf.length) :
    u.Operating := by
  have hph : u.he.phase ≠ .s1 ∧ u.he.phase ≠ .s2 ∧ u.he.phase ≠ .s3 ∧ u.he.phase.running = true := by
    obtain h | h := hu
    · cases hp : u.he.phase <;> simp [hp, Phase.looping, Phase.running] at h ⊢
    · simp [h, Phase.running]
  refine ⟨by rw [hcfg, hmode]; exact hs.txd, by rw [hcfg, hmode]; exact hs.rxd, hcfg ▸ hfits, henv ▸ hs.live, hph.2.2.2, ?_, by tauto, by tauto, fun _ => ?_,
    hlen ▸ hs.len, by tauto, ?_⟩
  · rw [hmode, show u.hostIssue = s.hostIssue by simp only [State.hostIssue, hprog, hpc]]; exact hs.issue
  · rw [htx, hrx, hmode]; exact hs.paths hq
  · rw [hmode, hlen]; exact hfed

/-- The host program's own step in an operation: D ends it, any other keeps it going. -/
theorem State.Operating.host {p : Pick} {s t : State} (hs : s.Operating) (h : stepWith p s = .next t)
    (hp : p.agent = .hostProgram) :
    (s.he.phase = .d ∧ t.he.phase = .idle ∧ t.pc = s.pc + 1 ∧ t.res = 0 ∧ t.resValid = true) ∨
    (t.Operating ∧ t.pc = s.pc ∧ PhaseStep s t) := by
  rw [stepWith_eq, hp] at h
  obtain ⟨i, tt, r, len, hi, he⟩ := hs.issue
  have hi' : (s.after p.event []).hostIssue = s.hostIssue := rfl
  simp only [runAgent, hi', hi, runIssue, exec_engine he] at h
  have hr := hs.running
  have hiss : ∀ u : State, u.prog = s.prog → u.pc = s.pc → u.he.mode = s.he.mode →
      ∃ i t r len, u.hostIssue = .command i ∧ i.engine? = some (u.he.mode, t, r, len) := by
    intro u h1 h2 h3
    refine ⟨i, tt, r, len, ?_, by rw [h3]; exact he⟩
    rw [← hi]; simp only [State.hostIssue, h1, h2]
  obtain ⟨hq, h⟩ | ⟨hq, h⟩ | ⟨hq, h⟩ | ⟨hq, h⟩ | ⟨hq, h⟩ | ⟨hq, h⟩ | ⟨hq, h⟩ | ⟨hq, h⟩ := engineStep_cases h
  · have hq : s.he.phase = .idle ∨ s.he.phase = .s0 := hq
    obtain hq | hq := hq <;> simp [hq, Phase.running] at hr
  · right
    have hq : s.he.phase = .s1 := hq
    rw [h, engineS1_eq]
    refine ⟨⟨hs.txd, hs.rxd, hs.fits, hs.live, rfl, hiss _ rfl rfl rfl, fun _ => hs.quiet (.inl hq),
      fun _ => hs.empty (.inl hq), fun _ => ⟨rfl, rfl⟩, hs.len, by simp, by simp [Phase.looping]⟩, rfl, .s1 hq rfl⟩
  · right
    have hq : s.he.phase = .s2 := hq
    have hpth := hs.paths (by simp [hq])
    have hempty := hs.empty (.inr hq)
    have hquiet := hs.quiet (.inr (.inl hq))
    obtain ⟨hon, rfl⟩ | ⟨b, hon, -, rfl⟩ := engineS2_cases h
    · have hon : s.he.mode.txOn = false := hon
      refine ⟨⟨hs.txd, hs.rxd, hs.fits, hs.live, rfl, hiss _ rfl rfl rfl, fun _ => hquiet, by simp, fun _ => hpth,
        hs.len, ?_, by simp [Phase.looping]⟩, rfl, .s2 hq rfl⟩
      intro _ h; have h : s.he.mode.txOn = true := h; rw [hon] at h; cases h
    · refine ⟨⟨hs.txd, hs.rxd, hs.fits, hs.live, rfl, hiss _ rfl rfl rfl, fun _ => hquiet, by simp, fun _ => hpth,
        hs.len, ?_, by simp [Phase.looping]⟩, rfl, .s2 hq rfl⟩
      intro _ _
      have := hs.txd hon
      refine ⟨rfl, ?_⟩
      have hsp : (s.after p.event []).hostTxSpace = true := by simp [State.hostTxSpace, State.after, hempty]; omega
      have e : (s.after p.event []).hp.txf = [] := hempty
      simp [hsp, e]
  · right
    have hq : s.he.phase = .s3 := hq
    have hpth := hs.paths (by simp [hq])
    have hquiet := hs.quiet (.inr (.inr hq))
    have hprim := hs.primed hq
    rw [h, engineS3_eq]
    refine ⟨hs.inLoop (by simp [hq]) (.inl rfl) rfl rfl rfl rfl rfl rfl rfl rfl hs.fits ?_, rfl, .s3 hq rfl⟩
    intro _ hon
    obtain ⟨hw, hl⟩ := hprim hon
    have hlen := hs.len
    have h1 : (s.after p.event []).loadedCount (BitVec.ofNat 8 (s.after p.event []).he.len) ≤ s.he.len := by
      simp only [State.loadedCount]
      exact Nat.le_trans (Nat.mod_le _ _) (by simp [State.after]; exact Nat.mod_le _ _)
    simp only [State.startsLeft]
    have e1 : (s.after p.event []).he.w = 1 := hw
    have e2 : (s.after p.event []).hp.txf.length = 1 := hl
    have e3 : (s.after p.event []).he.len = s.he.len := rfl
    rw [e1, e2]; omega
  · right
    have hq : s.he.phase = .l1 := hq
    have hpth := hs.paths (by simp [hq])
    have hfed := hs.fed (by simp [hq, Phase.looping])
    obtain ⟨hg, rfl⟩ | ⟨b, hon, hw, hsp, -, rfl⟩ := engineL1_cases h
    · refine ⟨hs.inLoop (by simp [hq]) (.inl rfl) rfl rfl rfl rfl rfl rfl rfl rfl hs.fits (fun _ => hfed), rfl,
        .l1 hq rfl rfl rfl rfl rfl rfl ?_⟩
      intro hid h0 hen htx
      have hen : s.hp.txEn = true := hen
      have htx : s.hp.txf = [] := htx
      rw [hpth.1] at hen
      have := hfed hen
      have h1 := hs.txd hen
      simp [State.startsLeft, hid, htx] at this
      have hlt : s.he.w < s.he.len := by omega
      have e1 : (s.after p.event []).hostTxSpace = true := by simp [State.hostTxSpace, State.after, htx]; omega
      have e2 : (s.after p.event []).he = s.he := rfl
      rw [e1, e2] at hg; simp [hen, hlt] at hg
    · refine ⟨hs.inLoop (by simp [hq]) (.inl rfl) rfl rfl rfl rfl rfl rfl rfl rfl hs.fits ?_, rfl,
        .l1 hq rfl rfl rfl rfl rfl rfl (by simp)⟩
      intro _ hon
      have := hfed hon
      have hw : s.he.w < s.he.len := hw
      have g : s.startsLeft ≤ (s.he.len - (s.he.w + 1)) + (s.hp.txf ++ [b]).length := by
        rw [List.length_append, List.length_singleton]; omega
      exact g
  · right
    have hq : s.he.phase = .l2 := hq
    have hpth := hs.paths (by simp [hq])
    have hfed := hs.fed (by simp [hq, Phase.looping])
    obtain ⟨u, hu, rfl⟩ := engineL2_cases h
    obtain ⟨rxf, r', rxb, rfl, hd⟩ := drain_frame hu
    have hshort : rxf.length ≤ s.hp.rxf.length := by
      obtain ⟨he', -⟩ | ⟨b, hb⟩ := hd
      · rw [he']; exact Nat.le_refl _
      · have hb : s.hp.rxf = b :: rxf := hb
        rw [hb]; simp
    refine ⟨hs.inLoop (by simp [hq]) (.inl rfl) rfl rfl rfl rfl rfl rfl rfl rfl (Nat.le_trans hshort hs.fits) (fun _ => hfed), rfl,
      .l2 hq rfl rfl rfl rfl rfl rfl ?_⟩
    · intro hen
      have hl := hs.fits
      have hen : s.hp.rxEn = true := hen
      rw [hpth.2] at hen
      have := hs.rxd hen
      show rxf.length < s.cfg.rxd
      obtain ⟨he', hoff⟩ | ⟨b, hb⟩ := hd
      · have hoff : s.he.mode.rxOn = false ∨ s.hp.rxf = [] := hoff
        rw [he']
        obtain h | h := hoff
        · rw [hen] at h; cases h
        · show s.hp.rxf.length < s.cfg.rxd
          rw [h]; exact this
      · have hb : s.hp.rxf = b :: rxf := hb
        rw [hb] at hl; simp at hl; omega
  · right
    have hq : s.he.phase = .l3 := hq
    have hpth := hs.paths (by simp [hq])
    have hfed := hs.fed (by simp [hq, Phase.looping])
    obtain ⟨h0, h'⟩ | ⟨h0, h'⟩ := engineL3_cases (s.after p.event []) <;> rw [h, h']
    · have h0 : s.hp.tcnt = 0 := by simpa [State.hostCountZero, State.after] using h0
      exact ⟨hs.inLoop (by simp [hq]) (.inr rfl) rfl rfl rfl rfl rfl rfl rfl rfl hs.fits (fun h => by cases h), rfl,
        .leave hq h0 rfl⟩
    · have h0 : s.hp.tcnt ≠ 0 := by simpa [State.hostCountZero, State.after] using h0
      exact ⟨hs.inLoop (by simp [hq]) (.inl rfl) rfl rfl rfl rfl rfl rfl rfl rfl hs.fits (fun _ => hfed), rfl,
        .again hq h0 rfl rfl rfl⟩
  · left
    have hq : s.he.phase = .d := hq
    obtain ⟨u, hu, rfl⟩ := engineD_cases h
    refine ⟨hq, rfl, ?_, rfl, rfl⟩
    obtain ⟨-, rfl⟩ | ⟨b, rest, -, -, hst⟩ := drain_cases hu
    · rfl
    · obtain ⟨-, rfl⟩ | ⟨-, -, rfl⟩ | ⟨n, -, -, -, rfl⟩ := store_cases hst <;> rfl

/-- In an operation the agent that moves has an enabled step. -/
theorem Run.agentEnabled (run : Run) {m : Nat} (h : (run.at_ m).Operating) :
    (run.at_ m).enabled (run.pick m).agent = true := by
  refine run.enabled m ?_
  have := h.enabled
  simp [State.anyEnabled, this]

theorem SameHost.exchange {s t : State} (h : SameHost s t) (hh : t.hp = s.hp) : t.exchangeSteps = s.exchangeSteps := by
  simp only [State.exchangeSteps, h.cfg, hh]

/-- A step of another agent, in an operation. -/
theorem Run.otherStep (run : Run) {m : Nat} (h : (run.at_ m).Operating) (hm : ¬run.moves m .hostProgram) :
    SameHost (run.at_ m) (run.at_ (m + 1)) ∧ (run.at_ (m + 1)).Operating ∧
    ((run.moves m .hostPeripheral ∧ (run.at_ (m + 1)).clientSteps = (run.at_ m).clientSteps ∧
        (run.at_ (m + 1)).exchangeSteps < (run.at_ m).exchangeSteps) ∨
     ((run.at_ (m + 1)).hp = (run.at_ m).hp ∧
        ((run.at_ (m + 1)).clientSteps < (run.at_ m).clientSteps ∨
          (run.at_ (m + 1)).clientSteps = (run.at_ m).clientSteps ∧ (run.at_ (m + 1)).eventSteps < (run.at_ m).eventSteps))) := by
  have hen := run.agentEnabled h
  obtain ⟨hh, hc⟩ := stepWith_cases (run.steps m) hen hm
  refine ⟨hh, h.other (run.steps m) hen hm, ?_⟩
  obtain ⟨ha, hst⟩ | ⟨hhp, -, hc⟩ | ⟨hhp, -, hc⟩ := hc
  · have hlt := hostPeripheralStep_exchangeSteps hst
    exact .inl ⟨ha, (hostPeripheralStep_cfg hst).2, hlt⟩
  · exact .inr ⟨hhp, .inl hc⟩
  · exact .inr ⟨hhp, .inr hc⟩

/-- In an operation the host program moves again, and until then no other agent changes its side: each has finitely many steps. -/
theorem Run.exists_host (run : Run) (m : Nat) (h : (run.at_ m).Operating) :
    ∃ k, m ≤ k ∧ run.moves k .hostProgram ∧ SameHost (run.at_ m) (run.at_ k) := by
  by_cases hm : run.moves m .hostProgram
  · exact ⟨m, Nat.le_refl m, hm, .refl _⟩
  · obtain ⟨hh, ho, hc⟩ := run.otherStep h hm
    have hx : (run.at_ (m + 1)).hp = (run.at_ m).hp → (run.at_ (m + 1)).exchangeSteps = (run.at_ m).exchangeSteps :=
      hh.exchange
    have : Prod.Lex (· < ·) (Prod.Lex (· < ·) (· < ·))
        ((run.at_ (m + 1)).clientSteps, (run.at_ (m + 1)).exchangeSteps, (run.at_ (m + 1)).eventSteps)
        ((run.at_ m).clientSteps, (run.at_ m).exchangeSteps, (run.at_ m).eventSteps) := by
      obtain ⟨-, hc, he⟩ | ⟨hhp, hc | ⟨hc, he⟩⟩ := hc
      · rw [hc]; exact .right _ (.left _ _ he)
      · exact .left _ _ hc
      · rw [hc, hx hhp]; exact .right _ (.right _ he)
    obtain ⟨k, hk, hmv, hs⟩ := run.exists_host (m + 1) ho
    exact ⟨k, by omega, hmv, hh.trans hs⟩
termination_by ((run.at_ m).clientSteps, (run.at_ m).exchangeSteps, (run.at_ m).eventSteps)
decreasing_by exact this

end Sys2Proof.Machine
end

