-- ==== Sys2Proof/Tests/Slice0.lean ====
section
/-! SUPPORT. Tests. Expected results are those of 95_test_vectors.md (the vector is named at each test) or are read from the encoding tables of 30_encoding.md. Then one witness theorem for each statement that has hypotheses. -/

set_option Elab.async false

namespace Sys2Proof.Tests

open Sys2Proof Sys2Proof.Machine

/-! ### Helpers -/

/-- The reset state of the reference sizing with other Host and Client peripheral contents. -/
def peri (hp : HostPeripheral → HostPeripheral) (cp : ClientPeripheral → ClientPeripheral) : State :=
  { State.reset with hp := hp State.reset.hp, cp := cp State.reset.cp }

/-- Reset with other Host peripheral contents. -/
def hostState (hp : HostPeripheral → HostPeripheral) : State := peri hp id

/-- Reset with other Client peripheral contents. -/
def clientState (cp : ClientPeripheral → ClientPeripheral) : State := peri id cp

/-- Reset with a capacity, cursors, a frame state and written bytes of the FrameBuffer. -/
def engineState (cap rc wc : Nat) (fs : FrameState) (buf : Memory) : State :=
  { State.reset with cfg := { Config.reference with cap := cap }, ce := { buf := buf, rc := rc, wc := wc, fs := fs } }

/-- The state with this agent picked for the next step. -/
def pick (a : Agent) (e : Event) (s : State) : State := { s with picks := [⟨a, e⟩] }

/-- A field of the next state. -/
def look {α : Type} (o : Host.Outcome State Fault Refusal) (f : State → α) : Option α :=
  match o with
  | .next t => some (f t)
  | .fault _ => none
  | .refused _ => none

/-- A host program of one command with a receive sequence of two written bytes. -/
def running (c : HostCmd) (he : HostEngine → HostEngine) (hp : HostPeripheral → HostPeripheral) : State :=
  { hostState hp with prog := [c], rxb := [⟨2, [(0, 0xEE), (1, 0xEE)]⟩], he := he State.reset.he }

/-! ### WellFormed refuses an ill-formed term -/

/-- R81: a Client command is not one of the host program (E-21), nor an environment command one of the client program (E-22). -/
theorem test_wf_stream : Instr.wfHost .cClrbuf none none = false ∧ Instr.wfClient .envSsa = false := by decide

/-- R88: `t = 1` with no TXB (E-23). -/
theorem test_wf_tx : Instr.wfHost (.exchange true false 3) none none = false := by decide

/-- R88: an RXB attached with `r = 0` (E-24). -/
theorem test_wf_rx : Instr.wfHost (.exchange false false 3) none (some 0) = false := by decide

/-- A well-formed command of each kind of attachment is accepted. -/
theorem test_wf_accepts :
    Instr.wfHost (.exchange true true 5) (some [1, 2, 3, 4, 5]) (some 0) = true ∧ Instr.wfHost .hTcz none none = true ∧
      Instr.wfClient (.ceRecv 7) = true := by decide

/-! ### Decoding: words written out from R80 to R87 -/

/-- R84: unit 0000. -/
theorem test_decode_hostPeripheral :
    decode 0b0000_0000_0000_0000#16 = .ok .hClrbuf ∧
    decode 0b0000_0001_0000_0010#16 = .ok (.hSetdir true false) ∧
    decode 0b0000_0001_0000_0001#16 = .ok (.hSetdir false true) ∧
    decode 0b0000_0010_1111_1111#16 = .ok (.hLdtcnt 255) ∧
    decode 0b0000_0011_0000_0000#16 = .ok .hTcz ∧
    decode 0b0000_0100_0000_0000#16 = .ok .hTxspc ∧
    decode 0b0000_0101_0000_0000#16 = .ok .hRxdat ∧
    decode 0b0000_0110_1010_0101#16 = .ok (.hWrtx 0xA5) ∧
    decode 0b0000_0111_0000_0000#16 = .ok .hRdrx := by decide +kernel

/-- R85: unit 0001, `k`, `t`, `r`, `len`. -/
theorem test_decode_hostEngine :
    decode 0b0001_0011_0000_0101#16 = .ok (.exchange true true 5) ∧
    decode 0b0001_0010_0000_0011#16 = .ok (.exchange true false 3) ∧
    decode 0b0001_0001_0000_0011#16 = .ok (.exchange false true 3) ∧
    decode 0b0001_0000_0000_0000#16 = .ok (.exchange false false 0) ∧
    decode 0b0001_0110_0000_0101#16 = .ok (.send true 5) ∧
    decode 0b0001_1001_0000_0100#16 = .ok (.receive true 4) := by decide +kernel

/-- R86: unit 0010. -/
theorem test_decode_clientPeripheral :
    decode 0b0010_0000_0000_0000#16 = .ok .cClrbuf ∧
    decode 0b0010_0001_0000_0000#16 = .ok .cSof ∧
    decode 0b0010_0010_0000_0000#16 = .ok .cEof ∧
    decode 0b0010_0011_0000_0000#16 = .ok .cAcksof ∧
    decode 0b0010_0100_0000_0000#16 = .ok .cAckeof ∧
    decode 0b0010_0101_0000_0000#16 = .ok .cRxdat ∧
    decode 0b0010_0110_0000_0000#16 = .ok .cTxspc ∧
    decode 0b0010_0111_0001_0001#16 = .ok (.cWrtx 0x11) ∧
    decode 0b0010_1000_0000_0000#16 = .ok .cRdrx := by decide +kernel

/-- R87: unit 0011. -/
theorem test_decode_clientEngine :
    decode 0b0011_0000_0000_0000#16 = .ok .ceInit ∧
    decode 0b0011_0001_0000_0000#16 = .ok .ceStart ∧
    decode 0b0011_0010_0000_0000#16 = .ok .ceStop ∧
    decode 0b0011_0011_0111_1111#16 = .ok (.ceRecv 0x7F) ∧
    decode 0b0011_0100_0000_0000#16 = .ok .ceReq ∧
    decode 0b0011_0101_0000_0000#16 = .ok .ceDispatch := by decide +kernel

/-- R87: unit 0100. -/
theorem test_decode_environment :
    decode 0b0100_0000_0000_0000#16 = .ok .envSsa ∧
    decode 0b0100_0001_0000_0000#16 = .ok .envSsd ∧
    decode 0b0100_0010_1111_1111#16 = .ok (.envLine 0xFF) ∧
    decode 0b0100_0011_0000_0000#16 = .ok .envFloat ∧
    decode 0b0100_0100_0000_0000#16 = .ok .envStall ∧
    decode 0b0100_0101_0000_0000#16 = .ok .envUnstall := by decide +kernel

/-- R88: the reserved words of vectors E-3, E-5, E-6, E-10, E-12, E-13, E-15, E-17, E-19, E-20. -/
theorem test_decode_reserved :
    decode 0x0104 = .error .operand ∧ decode 0x0301 = .error .operand ∧ decode 0x0800 = .error .operation ∧
    decode 0x1500 = .error .engineKind ∧ decode 0x1A04 = .error .engineKind ∧ decode 0x1C00 = .error .engineKind ∧
    decode 0x2900 = .error .operation ∧ decode 0x3600 = .error .operation ∧ decode 0x4600 = .error .operation ∧
    decode 0x5000 = .error .unit ∧ decode 0xFFFF = .error .unit := by decide +kernel

/-- The decoder as the opcode table numbers the bits. -/
theorem test_decodeTableWord :
    decodeTableWord 16 0x1305 = some (.exchange true true 5) ∧ decodeTableWord 16 0x1C00 = none ∧
      decodeTableWord 16 0x42FF = some (.envLine 0xFF) := by decide +kernel

/-- The encodings of programs P2 and P3 (R90, R91). -/
theorem test_pseudo :
    (framedExchange 3 (some [0x11, 0x22, 0x33]) (some 0)).map HostCmd.word = [0x4000, 0x1303, 0x4100] ∧
    (preloadCommands [0xA5, 0x00]).map encode = [0x3000, 0x33A5, 0x3300, 0x3200] ∧
    (pollCommands 2).map encode = [0x3500, 0x3500] := by decide +kernel

/-! ### Reset, fetch and step -/

/-- The memory of the reset state is in canonical form. -/
theorem test_reset_memory_wf : State.reset.ce.buf.wf State.reset.cfg.cap = true ∧ State.reset.rxb = [] := by decide

/-- R34, D26: a slot that `BUF_INIT` fixes reads so after every reset; another slot is a draw of its own at each reset. -/
theorem test_reset_bufInit :
    let s := State.resetWith { Config.reference with bufInit := [(1, 0xB1)] } [] [] []
    s.byteAt .buf 1 = 0xB1 ∧ (runHandler .rx { s with cp := { s.cp with rxf := [7] } }).afterReset.byteAt .buf 1 = 0xB1 ∧
      s.byteAt .buf 0 = Config.bufByte 0 0 ∧ s.afterReset.byteAt .buf 0 = Config.bufByte 1 0 := ⟨rfl, rfl, rfl, rfl⟩

/-- A placed host word runs as the next step: `H.LDTCNT 0` at reset (H-6). -/
theorem test_withFetchWord_host :
    look (step (State.reset.withFetchWord 16 0x0200)) (fun t => (t.hp.tcnt, t.flt, t.pc)) = some (0, 0x040, 1) := by
  decide +kernel

/-- A placed client word runs as the next step: `C.SOF?` at reset. -/
theorem test_withFetchWord_client :
    look (step (State.reset.withFetchWord 16 0x2100)) (fun t => (t.res, t.resValid, t.cpc)) = some (0, true, 1) := by
  decide +kernel

/-- A placed engine word starts its operation, with operands large enough for any length (R145). -/
theorem test_withFetchWord_engine :
    look (step (State.reset.withFetchWord 16 0x13FF)) (fun t => (t.he.phase, t.he.mode, t.he.len, t.refused)) =
      some (.s1, .exchange, 255, none) := by
  decide +kernel

/-- E-21: a Client word in the host program sets the mark and `PROG.pc` stays. -/
theorem test_wrong_unit_refused :
    look (step (pick .hostProgram .rx { State.reset with prog := [⟨0x2000, none, none⟩] })) (fun t => (t.refused, t.pc)) =
      some (some .reservedEncoding, 0) := by decide +kernel

/-- E-23, E-24: a missing attachment, and one too many, are refused. -/
theorem test_attachment_refused :
    look (step (pick .hostProgram .rx { State.reset with prog := [⟨0x1203, none, none⟩] })) State.refused =
      some (some .badOperand) ∧
    look (step (pick .hostProgram .rx { State.reset with prog := [⟨0x1003, none, some 0⟩], rxb := [⟨3, []⟩] }))
      (fun t => (t.refused, t.pc)) = some (some .badOperand, 0) := by decide +kernel

/-! ### Host peripheral commands (section 2.2) -/

/-- H-1. -/
theorem test_hClrbuf :
    look (exec .hClrbuf (hostState fun h => { h with txf := [0x11], rxf := [0x22, 0x33] }))
      (fun t => (t.hp.txf, t.hp.rxf, t.flt)) = some ([], [], 0) := by decide

/-- H-2. -/
theorem test_hClrbuf_busy :
    look (exec .hClrbuf (hostState fun h => { h with txf := [0x55], sh := .busy 0x44 }))
      (fun t => (t.hp.txf, t.hp.sh, t.flt)) = some ([], .busy 0x44, 0x010) := by decide

/-- H-3. -/
theorem test_hSetdir :
    look (exec (.hSetdir true false) State.reset) (fun t => (t.hp.txEn, t.hp.rxEn, t.flt)) = some (true, false, 0) := by
  decide

/-- H-4. -/
theorem test_hSetdir_active :
    look (exec (.hSetdir false false) (hostState fun h => { h with tcnt := 3 }))
      (fun t => (t.hp.txEn, t.hp.rxEn, t.flt)) = some (false, false, 0x020) := by decide

/-- H-7: unprimed. -/
theorem test_hLdtcnt_unprimed :
    look (exec (.hLdtcnt 3) State.reset) (fun t => (t.hp.tcnt, t.flt)) = some (3, 0x004) := by decide

/-- X-4: two causes in one step. -/
theorem test_hLdtcnt_two_causes :
    look (exec (.hLdtcnt 0) (hostState fun h => { h with sh := .busy 0x44 })) (fun t => (t.hp.tcnt, t.flt)) =
      some (0, 0x048) := by decide

/-- H-10, H-11. -/
theorem test_hTcz :
    look (exec .hTcz State.reset) State.res = some 1 ∧
    look (exec .hTcz (hostState fun h => { h with tcnt := 1 })) State.res = some 0 := by decide

/-- H-12. -/
theorem test_hTxspc :
    look (exec .hTxspc (hostState fun h => { h with txf := [0x00] })) State.res = some 1 ∧
    look (exec .hTxspc (hostState fun h => { h with txf := [0x00, 0x7F] })) State.res = some 0 := by decide

/-- H-13. -/
theorem test_hRxdat :
    look (exec .hRxdat State.reset) State.res = some 0 ∧
    look (exec .hRxdat (hostState fun h => { h with rxf := [0xA5] })) State.res = some 1 := by decide

/-- H-14. -/
theorem test_hWrtx : look (exec (.hWrtx 0xA5) State.reset) (fun t => t.hp.txf) = some [0xA5] := by decide

/-- H-15. -/
theorem test_hWrtx_full :
    look (exec (.hWrtx 0x03) (hostState fun h => { h with txf := [0x01, 0x02] })) (fun t => (t.hp.txf, t.flt)) =
      some ([0x01, 0x02], 0x001) := by decide

/-- H-16. -/
theorem test_hRdrx :
    look (exec .hRdrx (hostState fun h => { h with rxf := [0xA5, 0x00] })) (fun t => (t.res, t.hp.rxf)) =
      some (0xA5, [0x00]) := by decide

/-- H-17: the value is a draw. -/
theorem test_hRdrx_empty :
    look (exec .hRdrx State.reset) (fun t => (t.res, t.draws, t.flt)) = some (Config.freeByte 0, 1, 0x002) := rfl

/-! ### Byte steps and the wire (section 2.3) -/

/-- The start of HS-1. -/
def hs1 : State := pick .hostPeripheral .rx (hostState fun h => { h with tcnt := 2, txf := [0xA5] })

/-- HS-1, and HS-2 with the other decrement. -/
theorem test_hsStart :
    look (step hs1) (fun t => (t.hp.sh, t.hp.txf, t.hp.tcnt)) = some (.busy 0xA5, [], 2) ∧
    look (step { hs1 with cfg := { hs1.cfg with tcntDec := .atStart } }) (fun t => (t.hp.sh, t.hp.tcnt)) =
      some (.busy 0xA5, 1) := by decide +kernel

/-- HS-5: with the transmit path disabled FILL is shifted and the FIFO keeps its byte. -/
theorem test_hsStart_fill :
    look (step (pick .hostPeripheral .rx (hostState fun h => { h with tcnt := 1, txEn := false, txf := [0x77] })))
      (fun t => (t.hp.sh, t.hp.txf)) = some (.busy 0x00, [0x77]) := by decide +kernel

/-- HS-3, HS-4, HS-8, HS-9: not enabled. -/
theorem test_hs_gated :
    (hostState fun h => { h with tcnt := 2 }).enabled .hostPeripheral = false ∧
    (hostState fun h => { h with tcnt := 2, txf := [1], rxf := [2, 3] }).enabled .hostPeripheral = false ∧
    ({ hs1 with env := { hs1.env with stalled := true } } : State).enabled .hostPeripheral = false ∧
    (hostState fun h => { h with txf := [0xA5] }).enabled .hostPeripheral = false := by decide +kernel

/-- HS-6, HS-7. -/
theorem test_hsComplete :
    look (step (pick .hostPeripheral .rx
        { hostState (fun h => { h with tcnt := 2, sh := .busy 0xA5 }) with env := ⟨.held 0xFF, false⟩ }))
      (fun t => (t.hp.rxf, t.hp.tcnt, t.hp.sh)) = some ([0xFF], 1, .idle) ∧
    look (step (pick .hostPeripheral .rx
        { hostState (fun h => { h with tcnt := 2, sh := .busy 0xA5, rxEn := false }) with env := ⟨.held 0xFF, false⟩ }))
      (fun t => (t.hp.rxf, t.hp.tcnt)) = some ([], 1) := by decide +kernel

/-- HS-10, the latch. -/
theorem test_hs10_latch :
    look (step (pick .hostPeripheral .rx
        (peri (fun h => { h with tcnt := 1, txf := [0x5A] }) (fun c => { c with ss := true, txf := [0xC3] }))))
      (fun t => (t.cp.sh, t.cp.txf)) = some (.latched 0xC3, []) := by decide +kernel

/-- HS-10, the capture. -/
theorem test_hs10_capture :
    look (step (pick .hostPeripheral .rx
        (peri (fun h => { h with tcnt := 1, sh := .busy 0x5A }) (fun c => { c with ss := true, sh := .latched 0xC3 }))))
      (fun t => (t.cp.rxf, t.hp.rxf, t.cp.sh, t.hp.tcnt)) = some ([0x5A], [0xC3], .idle, 0) := by decide +kernel

/-- HS-11: the underflow. -/
theorem test_hs11_underflow :
    look (step (pick .hostPeripheral .rx
        (peri (fun h => { h with tcnt := 1, txf := [0x5A] }) (fun c => { c with ss := true }))))
      (fun t => (t.cp.sh, t.flt)) = some (.latched (Config.freeByte 0), 0x400) := rfl

/-- HS-12: the overflow. -/
theorem test_hs12_overflow :
    look (step (pick .hostPeripheral .rx
        (peri (fun h => { h with tcnt := 1, sh := .busy 0x5A })
          (fun c => { c with ss := true, sh := .latched 0xC3, rxf := [0x01, 0x02] }))))
      (fun t => (t.cp.rxf, t.flt, t.hp.rxf)) = some ([0x01, 0x02], 0x200, [0xC3]) := by decide +kernel

/-! ### Host engine (section 2.4), one step each -/

/-- HE-1. -/
theorem test_exchange_length_zero :
    look (exec (.exchange false false 0) (running (.exchange 0 none none) id (fun h => { h with txf := [0x5A] })))
      (fun t => (t.res, t.hp.txf, t.pc, t.he.phase)) = some (1, [0x5A], 1, .idle) := by decide +kernel

/-- Log 7: a length above a `LEN_MAX` of 2 returns `InvalidLength`; the length 2 starts. -/
theorem test_length_above_max :
    let s (len : Byte) : State := { running (.send len none) id id with cfg := { Config.reference with lenMax := 2 } }
    look (exec (.send false 3) (s 3)) (fun t => (t.res, t.he.phase, t.pc)) = some (1, .idle, 1) ∧
      look (exec (.send false 2) (s 2)) (fun t => (t.he.phase, t.pc)) = some (.s1, 0) := by decide +kernel

/-- HE-2. -/
theorem test_exchange_short_operand :
    look (exec (.exchange true false 3) (running (.exchange 3 (some [1, 2]) none) id id))
      (fun t => (t.refused, t.pc, t.flt)) = some (some .badOperand, 0, 0) := by decide +kernel

/-- HE-5, S0 and S1 of `SEND`: the stale byte is cleared, the receive path disabled. -/
theorem test_send_start :
    look (exec (.send true 2) (running (.send 2 (some [0x11, 0x22])) id (fun h => { h with rxf := [0x99] })))
      (fun t => (t.hp.rxf, t.he.phase, t.he.tx)) = some ([], .s1, some [0x11, 0x22]) ∧
    look (exec (.send true 2) (running (.send 2 (some [0x11, 0x22]))
        (fun e => { e with phase := .s1, mode := .send, len := 2 }) id))
      (fun t => (t.hp.txEn, t.hp.rxEn)) = some (true, false) := by decide +kernel

/-- R148: L1 of `SEND` loads the byte at the write index. -/
theorem test_send_refill :
    look (exec (.send true 2) (running (.send 2 (some [0x11, 0x22]))
        (fun e => { e with phase := .l1, mode := .send, len := 2, w := 1, tx := some [0x11, 0x22] }) id))
      (fun t => (t.hp.txf, t.he.w, t.he.phase)) = some ([0x22], 2, .l2) := by decide +kernel

/-- HE-6, S1 of `RECEIVE`; and L2 stores a byte at the read index. -/
theorem test_receive_steps :
    look (exec (.receive true 2) (running (.receive 2 (some 0))
        (fun e => { e with phase := .s1, mode := .receive, len := 2 }) id))
      (fun t => (t.hp.txEn, t.hp.rxEn)) = some (false, true) ∧
    look (exec (.receive true 2) (running (.receive 2 (some 0))
        (fun e => { e with phase := .l2, mode := .receive, len := 2, r := 1, rx := some 0 })
        (fun h => { h with rxf := [0x0F] })))
      (fun t => (t.byteAt (.rxb 0) 0, t.byteAt (.rxb 0) 1, t.he.r)) = some (0xEE, 0x0F, 2) := by decide +kernel

/-- HE-8: the trailing drain of step D. -/
theorem test_exchange_trailing_drain :
    look (exec (.exchange true true 1) (running (.exchange 1 (some [0x5A]) (some 0))
        (fun e => { e with phase := .d, len := 1, w := 1, tx := some [0x5A], rx := some 0 })
        (fun h => { h with rxf := [0xC3] })))
      (fun t => (t.byteAt (.rxb 0) 0, t.res, t.he.phase, t.pc)) = some (0xC3, 0, .idle, 1) := by decide +kernel

/-- HE-9: with two bytes at D one is left in the FIFO and the last slot keeps its byte. -/
theorem test_receive_drain_once :
    look (exec (.receive true 2) (running (.receive 2 (some 0))
        (fun e => { e with phase := .d, mode := .receive, len := 2, rx := some 0 })
        (fun h => { h with rxf := [0xFF, 0xFF] })))
      (fun t => (t.byteAt (.rxb 0) 0, t.byteAt (.rxb 0) 1, t.hp.rxf, t.res)) = some (0xFF, 0xEE, [0xFF], 0) := by
  decide +kernel

/-! ### Client peripheral and environment commands (section 2.5) -/

/-- C-1. -/
theorem test_cClrbuf :
    look (exec .cClrbuf
        (clientState fun c => { c with txf := [0x7F], rxf := [0xA5], sh := .latched 0, ss := true, sof := true }))
      (fun t => (t.cp.txf, t.cp.rxf, t.cp.sh, t.cp.sof)) = some ([], [], .idle, true) := by decide

/-- C-2. -/
theorem test_cSof :
    look (exec .cSof (clientState fun c => { c with ss := true, sof := true })) (fun t => (t.res, t.cp.sof)) =
      some (1, true) ∧
    look (exec .cAcksof (clientState fun c => { c with ss := true, sof := true, eof := true }))
      (fun t => (t.cp.sof, t.cp.eof, t.cp.ss)) = some (false, true, true) := by decide

/-- C-3. -/
theorem test_cEof :
    look (exec .cEof (clientState fun c => { c with eof := true })) (fun t => (t.res, t.cp.eof)) = some (1, true) ∧
    look (exec .cAckeof (clientState fun c => { c with eof := true, sof := true })) (fun t => (t.cp.eof, t.cp.sof)) =
      some (false, true) := by decide

/-- C-5. -/
theorem test_cRxdat :
    look (exec .cRxdat State.reset) State.res = some 0 ∧
    look (exec .cRxdat (clientState fun c => { c with rxf := [0x11] })) State.res = some 1 := by decide

/-- C-6. -/
theorem test_cTxspc :
    look (exec .cTxspc (clientState fun c => { c with txf := [0xA5] })) State.res = some 1 ∧
    look (exec .cTxspc (clientState fun c => { c with txf := [0xA5, 0x00] })) State.res = some 0 := by decide

/-- C-7, C-8. -/
theorem test_cWrtx :
    look (exec (.cWrtx 0x00) (clientState fun c => { c with txf := [0xA5] })) (fun t => t.cp.txf) =
      some [0xA5, 0x00] ∧
    look (exec (.cWrtx 0x11) (clientState fun c => { c with txf := [0xA5, 0x00] })) (fun t => (t.cp.txf, t.flt)) =
      some ([0xA5, 0x00], 0x080) := by decide

/-- C-9. -/
theorem test_cRdrx :
    look (exec .cRdrx (clientState fun c => { c with rxf := [0x11, 0x22] })) (fun t => (t.res, t.cp.rxf)) =
      some (0x11, [0x22]) := by decide

/-- C-10. -/
theorem test_cRdrx_empty :
    look (exec .cRdrx State.reset) (fun t => (t.res, t.flt)) = some (Config.freeByte 0, 0x100) := rfl

/-- EN-1, EN-2. -/
theorem test_envSsa :
    look (exec .envSsa State.reset) (fun t => (t.cp.ss, t.cp.sof)) = some (true, true) ∧
    look (exec .envSsa (clientState fun c => { c with ss := true })) (fun t => (t.cp.ss, t.cp.sof)) =
      some (true, false) := by decide

/-- EN-3, EN-4. -/
theorem test_envSsd :
    look (exec .envSsd (clientState fun c => { c with ss := true, sh := .latched 0xC3 }))
      (fun t => (t.cp.ss, t.cp.eof, t.cp.sh)) = some (false, true, .idle) ∧
    look (exec .envSsd State.reset) (fun t => (t.cp.ss, t.cp.eof)) = some (false, false) := by decide

/-- EN-6. -/
theorem test_envLine :
    look (exec (.envLine 0xFF) State.reset) (fun t => t.env.line) = some (.held 0xFF) ∧
    look (exec .envFloat { State.reset with env := ⟨.held 0xFF, false⟩ }) (fun t => t.env.line) = some .float := by
  decide

/-- EN-7. -/
theorem test_envStall :
    look (exec .envStall State.reset) (fun t => t.env.stalled) = some true ∧
    look (exec .envUnstall { State.reset with env := ⟨.float, true⟩ }) (fun t => t.env.stalled) = some false := by
  decide

/-! ### Client engine and dispatcher (section 2.6) -/

/-- CE-1. -/
theorem test_ceInit :
    look (exec .ceInit (engineState 64 5 7 .active [(0, 0xA5)])) (fun t => t.ce) =
      some { buf := [(0, 0xA5)], rc := 0, wc := 0, fs := .idle } := by decide

/-- CE-2: the overrun stays recorded. -/
theorem test_ceStart :
    look (exec .ceStart { engineState 4 4 4 .idle [] with flt := 0x800 })
      (fun t => (t.ce.rc, t.ce.wc, t.ce.fs, t.flt)) = some (0, 0, .active, 0x800) := by decide

/-- CE-4. -/
theorem test_ceStop :
    look (exec .ceStop { engineState 64 3 5 .active [(0, 0xA5)] with
        cp := { State.reset.cp with txf := [0x11, 0x22], rxf := [0x33] } })
      (fun t => (t.cp.txf, t.cp.rxf, t.ce)) = some ([], [], { buf := [(0, 0xA5)], rc := 0, wc := 0, fs := .idle }) := by
  decide

/-- CE-7: the last slot. -/
theorem test_ceRecv :
    look (exec (.ceRecv 0x44) (engineState 4 3 0 .active [])) (fun t => (t.byteAt .buf 3, t.ce.rc, t.flt)) =
      some (0x44, 4, 0) := by decide

/-- CE-8: the overrun. -/
theorem test_ceRecv_overrun :
    look (exec (.ceRecv 0x55) (engineState 4 4 0 .active [(3, 0x44)])) (fun t => (t.ce.buf, t.ce.rc, t.flt)) =
      some ([(3, 0x44)], 4, 0x800) := by decide

/-- CE-11: a byte this frame never received. -/
theorem test_ceReq :
    look (exec .ceReq (engineState 64 1 5 .active [(5, 0xB5)])) (fun t => (t.res, t.ce.wc)) = some (0xB5, 6) := by
  decide

/-- CE-10: past the buffer. -/
theorem test_ceReq_exhausted :
    look (exec .ceReq (engineState 4 0 4 .active [])) (fun t => (t.res, t.ce.wc, t.flt)) = some (0x00, 4, 0) := by
  decide

/-- DS-1, DS-4. -/
theorem test_dispatch :
    look (step (pick .dispatcher .start (clientState fun c => { c with sof := true })))
      (fun t => (t.cp.sof, t.ce.fs)) = some (false, .active) ∧
    look (step (pick .dispatcher .rx (clientState fun c => { c with rxf := [0x11] })))
      (fun t => (t.byteAt .buf 0, t.ce.rc, t.cp.rxf)) = some (0x11, 1, []) := by decide +kernel

/-- DS-5: both orders are admissible. -/
theorem test_dispatch_order :
    look (step (pick .dispatcher .rx { engineState 64 2 0 .active [] with cp := { State.reset.cp with eof := true, rxf := [0x22] } }))
      (fun t => (t.byteAt .buf 2, t.cp.eof)) = some (0x22, true) ∧
    look (step (pick .dispatcher .stop { engineState 64 2 0 .active [] with cp := { State.reset.cp with eof := true, rxf := [0x22] } }))
      (fun t => (t.cp.rxf, t.cp.eof, t.ce.buf)) = some ([], false, []) := by decide +kernel

/-- DS-2, DS-3: the transmit handler; with nothing pending no step. -/
theorem test_dispatch_tx :
    look (step (pick .dispatcher .tx (engineState 64 0 0 .active [(0, 0xA5)]))) (fun t => (t.cp.txf, t.ce.wc)) =
      some ([0xA5], 1) ∧ State.reset.anyPending = false := by decide +kernel

/-- DS-7 and the example of R232. -/
theorem test_ceDispatch :
    look (exec .ceDispatch State.reset) (fun t => (t.cpc, t.cp, t.ce)) = some (1, State.reset.cp, State.reset.ce) ∧
    look (exec .ceDispatch (clientState fun c => { c with sof := true })) (fun t => (t.cp.sof, t.ce.fs)) =
      some (false, .active) := by decide +kernel

/-- R232, R305: a stop that `CE.DISPATCH` handles is a stop handled; another client command handles none. -/
theorem test_handledBy :
    let s : State := { clientState (fun c => { c with eof := true }) with cprog := [0x3500, 0x3000], choice := .stop }
    s.handledBy .clientProgram = some .stop ∧ s.handledBy .dispatcher = some .stop ∧
      ({ s with cpc := 1 } : State).handledBy .clientProgram = none := by decide +kernel

/-! ### Witnesses: each hypothesis of a statement is met by a concrete state, each clause at a boundary -/

/-- The state with this agent picked twice. -/
def pick2 (a : Agent) (s : State) : State := { s with picks := [⟨a, .rx⟩, ⟨a, .tx⟩] }

/-- A `SEND 2` at L1: the first byte primed, the count loaded, nothing in flight. -/
def sendMid : State :=
  pick .hostProgram .rx
    (running (.send 2 (some [0x11, 0x22]))
      (fun e => { e with phase := .l1, mode := .send, len := 2, w := 1, tx := some [0x11, 0x22] })
      (fun h => { h with tcnt := 2, txf := [0x11], rxEn := false }))

/-- A `RECEIVE 2` about to drain its last byte at D. -/
def receiveEnd (rxf : List Byte) : State :=
  pick .hostProgram .rx
    (running (.receive 2 (some 0))
      (fun e => { e with phase := .d, mode := .receive, len := 2, r := 1, rx := some 0 })
      (fun h => { h with rxf := rxf, txEn := false }))

/-- A frame in which the Client has latched one byte and is shifting it. -/
def midFrame : State :=
  { peri (fun h => { h with tcnt := 2, sh := .busy 0x11 })
      (fun c => { c with ss := true, txf := [0xB1, 0xB2], sh := .latched 0xB0 }) with
    ce := { buf := [(0, 0xB0), (1, 0xB1), (2, 0xB2)], rc := 0, wc := 3, fs := .active }
    picks := [⟨.hostPeripheral, .rx⟩] }

theorem witness_EncodeInvertsDecode : decode 0x1305 = .ok (.exchange true true 5) := by decide +kernel

theorem witness_MatchingRowDecodes :
    (∃ row ∈ opcodeRows, row.hits 0x1305 = true) ∧ ∀ row ∈ opcodeRows, row.hits 0x5000 = false := by decide +kernel

/-- Each clause of the reserved words at its boundary, and the last word before it that is a command. -/
theorem witness_ReservedWordsAreTheseCases :
    [0x4500, 0x5000, 0xFFFF, 0x0700, 0x0800, 0x2800, 0x2900, 0x3500, 0x3600, 0x4600, 0x0103, 0x0104, 0x0001, 0x2801,
        0x3501, 0x4501, 0x16FF, 0x1500, 0x19FF, 0x1A00, 0x13FF, 0x1C00].map
      (fun w => (decode w).toOption.isSome) =
    [true, false, false, true, false, true, false, true, false, false, true, false, false, false,
      false, false, true, false, true, false, true, false] := by decide +kernel

theorem witness_ResetLeavesQuietBlock :
    Memory.lookup ({ Config.reference with bufInit := [(63, 0xBF)] } : Config).bufInit 63 = some 0xBF ∧
      Config.reference.clientTxWhenIdle = false := by decide

theorem witness_StepRunsHostCommand :
    let s := pick .hostProgram .rx { State.reset with prog := [.plain .hTcz] }
    s.picks = [⟨.hostProgram, .rx⟩] ∧ s.prog[s.pc]? = some (.plain .hTcz) ∧
      decode (HostCmd.plain .hTcz).word = .ok .hTcz ∧ Instr.hTcz.stream = .host := by decide +kernel

theorem witness_StepRunsClientCommand :
    let s := pick .clientProgram .rx { State.reset with cprog := [0x33FF] }
    s.picks = [⟨.clientProgram, .rx⟩] ∧ s.cprog[s.cpc]? = some 0x33FF ∧ decode 0x33FF = .ok (.ceRecv 0xFF) ∧
      (Instr.ceRecv 0xFF).stream = .client := by decide +kernel

/-- The clauses of `RefusalMarksAndStops`: a reserved word and a wrong unit in either stream, a bad operand, and a marked state whose stream has no step. -/
theorem witness_RefusalMarksAndStops :
    decode 0x5000 = .error .unit ∧ (decode 0x2000 = .ok .cClrbuf ∧ Instr.cClrbuf.stream = .client) ∧
    (decode 0x4000 = .ok .envSsa ∧ Instr.envSsa.stream = .host) ∧
    (running (.exchange 3 (some [1, 2]) none) id id).badOperand true false 3 = true ∧
    (running (.exchange 3 (some [1, 2]) none) id id).he.phase = .idle ∧
    ({ State.reset with prog := [⟨0x5000, none, none⟩], cprog := [0x4000], refused := some .badOperand } : State).hostIssue
      = .reserved ∧
    ({ State.reset with cprog := [0x4000], refused := some .badOperand } : State).clientIssue = .reserved ∧
    (running (.exchange 3 (some [1, 2]) none) id id).operandRefused (.exchange true false 3) = true := by decide +kernel

theorem witness_DisabledAgentWaits :
    let s := pick .hostPeripheral .rx { hs1 with env := ⟨.float, true⟩ }
    (s.after .rx []).enabled .hostPeripheral = false ∧ s.env.stalled = true ∧
      ((pick .dispatcher .rx State.reset).after .rx []).enabled .dispatcher = false ∧
      ((pick .hostProgram .rx State.reset).after .rx []).enabled .hostProgram = false := by decide +kernel

/-- Reset under the reference schedule. -/
def refState : State := { State.reset with policy := .ref }

theorem witness_ReferenceScheduleOrder :
    refState.picks = [] ∧ refState.policy = .ref ∧
    ({ refState with cp := { refState.cp with rxf := [1], eof := true } } : State).pending .rx = true ∧
    ({ refState with cp := { refState.cp with eof := true, sof := true } } : State).pending .stop = true ∧
    ({ refState with cp := { refState.cp with sof := true } } : State).pending .start = true ∧
    ({ refState with ce := { refState.ce with fs := .active } } : State).pending .tx = true ∧
    ({ refState with cprog := [0x3000] } : State).clientEnabled = true ∧
    ({ refState with hp := hs1.hp } : State).enabled .hostPeripheral = true ∧
    ({ refState with hp := hs1.hp, he := { refState.he with phase := .l1 }, hwTurn := true } : State).refHardwareTurn = true ∧
    ({ refState with prog := [.plain .hTcz] } : State).hostEnabled = true ∧
    refState.anyPending = false ∧ refState.anyEnabled = false := by decide +kernel

theorem witness_HostQueriesReadStatus : ∃ t, exec .hTcz State.reset = .next t := ⟨_, rfl⟩

theorem witness_HLdtcntLoadsCount : 8 ≤ State.reset.cfg.tcntW := by decide

theorem witness_HRdrxPopsOrDraws :
    (hostState fun h => { h with rxf := [0xA5] }).hp.rxf = [0xA5] ∧ State.reset.hp.rxf = [] := by decide

/-- A gated and an enabled start, with the transmit path enabled and disabled, and the three cases of the latch. -/
theorem witness_HsStartShiftsOneByte :
    hs1.picks = [⟨.hostPeripheral, .rx⟩] ∧ hs1.hp.sh = .idle ∧ hs1.env.stalled = false ∧ hs1.hp.tcnt ≠ 0 ∧
    hs1.hp.txEn = true ∧ hs1.hp.txf ≠ [] ∧ hs1.hp.rxf.length < hs1.cfg.rxd ∧ hs1.cp.ss = false ∧
    (hostState fun h => { h with tcnt := 1, txEn := false }).hsStartEnabled = true ∧
    (hostState fun h => { h with tcnt := 1 }).hsStartEnabled = false ∧
    (clientState fun c => { c with ss := true, txf := [0xC3] }).cp.txf = [0xC3] ∧
    (clientState fun c => { c with ss := true }).cp.txf = [] := by decide +kernel

/-- A byte in flight with the Client latched, with the line held, and with it floating; the count at 1 and at 0. -/
theorem witness_HsCompleteReceivesOneByte :
    let s := pick .hostPeripheral .rx (hostState fun h => { h with tcnt := 1, sh := .busy 0x5A })
    s.picks = [⟨.hostPeripheral, .rx⟩] ∧ s.hp.sh = .busy 0x5A ∧ s.env.stalled = false ∧ s.cp.sh = .idle ∧
    s.env.line = .float ∧ ({ s with env := ⟨.held 0xFF, false⟩ } : State).env.line = .held 0xFF ∧
    midFrame.cp.sh = .latched 0xB0 ∧ midFrame.hp.sh = .busy 0x11 ∧
    (hostState fun h => { h with sh := .busy 0x5A }).hp.tcnt = 0 := by decide +kernel

theorem witness_ByteExchangeSwapsBytes :
    let s := pick2 .hostPeripheral
      (peri (fun h => { h with tcnt := 1, txf := [0x5A] }) (fun c => { c with ss := true, txf := [0xC3], rxf := [0x01] }))
    let u := pick2 .hostPeripheral { hs1 with env := ⟨.held 0xFF, false⟩ }
    s.hp.sh = .idle ∧ s.hp.tcnt ≠ 0 ∧ s.hp.txEn = true ∧ s.hp.txf = [0x5A] ∧ s.hp.rxEn = true ∧
    s.hp.rxf.length < s.cfg.rxd ∧ s.cp.txf = [0xC3] ∧ s.cp.rxf.length < s.cfg.rxd ∧ s.env.stalled = false ∧
    u.cp.ss = false ∧ u.cp.sh = .idle ∧ u.env.line = .held 0xFF ∧ u.hp.txf = [0xA5] := by decide +kernel

/-- A byte that starts, one that completes and a step that does neither, none of them a load; then a run of two exchanges. -/
theorem witness_CounterStopsClockAfterNExchanges :
    (hs1.nextPick.map Pick.agent = some .hostPeripheral ∧ (look (step hs1) fun t => t.hp.sh) = some (.busy 0xA5) ∧
      (look (step midFrame) fun t => t.hp.sh) = some .idle ∧ midFrame.hp.sh = .busy 0x11 ∧
      sendMid.loadsCount = false ∧ (look (step sendMid) fun t => (t.hp.sh, t.hp.tcnt)) = some (.idle, 2) ∧
      (running (.plain (.hLdtcnt 3)) id id).loadsCount = true ∧
      ({ sendMid with he := { sendMid.he with phase := .s3 } } : State).loadsCount = true) ∧
    let s : State := { (hostState fun h => { h with tcnt := 2, txf := [1, 2] }) with
      picks := List.replicate (2 * 2) ⟨.hostPeripheral, .rx⟩ }
    s.picks = List.replicate (2 * 2) ⟨.hostPeripheral, .rx⟩ ++ [] ∧ s.env.stalled = false ∧ s.hp.sh = .idle ∧
      s.hp.tcnt = 2 ∧ 2 ≤ s.hp.txf.length ∧ s.hp.rxf.length + 2 ≤ s.cfg.rxd := by decide +kernel

theorem witness_ClientLatchStaysFramed : midFrame.latchFramed ∧ ∃ t, step midFrame = .next t :=
  ⟨fun _ => by decide, _, rfl⟩

theorem witness_LengthZeroIsRejected :
    (Instr.exchange false false 0).engine? = some (.exchange, false, false, 0) ∧
    (running (.exchange 0 none none) id id).he.phase = .idle ∧
    (running (.exchange 0 none none) id id).attachmentsMatch false false = true ∧
    (running (.send 0 (some [1])) id id).attachmentsMatch true false = true ∧
    (running (.receive 0 (some 0)) id id).attachmentsMatch false true = true ∧
    (let s : State := { running (.send 3 none) id id with cfg := { Config.reference with lenMax := 2 } }
     s.badOperand false false 3 = false ∧ s.cfg.lenMax < (3 : Byte).toNat ∧ s.he.phase = .idle) := by decide

/-- An operand one byte too short, on either side. -/
theorem witness_ShortOperandIsRefused :
    let s := running (.send 3 (some [1, 2])) id id
    let u := running (.receive 3 (some 0)) id id
    s.attachmentsMatch true false = true ∧ s.attachedTx = some [1, 2] ∧ [1, 2].length < (3 : Byte).toNat ∧
    u.attachmentsMatch false true = true ∧ u.attachedRx = some 0 ∧ u.rxb[0]?.map Space.size = some 2 := by decide

/-- S0 with operands of exactly `len` bytes, and S1. -/
theorem witness_EngineCapturesClearsAndSetsPaths :
    let s := running (.exchange 2 (some [1, 2]) (some 0)) id id
    s.he.phase = .idle ∧ (2 : Byte) ≠ 0 ∧ (2 : Byte).toNat ≤ s.cfg.lenMax ∧ s.attachedTx = some [1, 2] ∧ s.attachedRx = some 0 ∧
    s.rxb[0]?.map Space.size = some 2 ∧
    (running (.exchange 2 none none) (fun e => { e with phase := .s1 }) id).he.phase = .s1 := by decide

theorem witness_EnginePrimesFirstByte :
    let s := running (.send 2 (some [0x11, 0x22]))
      (fun e => { e with phase := .s2, mode := .send, len := 2, tx := some [0x11, 0x22] }) id
    s.he.phase = .s2 ∧ s.he.mode ≠ .receive ∧ s.hp.txf = [] ∧ 1 ≤ s.cfg.txd ∧ s.he.tx = some [0x11, 0x22] ∧
    [(0x11 : Byte), 0x22][0]? = some 0x11 ∧
    (running (.receive 2 none) (fun e => { e with phase := .s2, mode := .receive }) id).he.mode = .receive ∧
    (running (.send 2 none) (fun e => { e with phase := .s2, mode := .send }) id).he.tx = none := by decide

/-- Lengths 1 and 255. -/
theorem witness_EngineStartsTransfer :
    (running (.send 1 none) (fun e => { e with phase := .s3, len := 1 }) id).he.len = 1 ∧
    (running (.send 255 none) (fun e => { e with phase := .s3, len := 255 }) id).he.phase = .s3 ∧
    8 ≤ State.reset.cfg.tcntW := by decide

/-- A byte to load; no byte left; no space; the receive-only form. -/
theorem witness_EngineRefillsOneByte :
    sendMid.he.phase = .l1 ∧ sendMid.he.mode ≠ .receive ∧ sendMid.he.w < sendMid.he.len ∧
    sendMid.hp.txf.length < sendMid.cfg.txd ∧ [(0x11 : Byte), 0x22][sendMid.he.w]? = some 0x22 ∧
    ({ sendMid with he := { sendMid.he with w := 2 } } : State).he.len ≤ 2 ∧
    ({ sendMid with hp := { sendMid.hp with txf := [1, 2] } } : State).cfg.txd ≤ 2 := by decide

/-- A byte to store in the last slot; one past `len`; one to discard; nothing to read. -/
theorem witness_EngineDrainsOneByte :
    let s : State := { receiveEnd [0x0F] with he := { (receiveEnd []).he with phase := .l2 } }
    s.he.phase = .l2 ∧ s.he.mode ≠ .send ∧ s.hp.rxf = [0x0F] ∧ s.he.r < s.he.len ∧ s.he.rx = some 0 ∧
    s.he.r < s.spaceSize (.rxb 0) ∧
    ({ s with he := { s.he with r := 2 } } : State).he.len ≤ 2 ∧
    ({ s with he := { s.he with rx := none } } : State).he.rx = none ∧
    ({ s with hp := { s.hp with rxf := [] } } : State).hp.rxf = [] := by decide

theorem witness_EngineLoopEndsOnCounterAlone :
    ({ sendMid with he := { sendMid.he with phase := .l3 } } : State).hp.tcnt ≠ 0 ∧
    ({ sendMid with he := { sendMid.he with phase := .l3 }, hp := { sendMid.hp with tcnt := 0 } } : State).hp.tcnt = 0 ∧
    (Instr.send true 2).engine? = some (.send, true, false, 2) := by decide

theorem witness_EngineDrainsOnceAndReturns :
    let s := receiveEnd [0xFF, 0xFE]
    s.he.phase = .d ∧ s.he.mode ≠ .send ∧ s.hp.rxf = [0xFF, 0xFE] ∧ s.he.rx = some 0 ∧ s.he.r < s.he.len ∧
    s.he.r < s.spaceSize (.rxb 0) ∧ (receiveEnd []).hp.rxf = [] := by decide

theorem witness_AccessOutsideSpaceStops :
    let s : State := { sendMid with he := { sendMid.he with tx := some [0x11] } }
    let u : State := { receiveEnd [0xFF] with rxb := [⟨1, []⟩] }
    ({ sendMid with he := { sendMid.he with phase := .s2, tx := some [] } } : State).he.tx = some [] ∧
    s.he.phase = .l1 ∧ s.he.mode ≠ .receive ∧ s.he.tx = some [0x11] ∧ s.he.w < s.he.len ∧
    s.hp.txf.length < s.cfg.txd ∧ [0x11].length ≤ s.he.w ∧
    u.he.phase = .d ∧ u.he.mode ≠ .send ∧ u.hp.rxf ≠ [] ∧ u.he.rx = some 0 ∧ u.he.r < u.he.len ∧
    u.spaceSize (.rxb 0) ≤ u.he.r := by decide

/-- The invariant holds in the middle of an operation. -/
theorem witness_inv_sendMid : sendMid.Inv where
  cfg := by decide
  counter := by unfold State.counterBounded; decide
  fifos := by unfold State.fifosBounded; decide
  cursors := by unfold State.cursorsBounded; decide
  memory := ⟨by decide, by decide, by decide⟩
  pcs := by unfold State.pcsBounded; decide
  engine := by
    refine ⟨by decide, fun _ => ⟨by decide, by decide, by decide, by decide, by decide, ?_, ?_, ?_⟩⟩
    · intro xs h
      obtain rfl := Option.some.inj (show some [(0x11 : Byte), 0x22] = some xs from h)
      decide
    · intro n h
      cases h
    · exact ⟨.send true 2, true, false, 2, by decide +kernel, rfl⟩

/-- The invariant holds at step D. -/
theorem witness_inv_receiveEnd : (receiveEnd [0xFF]).Inv where
  cfg := by decide
  counter := by unfold State.counterBounded; decide
  fifos := by unfold State.fifosBounded; decide
  cursors := by unfold State.cursorsBounded; decide
  memory := ⟨by decide, by decide, by decide⟩
  pcs := by unfold State.pcsBounded; decide
  engine := by
    refine ⟨by decide, fun _ => ⟨by decide, by decide, by decide, by decide, by decide, ?_, ?_, ?_⟩⟩
    · intro xs h
      cases h
    · intro n h
      obtain rfl := Option.some.inj (show some 0 = some n from h)
      decide
    · exact ⟨.receive true 2, false, true, 2, by decide +kernel, rfl⟩

theorem witness_EveryStepKeepsInvariant : sendMid.Inv := witness_inv_sendMid

theorem witness_EngineTransmitsInOrder : sendMid.Inv ∧ sendMid.txInOrder ∧ ∃ t, step sendMid = .next t := by
  refine ⟨witness_inv_sendMid, ⟨by decide, fun _ _ _ => ?_⟩, _, rfl⟩
  rw [if_pos (by decide)]
  refine ⟨by decide, fun k hk => ?_⟩
  obtain rfl : k = 0 := Nat.lt_one_iff.1 hk
  decide

theorem witness_QuietOperationRecordsNoHostFault :
    ((Instr.send true 2).engine? = some (.send, true, false, 2) ∧
      (running (.send 2 (some [0x11, 0x22])) id id).hostQuiet = true ∧
      (look (exec (.send true 2) (running (.send 2 (some [0x11, 0x22])) id id)) fun u => u.he.phase) = some .s1) ∧
    sendMid.Inv ∧ 1 ≤ sendMid.cfg.txd ∧ sendMid.txInOrder ∧ sendMid.engineQuiet ∧ sendMid.he.phase.running = true ∧
      ∃ t, step sendMid = .next t :=
  ⟨by decide +kernel, witness_inv_sendMid, by decide, witness_EngineTransmitsInOrder.2.1, by unfold State.engineQuiet; decide,
    by decide, _, rfl⟩

theorem witness_SendReceivesNothing :
    sendMid.Inv ∧ sendMid.engineQuiet ∧ sendMid.sendReceivesNothing ∧ sendMid.he.phase.running = true ∧
      sendMid.he.mode = .send ∧ ∃ t, step sendMid = .next t :=
  ⟨witness_inv_sendMid, by unfold State.engineQuiet; decide, fun _ _ => by decide, by decide, by decide, _, rfl⟩

theorem witness_DrainMarginCompletesReceive :
    (Instr.receive true 2).engine? = some (.receive, false, true, 2) ∧ (receiveEnd [0xFF]).he.phase = .d ∧
      (receiveEnd [0xFF]).he.mode ≠ .send ∧ (receiveEnd [0xFF]).Inv ∧ (receiveEnd [0xFF]).hostDrainMargin ∧
      (receiveEnd [0xFF]).he.rx = some 0 ∧ (receiveEnd [0xFF]).hp.rxf = [0xFF] :=
  ⟨rfl, by decide, by decide, witness_inv_receiveEnd, by unfold State.hostDrainMargin; decide, rfl, rfl⟩

/-- L3 with the count at 0 and nothing in flight, and a byte in flight that is still counted. -/
theorem witness_AtCompleteReturnsQuiet :
    let s : State := { sendMid with he := { sendMid.he with phase := .l3 }, hp := { sendMid.hp with tcnt := 0 } }
    midFrame.flightCounted ∧ (∃ t, step midFrame = .next t) ∧ s.cfg.tcntDec = .atComplete ∧ s.flightCounted ∧
      s.hasFault .hTcntBusy = false ∧ (look (exec (.send true 2) s) fun t => t.he.phase) = some .d :=
  ⟨fun _ _ => .inl (by decide), ⟨_, rfl⟩, by decide, fun _ h => absurd (by decide) h, by decide, by decide⟩

theorem witness_ReceiveFromHeldLineFillsBuffer :
    let c : HostCmd := .receive 2 (some 0)
    let ps : List Pick := List.replicate 4 ⟨.hostProgram, .rx⟩ ++
      (List.replicate (2 : Byte).toNat
        [⟨.hostPeripheral, .rx⟩, ⟨.hostPeripheral, .rx⟩, ⟨.hostProgram, .rx⟩, ⟨.hostProgram, .rx⟩,
          ⟨.hostProgram, .rx⟩]).flatten ++ ⟨.hostProgram, .rx⟩ :: []
    let s : State := { running c id id with env := ⟨.held 0x0F, false⟩, picks := ps }
    s.picks = ps ∧ s.picks.length = 15 ∧ (2 : Byte).toNat ≤ s.cfg.lenMax ∧ 8 ≤ s.cfg.tcntW ∧
    s.prog[s.pc]? = some c ∧ decode c.word = .ok (.receive true 2) ∧ c.tx = none ∧ c.rx = some 0 ∧
    s.rxb[0]?.map Space.size = some 2 ∧ 1 ≤ (2 : Byte).toNat ∧ (2 : Byte).toNat ≤ 2 ∧ 1 ≤ s.cfg.rxd ∧
    s.he.phase = .idle ∧ s.hostQuiet = true ∧ s.env.stalled = false ∧ s.env.line = .held 0x0F ∧ s.cp.ss = false ∧
    s.cp.sh = .idle := by decide +kernel

/-! A run of `SEND 1` that ends, and one that a stall keeps in the loop, for R158. -/

theorem look_id {o : Host.Outcome State Fault Refusal} {t : State} (h : look o id = some t) : o = .next t := by
  cases o <;> simp [look] at h
  rw [h]

/-- The agents of a run of `SEND 1`: S0 to S3, the byte exchange, L1 to L3, D; then nothing is enabled. -/
def sendAgents : List Agent :=
  List.replicate 4 .hostProgram ++ List.replicate 2 .hostPeripheral ++ List.replicate 4 .hostProgram

def sendPick (n : Nat) : Pick := ⟨sendAgents[n]?.getD .environment, .rx⟩

def sendAt : Nat → State
  | 0 => running (.send 1 (some [0x11])) id id
  | n + 1 => (look (stepWith (sendPick n) (sendAt n)) id).getD State.reset

theorem sendPick_end {n : Nat} (h : 10 ≤ n) : sendPick n = ⟨.environment, .rx⟩ := by
  unfold sendPick
  rw [List.getElem?_eq_none (show sendAgents.length ≤ n from h)]
  rfl

theorem sendAt_end (n : Nat) : (sendAt (10 + n)).anyEnabled = false := by
  induction n with
  | zero => decide +kernel
  | succ n ih =>
    have : sendAt (10 + n + 1) = (sendAt (10 + n)).after .rx [] := by rw [sendAt, sendPick_end (Nat.le_add_right 10 n)]; rfl
    rw [← Nat.add_assoc, this]
    exact ih

/-- A whole run of `SEND 1`. -/
def sendRun : Run where
  at_ := sendAt
  pick := sendPick
  steps n := by
    by_cases h : n < 10
    · have : ∀ k : Fin 10, look (stepWith (sendPick k) (sendAt k)) id = some (sendAt (k + 1)) := by decide +kernel
      exact look_id (this ⟨n, h⟩)
    · rw [sendAt, sendPick_end (Nat.not_lt.1 h)]; rfl
  enabled n := by
    by_cases h : n < 10
    · have : ∀ k : Fin 10, (sendAt k).anyEnabled = true → (sendAt k).enabled (sendPick k).agent = true := by decide +kernel
      exact this ⟨n, h⟩
    · obtain ⟨k, rfl⟩ := Nat.exists_eq_add_of_le (Nat.not_lt.1 h)
      rw [sendAt_end]; exact fun h => by cases h

theorem sendRun_fair : sendRun.hostPeripheralFair := by
  intro n h
  have hn := h (10 + n) (Nat.le_add_left n 10)
  have := sendAt_end n
  simp only [State.anyEnabled, Bool.or_eq_false_iff] at this
  have h2 : (sendAt (10 + n)).enabled .hostPeripheral = true := hn
  rw [this.1.2] at h2; cases h2

/-- The loop under a stall, both bytes loaded, at the phase of the n-th step. -/
def stalledAt (n : Nat) : State :=
  { sendMid with
    he := { sendMid.he with w := 2, phase := if n % 3 = 0 then .l1 else if n % 3 = 1 then .l2 else .l3 }
    hp := { sendMid.hp with txf := [0x11, 0x22] }
    env := { sendMid.env with stalled := true }
    picks := []
    choice := .rx
    hwTurn := true }

/-- A run that never leaves the loop. -/
def stalledRun : Run where
  at_ := stalledAt
  pick _ := ⟨.hostProgram, .rx⟩
  steps n := by
    have h : ∀ k : Fin 3, look (stepWith ⟨.hostProgram, .rx⟩ (stalledAt k)) id = some (stalledAt (k + 1)) := by decide +kernel
    have e : ∀ m, stalledAt (m % 3) = stalledAt m := fun m => by simp only [stalledAt, Nat.mod_mod]
    have e' : stalledAt (n % 3 + 1) = stalledAt (n + 1) := by simp only [stalledAt, Nat.mod_add_mod]
    rw [← e', ← e n]
    exact look_id (h ⟨n % 3, Nat.mod_lt n (by decide)⟩)
  enabled n _ := by
    have h : ∀ k : Fin 3, (stalledAt k).enabled .hostProgram = true := by decide +kernel
    have e : stalledAt (n % 3) = stalledAt n := by simp only [stalledAt, Nat.mod_mod]
    rw [← e]
    exact h ⟨n % 3, Nat.mod_lt n (by decide)⟩

theorem witness_inv_stalledAt : (stalledAt 0).Inv where
  cfg := by decide
  counter := by unfold State.counterBounded; decide
  fifos := by unfold State.fifosBounded; decide
  cursors := by unfold State.cursorsBounded; decide
  memory := ⟨by decide, by decide, by decide⟩
  pcs := by unfold State.pcsBounded; decide
  engine := by
    refine ⟨by decide, fun _ => ⟨by decide, by decide, by decide, by decide, by decide, ?_, ?_, ?_⟩⟩
    · exact witness_inv_sendMid.engine.2 (by decide) |>.2.2.2.2.2.1
    · exact witness_inv_sendMid.engine.2 (by decide) |>.2.2.2.2.2.2.1
    · exact witness_inv_sendMid.engine.2 (by decide) |>.2.2.2.2.2.2.2

/-- A whole run with both `D` and the end, and a run that stays in the loop. -/
theorem witness_OperationReachesD :
    (sendRun.hostPeripheralFair ∧ (sendRun.at_ 0).env.stalled = false ∧ (sendRun.at_ 0).hostQuiet = true ∧ (sendRun.at_ 0).he.phase = .idle ∧
      sendRun.moves 0 .hostProgram ∧ (sendRun.at_ 1).he.phase = .s1 ∧
      (sendRun.at_ 1).he.mode.txOn = true ∧ 1 ≤ (sendRun.at_ 0).cfg.txd ∧ (sendRun.at_ 1).he.mode.rxOn = false ∧
      1 ≤ (sendRun.at_ 0).cfg.rxd) ∧
    (stalledRun.at_ 0).Inv ∧ (stalledRun.at_ 0).env.stalled = true ∧ (stalledRun.at_ 0).he.phase.looping = true ∧
      (stalledRun.at_ 0).hp.tcnt ≠ 0 :=
  ⟨⟨sendRun_fair, by decide, by decide, by decide, by unfold Run.moves; decide, by decide +kernel, by decide +kernel,
      by decide, by decide +kernel, by decide⟩,
    witness_inv_stalledAt, by decide, by decide, by decide⟩

theorem witness_CRdrxPopsOrDraws :
    (clientState fun c => { c with rxf := [0x11] }).cp.rxf = [0x11] ∧ State.reset.cp.rxf = [] := by decide

theorem witness_SlaveSelectEdgesSetFlags :
    State.reset.cp.ss = false ∧ (clientState fun c => { c with ss := true }).cp.ss = true := by decide

/-- The last slot, and the capacity. -/
theorem witness_CeRecvStoresOrOverruns :
    (engineState 4 3 0 .active []).ce.rc < 4 ∧ (engineState 4 4 0 .active []).cfg.cap ≤ 4 ∧
    (engineState 4 0 3 .active []).ce.wc < (engineState 4 0 3 .active []).cfg.cap := by decide

theorem witness_CeReqReturnsSlotAtWriteCursor :
    (engineState 4 0 3 .active []).ce.wc < (engineState 4 0 3 .active []).cfg.cap ∧
    (engineState 4 0 4 .active []).cfg.cap ≤ (engineState 4 0 4 .active []).ce.wc := by decide

/-- Each event pending when picked, and none pending. -/
theorem witness_DispatcherRunsHandler :
    (pick .dispatcher .start (clientState fun c => { c with sof := true })).cp.sof = true ∧
    (pick .dispatcher .stop (clientState fun c => { c with eof := true })).cp.eof = true ∧
    (pick .dispatcher .rx (clientState fun c => { c with rxf := [0x11] })).cp.rxf = [0x11] ∧
    (pick .dispatcher .tx (engineState 4 0 3 .active [])).pending .tx = true ∧
    (pick .dispatcher .tx (engineState 4 0 4 .active [])).pending .tx = true ∧
    State.reset.anyPending = false ∧ State.reset.ce.fs = .idle ∧ State.reset.cfg.clientTxWhenIdle = false := by decide

theorem witness_CeDispatchRunsOneHandler :
    (clientState fun c => { c with sof := true }).anyPending = true ∧
    (clientState fun c => { c with sof := true }).pending .start = true ∧ State.reset.anyPending = false := by decide

theorem witness_FrameKeepsFirstBytesInOrder : (engineState 2 0 0 .active []).ce.rc = 0 := by decide

/-- `C` bytes fill the buffer exactly. -/
theorem witness_PreloadFillsBufferFromZero :
    let s : State := { engineState 2 1 1 .active [] with
      cprog := (preloadCommands [0xA5, 0x7F]).map encode, picks := List.replicate 4 ⟨.clientProgram, .rx⟩ }
    s.cprog.drop s.cpc = (preloadCommands [0xA5, 0x7F]).map encode ∧ [0xA5, 0x7F].length ≤ s.cfg.cap ∧
      s.picks = List.replicate (2 + 2) ⟨.clientProgram, .rx⟩ ++ [] := by decide +kernel

theorem witness_ClientLoopsBackFrameBuffer :
    let u := pick .dispatcher .start (clientState fun c => { c with sof := true })
    (u.cp.sof = true ∧ u.cp.txf = [] ∧ u.cp.rxf = [] ∧ u.cp.sh = .idle) ∧
    midFrame.LoopsBack (fun j => midFrame.byteAt .buf j) 1 ∧
    midFrame.nextPick.map Pick.agent ≠ some .clientProgram ∧ midFrame.cp.sof = false ∧ midFrame.cp.eof = false ∧
    ∃ t, step midFrame = .next t ∧ t.hasFault .cTxUnderflow = false := by
  refine ⟨by decide, ⟨by decide, fun k hk => ?_, fun c hc => ?_, by decide, fun j _ => rfl⟩, by decide, by decide,
    by decide, _, rfl, by decide⟩
  · have hk : k < 2 := hk
    obtain rfl | rfl : k = 0 ∨ k = 1 := by omega
    all_goals decide
  · obtain rfl := ClientShift.latched.inj (show ClientShift.latched 0xB0 = .latched c from hc)
    decide

theorem witness_FaultsAreSticky :
    (∃ t, step ({ sendMid with flt := 0x800 } : State) = .next t) ∧
    ({ sendMid with flt := 0x800 } : State).hasFault .ceBufferOverrun = true := ⟨⟨_, rfl⟩, by decide⟩

theorem witness_ProgramsAndParametersNeverWritten : ∃ t, step sendMid = .next t := ⟨_, rfl⟩

/-- A command that returns nothing, an operation that goes on, and commands of both sides. -/
theorem witness_ResultWrittenOnlyByReturningCommands :
    (∃ t, exec .hClrbuf State.reset = .next t) ∧
    (Instr.hClrbuf ∉ [Instr.hTcz, .hTxspc, .hRxdat, .hRdrx, .cSof, .cEof, .cRxdat, .cTxspc, .cRdrx, .ceReq]) ∧
    (look (exec (.send true 2) sendMid) fun t => t.pc) = some sendMid.pc := ⟨⟨_, rfl⟩, by decide, by decide⟩

theorem witness_OnlyStoringCommandsChangeMemory :
    (∃ t, exec (.send true 2) sendMid = .next t) ∧ sendMid.he.phase ≠ .l2 ∧ sendMid.he.phase ≠ .d ∧
    (∃ t, exec .cClrbuf State.reset = .next t) ∧ Instr.cClrbuf.stream = .client := ⟨⟨_, rfl⟩, by decide, by decide, ⟨_, rfl⟩, rfl⟩

theorem witness_SidesAreIsolated :
    (∃ t, exec (.send true 2) sendMid = .next t) ∧ (Instr.send true 2).stream = .host ∧
    (∃ t, exec .ceReq State.reset = .next t) ∧ Instr.ceReq.stream = .client := ⟨⟨_, rfl⟩, rfl, ⟨_, rfl⟩, rfl⟩

theorem witness_ResetHasInvariant :
    Config.reference.wf = true ∧ (Space.mk 2 [(0, 0xEE)]).cells.wf 2 = true ∧
      Memory.wf 64 [(0, 0xB0), (63, 0xBF)] = true := by decide

end Sys2Proof.Tests
end

section
/-! An agent without an enabled step waits (00_scope.md R11; log 13). -/

namespace Sys2Proof.Machine

/-- A step under a listed pick is one of its agent, the pick taken. -/
theorem step_of_picks {s : State} {a : Agent} {e : Event} {rest : List Pick} (h : s.picks = ⟨a, e⟩ :: rest) :
    step s = runAgent a (s.after e rest) := by
  simp only [step, State.nextPick, State.takePick, State.after, h]

/-- The first reason of a refusal is kept (R46). -/
theorem State.refuse_of_refused {s : State} (r : RefuseMark) (h : s.refused.isNone = false) : s.refuse r = s := by
  cases hq : s.refused with
  | none => simp [hq] at h
  | some q => rw [State.refuse, hq, Option.getD_some, ← hq]

/-- A Host engine command whose operands are refused sets the mark and does nothing else (R88, R143). -/
theorem exec_operandRefused {i : Instr} {s : State} (h : s.operandRefused i = true) :
    exec i s = .next (s.refuse .badOperand) := by
  unfold State.operandRefused at h
  split at h
  next k t r len he =>
    simp only [Bool.and_eq_true, Bool.or_eq_true, beq_iff_eq] at h
    obtain ⟨hp, hb⟩ := h
    have hs0 : engineS0 k t r len s = .next (s.refuse .badOperand) := if_pos hb
    rw [exec_engine he]
    obtain hp | hp := hp <;> simp only [engineStep, hp, hs0]
  next => cases h

theorem runIssue_host_disabled {s : State} (h : s.hostEnabled = false) : runIssue s.hostIssue s = .next s := by
  unfold State.hostEnabled at h
  cases hi : s.hostIssue <;> simp only [hi] at h
  case finished => rfl
  case reserved => simp only [runIssue, State.refuse_of_refused _ h]
  case command i =>
    simp only [Bool.or_eq_false_iff, Bool.not_eq_false'] at h
    simp only [runIssue, exec_operandRefused h.1, State.refuse_of_refused _ h.2]

theorem runIssue_client_disabled {s : State} (h : s.clientEnabled = false) : runIssue s.clientIssue s = .next s := by
  unfold State.clientEnabled at h
  cases hi : s.clientIssue <;> simp only [hi] at h
  case finished => rfl
  case reserved => simp only [runIssue, State.refuse_of_refused _ h]
  case command i => cases h

theorem hostPeripheralStep_disabled {s : State} (h : s.enabled .hostPeripheral = false) :
    hostPeripheralStep s = none := by
  obtain ⟨hstart, hcomplete⟩ := Bool.or_eq_false_iff.1 (show (s.hsStartEnabled || s.hsCompleteEnabled) = false from h)
  cases hs : hostPeripheralStep s with
  | none => rfl
  | some t =>
    obtain ⟨out, hst, hsh, -⟩ | ⟨hen, -, -⟩ := hostPeripheralStep_cases hs
    · simp [State.hsCompleteEnabled, State.hostBusy, hst, hsh] at hcomplete
    · rw [hstart] at hen; cases hen

/-- A stalled clock gives the Host peripheral no step (R114). -/
theorem hostPeripheral_disabled_of_stalled {s : State} (h : s.env.stalled = true) :
    s.enabled .hostPeripheral = false := by
  simp [State.enabled, State.hsStartEnabled, State.hsCompleteEnabled, h]

/-- An agent with no enabled step leaves the state as it is. -/
theorem runAgent_disabled {a : Agent} {s : State} (h : s.enabled a = false) : runAgent a s = .next s := by
  cases a with
  | hostProgram => exact runIssue_host_disabled h
  | clientProgram => exact runIssue_client_disabled h
  | hostPeripheral => simp only [runAgent, hostPeripheralStep_disabled h, Option.getD_none]
  | dispatcher =>
    obtain ⟨e, he, -⟩ | ⟨-, hd⟩ := dispatchOne_cases s
    · have hp := State.chosenEvent_isSome s
      rw [he, show s.anyPending = false from h] at hp
      cases hp
    · simp only [runAgent, hd]
  | clientPeripheral => rfl
  | environment => rfl

/-- Settles O10: a step under a listed pick is its agent's, and a disabled agent leaves the state. -/
theorem disabledAgentWaits : Obligations.DisabledAgentWaits := by
  intro s a e rest hp
  exact ⟨fun h => by rw [step_of_picks hp, runAgent_disabled h], hostPeripheral_disabled_of_stalled⟩

end Sys2Proof.Machine
end

section
/-! Neither side's commands read or write the other side (00_scope.md R2). Replacing the other side's state commutes
with each effect of a command, and so with the command; that a command leaves the other side follows, since replacing
it by what it holds changes nothing. -/

namespace Sys2Proof.Machine

/-- The state with another Client side. -/
def State.withClientSide (x : ClientPeripheral) (y : ClientEngine) (s : State) : State := { s with cp := x, ce := y }

/-- The state with another Host side, environment and receive sequences. -/
def State.withHostSide (x : HostPeripheral) (y : HostEngine) (z : Environment) (m : List Space) (s : State) : State :=
  { s with hp := x, he := y, env := z, rxb := m }

/-- A change of the state a step answers; a stop stays. -/
def mapNext (f : State → State) (o : Host.Outcome State Fault Refusal) : Host.Outcome State Fault Refusal :=
  match o with
  | .next s => .next (f s)
  | .fault r => .fault r
  | .refused r => .refused r

/-- A command commutes with a change of the state: it neither reads nor writes what `f` replaces. -/
def CommutesWith (i : Instr) (f : State → State) : Prop := ∀ s, exec i (f s) = mapNext f (exec i s)

theorem CommutesWith.next {i : Instr} {f : State → State} {s t : State} (hc : CommutesWith i f)
    (h : exec i s = .next t) : exec i (f s) = .next (f t) := by
  rw [hc s, h]; rfl

/-- A command keeps what the change replaces: a change that alters nothing before the step alters nothing after it. -/
theorem CommutesWith.fixed {i : Instr} {f : State → State} {s t : State} (hc : CommutesWith i f)
    (hf : f s = s) (h : exec i s = .next t) : f t = t := by
  have hn := hc.next h
  rw [hf, h] at hn
  exact (Host.Outcome.next.inj hn).symm

theorem phaseResult_map (f : State → State) (o : Option State) :
    phaseResult (o.map f) = mapNext f (phaseResult o) := by
  cases o <;> rfl

/-! ### Host-side effects beside another Client side -/

section
variable (x : ClientPeripheral) (y : ClientEngine) (s : State)

@[simp] theorem State.withClientSide_hp : (s.withClientSide x y).hp = s.hp := rfl
@[simp] theorem State.withClientSide_he : (s.withClientSide x y).he = s.he := rfl

theorem hClrbufEffect_withClientSide :
    hClrbufEffect (s.withClientSide x y) = (hClrbufEffect s).withClientSide x y := by
  simp only [hClrbufEffect_eq]; rfl

theorem hSetdirEffect_withClientSide (t r : Bool) :
    hSetdirEffect t r (s.withClientSide x y) = (hSetdirEffect t r s).withClientSide x y := by
  simp only [hSetdirEffect_eq]; rfl

theorem hLdtcntEffect_withClientSide (n : Byte) :
    hLdtcntEffect n (s.withClientSide x y) = (hLdtcntEffect n s).withClientSide x y := by
  simp only [hLdtcntEffect_eq]; rfl

theorem hWrtxEffect_withClientSide (b : Byte) :
    hWrtxEffect b (s.withClientSide x y) = (hWrtxEffect b s).withClientSide x y := by
  simp only [hWrtxEffect_eq]; rfl

theorem hRdrxEffect_withClientSide :
    hRdrxEffect (s.withClientSide x y) = ((hRdrxEffect s).1, (hRdrxEffect s).2.withClientSide x y) := by
  cases h : s.hp.rxf <;> simp only [hRdrxEffect, State.withClientSide_hp, h] <;> rfl

theorem loadTx_withClientSide (i : Nat) :
    loadTx i (s.withClientSide x y) = (loadTx i s).map (State.withClientSide x y) := by
  have hx : (s.withClientSide x y).txByte i = s.txByte i := rfl
  simp only [loadTx, hx, hWrtxEffect_withClientSide, Option.map_map]; rfl

theorem store_withClientSide (b : Byte) :
    store b (s.withClientSide x y) = (store b s).map (State.withClientSide x y) := by
  unfold store
  rw [State.withClientSide_he]
  split
  · cases s.he.rx with
    | none => rfl
    | some n =>
      have hs : (s.withClientSide x y).spaceSize (.rxb n) = s.spaceSize (.rxb n) := rfl
      simp only [State.memWrite, hs]
      split <;> rfl
  · rfl

theorem drain_withClientSide : drain (s.withClientSide x y) = (drain s).map (State.withClientSide x y) := by
  unfold drain
  rw [State.withClientSide_he, State.withClientSide_hp]
  split
  · cases s.hp.rxf with
    | nil => rfl
    | cons b rest => exact store_withClientSide x y { s with hp := { s.hp with rxf := rest } } b
  · rfl

theorem engineS0_withClientSide (k : Mode) (t r : Bool) (len : Byte) :
    engineS0 k t r len (s.withClientSide x y) = mapNext (State.withClientSide x y) (engineS0 k t r len s) := by
  have hb : (s.withClientSide x y).badOperand t r len = s.badOperand t r len := rfl
  have hl : (s.withClientSide x y).lengthValid len = s.lengthValid len := rfl
  unfold engineS0
  rw [hb, hl]
  split
  · rfl
  · split
    · exact congrArg Host.Outcome.next (hClrbufEffect_withClientSide x y (captureOperands k len s))
    · rfl

theorem engineS1_withClientSide : engineS1 (s.withClientSide x y) = (engineS1 s).withClientSide x y := by
  simp only [engineS1_eq]; rfl

theorem engineS2_withClientSide : engineS2 (s.withClientSide x y) = (engineS2 s).map (State.withClientSide x y) := by
  unfold engineS2
  rw [State.withClientSide_he, loadTx_withClientSide]
  split <;> simp only [Option.map_map, Option.map_some] <;> rfl

theorem engineS3_withClientSide : engineS3 (s.withClientSide x y) = (engineS3 s).withClientSide x y := by
  simp only [engineS3_eq]; rfl

theorem engineL1_withClientSide : engineL1 (s.withClientSide x y) = (engineL1 s).map (State.withClientSide x y) := by
  have hsp : (s.withClientSide x y).hostTxSpace = s.hostTxSpace := rfl
  unfold engineL1
  rw [State.withClientSide_he, hsp, loadTx_withClientSide]
  split <;> simp only [Option.map_map, Option.map_some] <;> rfl

theorem engineL2_withClientSide : engineL2 (s.withClientSide x y) = (engineL2 s).map (State.withClientSide x y) := by
  simp only [engineL2, drain_withClientSide, Option.map_map]; rfl

theorem engineL3_withClientSide : engineL3 (s.withClientSide x y) = (engineL3 s).withClientSide x y := by
  have hx : (s.withClientSide x y).hostCountZero = s.hostCountZero := rfl
  unfold engineL3
  rw [hx]
  split <;> rfl

theorem engineD_withClientSide : engineD (s.withClientSide x y) = (engineD s).map (State.withClientSide x y) := by
  simp only [engineD, drain_withClientSide, Option.map_map]; rfl

/-- Every phase of an operation commutes with a change of the Client side (R141). -/
theorem engineStep_withClientSide (k : Mode) (t r : Bool) (len : Byte) :
    engineStep k t r len (s.withClientSide x y) = mapNext (State.withClientSide x y) (engineStep k t r len s) := by
  unfold engineStep
  rw [State.withClientSide_he]
  cases s.he.phase with
  | idle => exact engineS0_withClientSide x y s k t r len
  | s0 => exact engineS0_withClientSide x y s k t r len
  | s1 => exact congrArg Host.Outcome.next (engineS1_withClientSide x y s)
  | s2 => simp only [engineS2_withClientSide, phaseResult_map]
  | s3 => exact congrArg Host.Outcome.next (engineS3_withClientSide x y s)
  | l1 => simp only [engineL1_withClientSide, phaseResult_map]
  | l2 => simp only [engineL2_withClientSide, phaseResult_map]
  | l3 => exact congrArg Host.Outcome.next (engineL3_withClientSide x y s)
  | d => simp only [engineD_withClientSide, phaseResult_map]

end

/-- A Host-side command other than the two Slave-Select edges has the same effect beside every Client side. -/
theorem host_commutesWith_clientSide {i : Instr} (hi : i.stream = .host) (ha : i ≠ .envSsa) (hd : i ≠ .envSsd)
    (x : ClientPeripheral) (y : ClientEngine) : CommutesWith i (State.withClientSide x y) := by
  intro s
  cases he : i.engine? with
  | some c => simp only [exec_engine he, engineStep_withClientSide]
  | none =>
    cases i <;> simp only [Instr.engine?, reduceCtorEq] at he <;>
      simp only [Instr.stream, Instr.unit, CmdUnit.stream, reduceCtorEq] at hi
    case hClrbuf => simp only [exec, execHClrbuf, hClrbufEffect_withClientSide]; rfl
    case hSetdir => simp only [exec, execHSetdir, hSetdirEffect_withClientSide]; rfl
    case hLdtcnt => simp only [exec, execHLdtcnt, hLdtcntEffect_withClientSide]; rfl
    case hWrtx => simp only [exec, execHWrtx, hWrtxEffect_withClientSide]; rfl
    case hRdrx => simp only [exec, execHRdrx, hRdrxEffect_withClientSide]; rfl
    case envSsa => exact absurd rfl ha
    case envSsd => exact absurd rfl hd
    all_goals rfl

/-! ### Client-side effects beside another Host side -/

section
variable (x : HostPeripheral) (y : HostEngine) (z : Environment) (m : List Space) (s : State)

@[simp] theorem State.withHostSide_cp : (s.withHostSide x y z m).cp = s.cp := rfl
@[simp] theorem State.withHostSide_ce : (s.withHostSide x y z m).ce = s.ce := rfl
@[simp] theorem State.withHostSide_cfg : (s.withHostSide x y z m).cfg = s.cfg := rfl

theorem cWrtxEffect_withHostSide (b : Byte) :
    cWrtxEffect b (s.withHostSide x y z m) = (cWrtxEffect b s).withHostSide x y z m := by
  simp only [cWrtxEffect_eq]; rfl

theorem cRdrxEffect_withHostSide :
    cRdrxEffect (s.withHostSide x y z m) = ((cRdrxEffect s).1, (cRdrxEffect s).2.withHostSide x y z m) := by
  cases h : s.cp.rxf <;> simp only [cRdrxEffect, State.withHostSide_cp, h] <;> rfl

theorem ceRecvEffect_withHostSide (b : Byte) :
    ceRecvEffect b (s.withHostSide x y z m) = (ceRecvEffect b s).withHostSide x y z m := by
  unfold ceRecvEffect
  rw [State.withHostSide_ce, State.withHostSide_cfg]
  split <;> rfl

theorem ceReqEffect_withHostSide :
    ceReqEffect (s.withHostSide x y z m) = ((ceReqEffect s).1, (ceReqEffect s).2.withHostSide x y z m) := by
  unfold ceReqEffect
  rw [State.withHostSide_ce, State.withHostSide_cfg]
  split <;> rfl

theorem runHandler_withHostSide (e : Event) :
    runHandler e (s.withHostSide x y z m) = (runHandler e s).withHostSide x y z m := by
  cases e with
  | start => rfl
  | stop => rfl
  | rx => simp only [runHandler, handleRx, cRdrxEffect_withHostSide, ceRecvEffect_withHostSide]
  | tx => simp only [runHandler, handleTx, ceReqEffect_withHostSide, cWrtxEffect_withHostSide]

theorem dispatchOne_withHostSide :
    dispatchOne (s.withHostSide x y z m) = (dispatchOne s).withHostSide x y z m := by
  have hx : (s.withHostSide x y z m).chosenEvent = s.chosenEvent := rfl
  unfold dispatchOne
  rw [hx]
  cases s.chosenEvent with
  | none => rfl
  | some e => exact runHandler_withHostSide x y z m s e

end

/-- A Client-side command has the same effect beside every Host side, environment and receive sequences. -/
theorem client_commutesWith_hostSide {i : Instr} (hi : i.stream = .client) (x : HostPeripheral) (y : HostEngine)
    (z : Environment) (m : List Space) : CommutesWith i (State.withHostSide x y z m) := by
  intro s
  cases i <;> simp only [Instr.stream, Instr.unit, CmdUnit.stream, reduceCtorEq] at hi
  case cWrtx => simp only [exec, execCWrtx, cWrtxEffect_withHostSide]; rfl
  case cRdrx => simp only [exec, execCRdrx, cRdrxEffect_withHostSide]; rfl
  case ceRecv => simp only [exec, execCeRecv, ceRecvEffect_withHostSide]; rfl
  case ceReq => simp only [exec, execCeReq, ceReqEffect_withHostSide]; rfl
  case ceDispatch => simp only [exec, execCeDispatch, dispatchOne_withHostSide]; rfl
  all_goals rfl

/-- Settles O58: each command commutes with every change of the other side, which gives that it has the same effect
and, for the change to what the other side holds, that it leaves it. -/
theorem sidesAreIsolated : Obligations.SidesAreIsolated := by
  intro i s t h
  constructor
  · intro hi ha hd x y
    have hc := host_commutesWith_clientSide hi ha hd
    have hkeep : t.withClientSide s.cp s.ce = t := (hc s.cp s.ce).fixed rfl h
    exact ⟨(congrArg State.cp hkeep).symm, (congrArg State.ce hkeep).symm, (hc x y).next h⟩
  · intro hi x y z m
    have hc := client_commutesWith_hostSide hi
    have hkeep : t.withHostSide s.hp s.he s.env s.rxb = t := (hc s.hp s.he s.env s.rxb).fixed rfl h
    exact ⟨(congrArg State.hp hkeep).symm, (congrArg State.he hkeep).symm, (congrArg State.env hkeep).symm,
      (congrArg State.rxb hkeep).symm, (hc x y z m).next h⟩

end Sys2Proof.Machine
end

section
/-! What a stream issues from the word at its program counter (10_state.md R22, 30_encoding.md R88, R89), and the steps
and refusals that follow. -/

namespace Sys2Proof.Machine

/-! ### The word a stream issues -/

theorem issueWord_command {st : Stream} {w : Word} {i : Instr} (hd : decode w = .ok i) (hi : i.stream = st) :
    issueWord st w = .command i := by
  simp [issueWord, hd, Instr.belongsTo, hi]

/-- A reserved word, and a command of a unit of the other stream, is reserved (R88). -/
theorem issueWord_reserved {st : Stream} {w : Word}
    (h : (∃ x, decode w = .error x) ∨ (∃ i, decode w = .ok i ∧ i.stream ≠ st)) : issueWord st w = .reserved := by
  obtain ⟨x, hd⟩ | ⟨i, hd, hi⟩ := h
  · simp [issueWord, hd]
  · simp [issueWord, hd, Instr.belongsTo, hi]

theorem State.hostIssue_eq {s : State} {c : HostCmd} (h : s.prog[s.pc]? = some c) :
    s.hostIssue = issueWord .host c.word := by
  simp only [State.hostIssue, h]

theorem State.clientIssue_eq {s : State} {w : Word} (h : s.cprog[s.cpc]? = some w) :
    s.clientIssue = issueWord .client w := by
  simp only [State.clientIssue, h]

/-- A word issued as a command is of the issuing stream (R81, R88). -/
theorem issueWord_stream {st : Stream} {w : Word} {i : Instr} (h : issueWord st w = .command i) : i.stream = st := by
  unfold issueWord at h
  split at h
  next j _ =>
    split at h
    next hb => obtain rfl := Issue.command.inj h; simpa [Instr.belongsTo] using hb
    next => cases h
  next => cases h

/-- A command the host program issues is one of its stream, and stands in its list. -/
theorem State.hostIssue_stream {s : State} {i : Instr} (h : s.hostIssue = .command i) :
    i.stream = .host ∧ s.pc < s.prog.length := by
  unfold State.hostIssue at h
  split at h
  next c hc => exact ⟨issueWord_stream h, (List.getElem?_eq_some_iff.1 hc).1⟩
  next => cases h

@[simp] theorem State.after_hostIssue (s : State) (e : Event) (rest : List Pick) :
    (s.after e rest).hostIssue = s.hostIssue := rfl

@[simp] theorem State.after_clientIssue (s : State) (e : Event) (rest : List Pick) :
    (s.after e rest).clientIssue = s.clientIssue := rfl

/-- A Host engine command belongs to the host program (R81). -/
theorem Instr.stream_of_engine {i : Instr} {x : Mode × Bool × Bool × Byte} (h : i.engine? = some x) :
    i.stream = .host := by
  cases i <;> simp only [Instr.engine?, reduceCtorEq] at h <;> rfl

/-- A picked host program takes the step of what it issues. -/
theorem step_of_host {s : State} {e : Event} {rest : List Pick} (h : s.picks = ⟨.hostProgram, e⟩ :: rest) :
    step s = runIssue s.hostIssue (s.after e rest) := step_of_picks h

/-- A picked client program takes the step of what it issues. -/
theorem step_of_client {s : State} {e : Event} {rest : List Pick} (h : s.picks = ⟨.clientProgram, e⟩ :: rest) :
    step s = runIssue s.clientIssue (s.after e rest) := step_of_picks h

/-- Settles O7: the picked host program issues the decoded command. -/
theorem stepRunsHostCommand : Obligations.StepRunsHostCommand := by
  intro s c i e rest hp hc hd hi
  rw [step_of_host hp, State.hostIssue_eq hc, issueWord_command hd hi, runIssue]

/-- Settles O8: the picked client program issues the decoded command. -/
theorem stepRunsClientCommand : Obligations.StepRunsClientCommand := by
  intro s w i e rest hp hw hd hi
  rw [step_of_client hp, State.clientIssue_eq hw, issueWord_command hd hi, runIssue]

/-! ### The state after reset (70_reset_and_hazards.md R290) -/

/-- With the FIFOs empty, no flag set and no frame active, no event is pending (R228), unless the Client transmits when
idle. -/
theorem resetWith_anyPending {cfg : Config} (prog : List HostCmd) (cprog : List Word) (rxb : List Space)
    (h : cfg.clientTxWhenIdle = false) : (State.resetWith cfg prog cprog rxb).anyPending = false := by
  simp [State.anyPending, State.pending, State.resetWith, State.clientRxData, h]

/-- Settles O6: each field as `resetWith` gives it, the slots of `BUF_INIT` among the written bytes. -/
theorem resetLeavesQuietBlock : Obligations.ResetLeavesQuietBlock := by
  intro cfg prog cprog rxb
  refine ⟨rfl, rfl, rfl, rfl, rfl, rfl, rfl, rfl, rfl, rfl, rfl, rfl, ?_, resetWith_anyPending prog cprog rxb⟩
  intro i b hb
  simp [State.byteAt, State.resetWith, hb]

end Sys2Proof.Machine
end

section
/-! What each kind of step can change of the block: the operations of the Host engine, the other commands of the host
program, and from these the programs and parameters, the refusal mark and the Client latch. -/

namespace Sys2Proof.Machine

/-- A later refusal mark: a reason once given is kept (R46). -/
def KeepsMark (before after : Option RefuseMark) : Prop := ∀ q, before = some q → after = some q

theorem KeepsMark.refl (m : Option RefuseMark) : KeepsMark m m := fun _ h => h

theorem State.refuse_keepsMark (s : State) (r : RefuseMark) : KeepsMark s.refused (s.refuse r).refused := by
  intro q h
  simp [h]

/-- A step of an operation changes the Host side, `res`, the receive sequences, the fault record, the mark and REF's flag;
it leaves the byte in flight, and its program counter stays or advances. -/
theorem engineStep_frame {k : Mode} {t r : Bool} {len : Byte} {s u : State} (h : engineStep k t r len s = .next u) :
    ∃ pc res v hp he rxb flt mark turn,
      u = { s with
            pc := pc, res := res, resValid := v, hp := hp, he := he, rxb := rxb, flt := flt, refused := mark
            hwTurn := turn } ∧
      (pc = s.pc ∨ pc = s.pc + 1) ∧ hp.sh = s.hp.sh ∧ KeepsMark s.refused mark := by
  have hm := KeepsMark.refl s.refused
  obtain ⟨-, h⟩ | ⟨-, rfl⟩ | ⟨-, h⟩ | ⟨-, rfl⟩ | ⟨-, h⟩ | ⟨-, h⟩ | ⟨-, rfl⟩ | ⟨-, h⟩ := engineStep_cases h
  · obtain ⟨-, rfl⟩ | ⟨-, -, rfl⟩ | ⟨-, -, rfl⟩ := engineS0_cases h
    · exact ⟨_, _, _, _, _, _, _, _, _, rfl, .inl rfl, rfl, s.refuse_keepsMark _⟩
    · exact ⟨_, _, _, _, _, _, _, _, _, rfl, .inr rfl, rfl, hm⟩
    · exact ⟨_, _, _, _, _, _, _, _, _, rfl, .inl rfl, rfl, hm⟩
  · exact ⟨_, _, _, _, _, _, _, _, _, engineS1_eq s, .inl rfl, rfl, hm⟩
  · obtain ⟨-, rfl⟩ | ⟨b, -, -, rfl⟩ := engineS2_cases h <;>
      exact ⟨_, _, _, _, _, _, _, _, _, rfl, .inl rfl, rfl, hm⟩
  · exact ⟨_, _, _, _, _, _, _, _, _, engineS3_eq s, .inl rfl, rfl, hm⟩
  · obtain ⟨-, rfl⟩ | ⟨b, -, -, -, -, rfl⟩ := engineL1_cases h <;>
      exact ⟨_, _, _, _, _, _, _, _, _, rfl, .inl rfl, rfl, hm⟩
  · obtain ⟨u, hu, rfl⟩ := engineL2_cases h
    obtain ⟨_, _, _, rfl, -⟩ := drain_frame hu
    exact ⟨_, _, _, _, _, _, _, _, _, rfl, .inl rfl, rfl, hm⟩
  · obtain ⟨-, h⟩ | ⟨-, h⟩ := engineL3_cases s <;>
      exact ⟨_, _, _, _, _, _, _, _, _, h, .inl rfl, rfl, hm⟩
  · obtain ⟨u, hu, rfl⟩ := engineD_cases h
    obtain ⟨_, _, _, rfl, -⟩ := drain_frame hu
    exact ⟨_, _, _, _, _, _, _, _, _, rfl, .inr rfl, rfl, hm⟩

/-- A command of the host program other than an operation advances its program counter; it changes the Host peripheral
except the byte in flight, the Client peripheral, the environment, `res`, the fault record and the draws. -/
theorem exec_hostPeripheral_frame {i : Instr} {s t : State} (hi : i.stream = .host) (he : i.engine? = none)
    (h : exec i s = .next t) :
    ∃ res v hp cp env flt draws,
      t = { s with pc := s.pc + 1, res := res, resValid := v, hp := hp, cp := cp, env := env, flt := flt, draws := draws } ∧
      hp.sh = s.hp.sh := by
  cases i <;> simp only [Instr.stream, Instr.unit, CmdUnit.stream, Instr.engine?, reduceCtorEq] at hi he <;>
    obtain rfl := Host.Outcome.next.inj h
  case hClrbuf => rw [hClrbufEffect_eq]; exact ⟨_, _, _, _, _, _, _, rfl, rfl⟩
  case hSetdir => rw [hSetdirEffect_eq]; exact ⟨_, _, _, _, _, _, _, rfl, rfl⟩
  case hLdtcnt => rw [hLdtcntEffect_eq]; exact ⟨_, _, _, _, _, _, _, rfl, rfl⟩
  case hWrtx => rw [hWrtxEffect_eq]; exact ⟨_, _, _, _, _, _, _, rfl, rfl⟩
  case hRdrx =>
    obtain ⟨b, rest, -, h⟩ | ⟨-, h⟩ := hRdrxEffect_cases s <;> rw [h] <;>
      exact ⟨_, _, _, _, _, _, _, rfl, rfl⟩
  case envSsa => split <;> exact ⟨_, _, _, _, _, _, _, rfl, rfl⟩
  case envSsd => split <;> exact ⟨_, _, _, _, _, _, _, rfl, rfl⟩
  all_goals exact ⟨_, _, _, _, _, _, _, rfl, rfl⟩

/-- A command of the host program leaves the programs, the parameters, the FrameBuffer and the byte in flight, and its own
program counter stays or advances. -/
theorem exec_host_frame {i : Instr} {s t : State} (hi : i.stream = .host) (h : exec i s = .next t) :
    ∃ pc res v hp he cp env rxb flt mark draws turn,
      t = { s with
            pc := pc, res := res, resValid := v, hp := hp, he := he, cp := cp, env := env, rxb := rxb, flt := flt
            refused := mark, draws := draws, hwTurn := turn } ∧
      (pc = s.pc ∨ pc = s.pc + 1) ∧ hp.sh = s.hp.sh ∧ KeepsMark s.refused mark := by
  cases he : i.engine? with
  | some x =>
    obtain ⟨_, _, _, _, _, _, _, _, _, rfl, hpc, hsh, hm⟩ := engineStep_frame (exec_engine (k := x.1) he s ▸ h)
    exact ⟨_, _, _, _, _, _, _, _, _, _, _, _, rfl, hpc, hsh, hm⟩
  | none =>
    obtain ⟨_, _, _, _, _, _, _, rfl, hsh⟩ := exec_hostPeripheral_frame hi he h
    exact ⟨_, _, _, _, _, _, _, _, _, _, _, _, rfl, .inr rfl, hsh, KeepsMark.refl _⟩

/-- A step of the Host peripheral changes the two peripherals, the fault record, the draws and REF's flag. -/
theorem hostPeripheralStep_frame {s t : State} (h : hostPeripheralStep s = some t) :
    ∃ hp cp flt draws, t = { s with hp := hp, cp := cp, flt := flt, draws := draws, hwTurn := false } := by
  obtain ⟨out, -, -, rfl⟩ | ⟨-, -, rfl⟩ := hostPeripheralStep_cases h
  · exact hsComplete_frame out s
  · exact hsStart_frame s

/-- Of the Client side a command of the host program writes at most Slave-Select, its flag, and, de-asserting, the latch
(R2, R200, R201). -/
theorem exec_host_clientSide {i : Instr} {s t : State} (hi : i.stream = .host) (h : exec i s = .next t) :
    t.ce = s.ce ∧
    (t.cp = s.cp ∨ t.cp = { s.cp with ss := true, sof := true } ∨
      t.cp = { s.cp with ss := false, eof := true, sh := .idle }) := by
  by_cases ha : i = .envSsa
  · subst ha
    obtain rfl := Host.Outcome.next.inj h
    split
    · exact ⟨rfl, .inl rfl⟩
    · exact ⟨rfl, .inr (.inl rfl)⟩
  · by_cases hd : i = .envSsd
    · subst hd
      obtain rfl := Host.Outcome.next.inj h
      split
      · exact ⟨rfl, .inr (.inr rfl)⟩
      · exact ⟨rfl, .inl rfl⟩
    · obtain ⟨hcp, hce, -⟩ := (sidesAreIsolated i s t h).1 hi ha hd s.cp s.ce
      exact ⟨hce, .inl hcp⟩

/-! ### Programs, parameters and the mark -/

/-- Settles O55: only a command of the host program writes `pc`, only one of the client program writes `cpc`, and no step
writes the programs or the parameters. -/
theorem programsAndParametersNeverWritten : Obligations.ProgramsAndParametersNeverWritten := by
  intro s t h
  obtain ⟨-, rfl⟩ | rfl | rfl | ⟨i, hi, h⟩ | ⟨i, hi, h⟩ | h | ⟨e, -, -, rfl⟩ := step_cases h
  · simp
  · simp
  · simp
  · obtain ⟨_, _, _, _, _, _, _, _, _, _, _, _, rfl, hpc, -, -⟩ := exec_host_frame (State.hostIssue_stream hi).1 h
    simpa using hpc
  · obtain ⟨_, _, _, _, _, _, rfl⟩ := exec_client_frame (State.clientIssue_stream hi).1 h
    simp
  · obtain ⟨_, _, _, _, rfl⟩ := hostPeripheralStep_frame h
    simp
  · obtain ⟨_, _, _, _, hf⟩ := runHandler_frame e s.takePick
    simp [hf]

/-- No step clears or replaces the mark (R46). -/
theorem step_keepsMark {s t : State} (h : step s = .next t) : KeepsMark s.refused t.refused := by
  rw [← s.takePick_refused]
  obtain ⟨-, rfl⟩ | rfl | rfl | ⟨i, hi, h⟩ | ⟨i, hi, h⟩ | h | ⟨e, -, -, rfl⟩ := step_cases h
  · rw [State.takePick_refused]; exact KeepsMark.refl _
  · exact KeepsMark.refl _
  · exact s.takePick.refuse_keepsMark _
  · obtain ⟨_, _, _, _, _, _, _, _, _, _, _, _, rfl, -, -, hm⟩ := exec_host_frame (State.hostIssue_stream hi).1 h
    exact hm
  · obtain ⟨_, _, _, _, _, _, rfl⟩ := exec_client_frame (State.clientIssue_stream hi).1 h
    exact KeepsMark.refl _
  · obtain ⟨_, _, _, _, rfl⟩ := hostPeripheralStep_frame h
    exact KeepsMark.refl _
  · obtain ⟨_, _, _, _, hf⟩ := runHandler_frame e s.takePick
    rw [hf]; exact KeepsMark.refl _

/-- A picked host program at a reserved word is refused, its pick taken (R88). -/
theorem step_host_reserved {s : State} {e : Event} {rest : List Pick} (h : s.picks = ⟨.hostProgram, e⟩ :: rest)
    (hi : s.hostIssue = .reserved) : step s = .next ((s.after e rest).refuse .reservedEncoding) := by
  rw [step_of_host h, hi, runIssue]

/-- A picked client program at a reserved word is refused, its pick taken (R88). -/
theorem step_client_reserved {s : State} {e : Event} {rest : List Pick} (h : s.picks = ⟨.clientProgram, e⟩ :: rest)
    (hi : s.clientIssue = .reserved) : step s = .next ((s.after e rest).refuse .reservedEncoding) := by
  rw [step_of_client h, hi, runIssue]

/-- A stream at a refused command has no step once the mark is set (R46). -/
theorem State.hostEnabled_of_refused {s : State} (hm : s.refused ≠ none)
    (h : (∃ i, s.hostIssue = .command i ∧ s.operandRefused i = true) ∨ s.hostIssue = .reserved) :
    s.enabled .hostProgram = false := by
  have hn : s.refused.isNone = false := by simpa [Option.isSome_iff_ne_none] using hm
  obtain ⟨i, hi, hr⟩ | hi := h
  · simp [State.enabled, State.hostEnabled, hi, hr, hn]
  · simp [State.enabled, State.hostEnabled, hi, hn]

theorem State.clientEnabled_of_refused {s : State} (hm : s.refused ≠ none) (h : s.clientIssue = .reserved) :
    s.enabled .clientProgram = false := by
  have hn : s.refused.isNone = false := by simpa [Option.isSome_iff_ne_none] using hm
  simp [State.enabled, State.clientEnabled, h, hn]

/-- A Host engine command in `Idle` with bad operands is one the stream finds refused (R88, R143). -/
theorem State.operandRefused_of_bad {s : State} {i : Instr} {k : Mode} {t r : Bool} {len : Byte}
    (he : i.engine? = some (k, t, r, len)) (hp : s.he.phase = .idle) (hb : s.badOperand t r len = true) :
    s.operandRefused i = true := by
  simp [State.operandRefused, he, hp, hb]

/-- Settles O9: a refused command steps to `State.refuse`, which every later step keeps and which disables its stream. -/
theorem refusalMarksAndStops : Obligations.RefusalMarksAndStops := by
  refine ⟨?_, ?_, ?_, fun s t q h => step_keepsMark h q,
    fun s hm => ⟨State.hostEnabled_of_refused hm, State.clientEnabled_of_refused hm⟩, rfl⟩
  · intro s c e rest hp hc hw
    have hi : s.hostIssue = .reserved := by
      rw [State.hostIssue_eq hc]
      exact issueWord_reserved (hw.imp_right fun ⟨i, hd, hs⟩ => ⟨i, hd, by simp [hs]⟩)
    exact step_host_reserved hp hi
  · intro s w e rest hp hc hw
    have hi : s.clientIssue = .reserved := by
      rw [State.clientIssue_eq hc]
      exact issueWord_reserved (hw.imp_right fun ⟨i, hd, hs⟩ => ⟨i, hd, by simp [hs]⟩)
    exact step_client_reserved hp hi
  · intro s c i k t r len e rest hp hc hd he hph hb
    have hr : (s.after e rest).operandRefused i = true := State.operandRefused_of_bad he hph hb
    rw [stepRunsHostCommand s c i e rest hp hc hd (Instr.stream_of_engine he), exec_operandRefused hr]
    rfl

/-! ### The Client latch -/

/-- What the steps of the Client side do to the latch: Slave-Select stays, and the latch stays or is emptied (R184, R229). -/
def KeepsLatch (s t : State) : Prop := t.cp.ss = s.cp.ss ∧ (t.cp.sh = s.cp.sh ∨ t.cp.sh = .idle)

theorem KeepsLatch.of_cp {s t : State} (h : t.cp = s.cp) : KeepsLatch s t := by simp [KeepsLatch, h]

theorem KeepsLatch.trans {s t u : State} (h : KeepsLatch s t) (h' : KeepsLatch t u) : KeepsLatch s u := by
  obtain ⟨hss, hsh⟩ := h
  obtain ⟨hss', hsh'⟩ := h'
  refine ⟨hss'.trans hss, ?_⟩
  obtain hsh' | hsh' := hsh'
  · rw [hsh']; exact hsh
  · exact .inr hsh'

/-- An empty latch is framed. -/
theorem State.latchFramed_of_empty {s : State} (h : s.cp.sh = .idle) : s.latchFramed := fun hl => absurd h hl

/-- The framing survives a step that keeps the latch and the byte in flight. -/
theorem KeepsLatch.framed {s t : State} (h : KeepsLatch s t) (hh : t.hp.sh = s.hp.sh) (hs : s.latchFramed) :
    t.latchFramed := by
  obtain ⟨hss, hsh⟩ := h
  intro hl
  obtain hsh | hsh := hsh
  · rw [hss, hh]; exact hs (hsh ▸ hl)
  · exact absurd hsh hl

theorem cRdrxEffect_keepsLatch (s : State) : KeepsLatch s (cRdrxEffect s).2 := by
  obtain ⟨b, rest, -, h⟩ | ⟨-, h⟩ := cRdrxEffect_cases s <;> rw [h] <;> exact ⟨rfl, .inl rfl⟩

theorem cWrtxEffect_keepsLatch (b : Byte) (s : State) : KeepsLatch s (cWrtxEffect b s) := by
  rw [cWrtxEffect_eq]; exact ⟨rfl, .inl rfl⟩

theorem ceRecvEffect_keepsLatch (b : Byte) (s : State) : KeepsLatch s (ceRecvEffect b s) := by
  obtain ⟨-, h⟩ | ⟨-, h⟩ := ceRecvEffect_cases b s <;> rw [h] <;> exact .of_cp rfl

theorem ceReqEffect_keepsLatch (s : State) : KeepsLatch s (ceReqEffect s).2 := by
  obtain ⟨-, h⟩ | ⟨-, h⟩ := ceReqEffect_cases s <;> rw [h] <;> exact .of_cp rfl

theorem runHandler_keepsLatch (e : Event) (s : State) : KeepsLatch s (runHandler e s) := by
  cases e with
  | start => exact ⟨rfl, .inl rfl⟩
  | stop => exact ⟨rfl, .inr rfl⟩
  | rx => exact (cRdrxEffect_keepsLatch s).trans (ceRecvEffect_keepsLatch _ _)
  | tx => exact (ceReqEffect_keepsLatch s).trans (cWrtxEffect_keepsLatch _ _)

theorem dispatchOne_keepsLatch (s : State) : KeepsLatch s (dispatchOne s) := by
  obtain ⟨e, -, -, h⟩ | ⟨-, h⟩ := dispatchOne_cases s <;> rw [h]
  · exact runHandler_keepsLatch e s
  · exact .of_cp rfl

theorem exec_client_keepsLatch {i : Instr} {s t : State} (hi : i.stream = .client) (h : exec i s = .next t) :
    KeepsLatch s t := by
  cases i <;> simp only [Instr.stream, Instr.unit, CmdUnit.stream, reduceCtorEq] at hi <;>
    obtain rfl := Host.Outcome.next.inj h
  case cClrbuf => exact ⟨rfl, .inr rfl⟩
  case ceStop => exact ⟨rfl, .inr rfl⟩
  case cWrtx b => exact cWrtxEffect_keepsLatch b s
  case cRdrx => exact cRdrxEffect_keepsLatch s
  case ceRecv b => exact ceRecvEffect_keepsLatch b s
  case ceReq => exact ceReqEffect_keepsLatch s
  case ceDispatch => exact dispatchOne_keepsLatch s
  all_goals exact ⟨rfl, .inl rfl⟩

/-- A Slave-Select edge keeps the framing: an assertion leaves the latch, a de-assertion empties it (R200, R201). -/
theorem exec_host_latchFramed {i : Instr} {s t : State} (hi : i.stream = .host) (h : exec i s = .next t)
    (hs : s.latchFramed) : t.latchFramed := by
  have hsh : t.hp.sh = s.hp.sh := by
    obtain ⟨_, _, _, _, _, _, _, _, _, _, _, _, rfl, -, hsh, -⟩ := exec_host_frame hi h
    exact hsh
  obtain ⟨-, hcp | hcp | hcp⟩ := exec_host_clientSide hi h
  · exact KeepsLatch.framed (.of_cp hcp) hsh hs
  · unfold State.latchFramed
    rw [hcp, hsh]
    exact fun hl => ⟨rfl, (hs hl).2⟩
  · exact State.latchFramed_of_empty (by rw [hcp])

/-- HS_COMPLETE empties the latch (R183). -/
theorem hsComplete_latch (out : Byte) (s : State) : (hsComplete out s).cp.sh = .idle := by
  obtain ⟨c, -, h⟩ | ⟨v, hsh, -, h⟩ | ⟨hsh, -, h⟩ := clientCapture_cases out s <;> simp only [hsComplete, h]
  · exact hsh
  · exact hsh

/-- A byte is latched only while Slave-Select is asserted (R182). -/
theorem clientLatch_ss {s : State} (hs : s.cp.sh ≠ .idle → s.cp.ss = true) (hl : (clientLatch s).cp.sh ≠ .idle) :
    (clientLatch s).cp.ss = true := by
  obtain ⟨-, h⟩ | ⟨b, rest, hss, -, h⟩ | ⟨hss, -, h⟩ := clientLatch_cases s <;> rw [h] at hl ⊢
  · exact hs hl
  · exact hss
  · exact hss

/-- A byte step keeps the framing: HS_START puts a byte in flight, HS_COMPLETE empties the latch (R110, R111). -/
theorem hostPeripheralStep_latchFramed {s t : State} (h : hostPeripheralStep s = some t) (hs : s.latchFramed) :
    t.latchFramed := by
  obtain ⟨out, -, -, rfl⟩ | ⟨-, -, rfl⟩ := hostPeripheralStep_cases h
  · exact State.latchFramed_of_empty (hsComplete_latch out s)
  · intro hl
    refine ⟨clientLatch_ss (fun h => (hs h).1) hl, ?_⟩
    rw [hsStart_hp]
    simp

theorem State.takePick_latchFramed {s : State} (hs : s.latchFramed) : s.takePick.latchFramed := by
  simpa [State.latchFramed] using hs

/-- Settles O22: the commands and the handlers keep or empty the latch, the Slave-Select edges and the byte steps move it
with what frames it. -/
theorem clientLatchStaysFramed : Obligations.ClientLatchStaysFramed := by
  intro s t hs h
  have hs' := State.takePick_latchFramed hs
  obtain ⟨-, rfl⟩ | rfl | rfl | ⟨i, hi, h⟩ | ⟨i, hi, h⟩ | h | ⟨e, -, -, rfl⟩ := step_cases h
  · exact hs
  · exact hs'
  · exact hs'
  · exact exec_host_latchFramed (State.hostIssue_stream hi).1 h hs'
  · have hcl := (State.clientIssue_stream hi).1
    have hl := exec_client_keepsLatch hcl h
    obtain ⟨_, _, _, _, _, _, rfl⟩ := exec_client_frame hcl h
    exact hl.framed rfl hs'
  · exact hostPeripheralStep_latchFramed h hs'
  · have hl := runHandler_keepsLatch e s.takePick
    obtain ⟨_, _, _, _, hf⟩ := runHandler_frame e s.takePick
    exact hl.framed (by rw [hf]) hs'

end Sys2Proof.Machine
end

section
/-! No command reads `res` (10_state.md R21): with another value in it a command either does the same and leaves that
value, or, returning, overwrites it and answers the same state. -/

namespace Sys2Proof.Machine

/-- The state with another value in `res`. -/
def State.withRes (v : Byte) (w : Bool) (s : State) : State := { s with res := v, resValid := w }

/-- The commands that return a value in `res` (R21); an operation of the Host engine writes it when it returns. -/
def returningCommands : List Instr :=
  [.hTcz, .hTxspc, .hRxdat, .hRdrx, .cSof, .cEof, .cRxdat, .cTxspc, .cRdrx, .ceReq]

section
variable (v : Byte) (w : Bool) (s : State)

@[simp] theorem State.withRes_hp : (s.withRes v w).hp = s.hp := rfl
@[simp] theorem State.withRes_he : (s.withRes v w).he = s.he := rfl
@[simp] theorem State.withRes_cp : (s.withRes v w).cp = s.cp := rfl
@[simp] theorem State.withRes_ce : (s.withRes v w).ce = s.ce := rfl
@[simp] theorem State.withRes_cfg : (s.withRes v w).cfg = s.cfg := rfl

/-! ### Operations of the Host engine -/

theorem loadTx_withRes (i : Nat) : loadTx i (s.withRes v w) = (loadTx i s).map (State.withRes v w) := by
  have hx : (s.withRes v w).txByte i = s.txByte i := rfl
  simp only [loadTx, hx, hWrtxEffect_eq, Option.map_map]; rfl

theorem store_withRes (b : Byte) : store b (s.withRes v w) = (store b s).map (State.withRes v w) := by
  unfold store
  rw [State.withRes_he]
  split
  · cases s.he.rx with
    | none => rfl
    | some n =>
      have hs : (s.withRes v w).spaceSize (.rxb n) = s.spaceSize (.rxb n) := rfl
      simp only [State.memWrite, hs]
      split <;> rfl
  · rfl

theorem drain_withRes : drain (s.withRes v w) = (drain s).map (State.withRes v w) := by
  unfold drain
  rw [State.withRes_he, State.withRes_hp]
  split
  · cases s.hp.rxf with
    | nil => rfl
    | cons b rest => exact store_withRes v w { s with hp := { s.hp with rxf := rest } } b
  · rfl

/-- S0 writes `res` where it rejects the length, which returns (R142). -/
theorem engineS0_withRes (k : Mode) (t r : Bool) (len : Byte) :
    engineS0 k t r len (s.withRes v w) = mapNext (State.withRes v w) (engineS0 k t r len s) ∨
    engineS0 k t r len (s.withRes v w) = engineS0 k t r len s ∧
      ∀ u, engineS0 k t r len s = .next u → u.pc = s.pc + 1 := by
  have hb : (s.withRes v w).badOperand t r len = s.badOperand t r len := rfl
  have hl : (s.withRes v w).lengthValid len = s.lengthValid len := rfl
  unfold engineS0
  rw [hb, hl]
  split
  · exact .inl rfl
  · split
    · exact .inl (by simp only [hClrbufEffect_eq]; rfl)
    · exact .inr ⟨rfl, fun u h => by rw [← hostCommand_next.1 h]; rfl⟩

theorem engineS2_withRes : engineS2 (s.withRes v w) = (engineS2 s).map (State.withRes v w) := by
  unfold engineS2
  rw [State.withRes_he, loadTx_withRes]
  split <;> simp only [Option.map_map, Option.map_some] <;> rfl

theorem engineL1_withRes : engineL1 (s.withRes v w) = (engineL1 s).map (State.withRes v w) := by
  have hsp : (s.withRes v w).hostTxSpace = s.hostTxSpace := rfl
  unfold engineL1
  rw [State.withRes_he, hsp, loadTx_withRes]
  split <;> simp only [Option.map_map, Option.map_some] <;> rfl

theorem engineL2_withRes : engineL2 (s.withRes v w) = (engineL2 s).map (State.withRes v w) := by
  simp only [engineL2, drain_withRes, Option.map_map]; rfl

theorem engineL3_withRes : engineL3 (s.withRes v w) = (engineL3 s).withRes v w := by
  have hx : (s.withRes v w).hostCountZero = s.hostCountZero := rfl
  unfold engineL3
  rw [hx]
  split <;> rfl

/-- D returns, so it overwrites `res` (R152). -/
theorem engineD_withRes : engineD (s.withRes v w) = engineD s := by
  simp only [engineD, drain_withRes, Option.map_map]; rfl

/-- D advances the program counter. -/
theorem engineD_pc {s u : State} (h : engineD s = some u) : u.pc = s.pc + 1 := by
  obtain ⟨u', hu, rfl⟩ := engineD_cases h
  obtain ⟨_, _, _, rfl, -⟩ := drain_frame hu
  rfl

/-- A phase leaves `res`, or returns and overwrites it (R141, R142, R152). -/
theorem engineStep_withRes (k : Mode) (t r : Bool) (len : Byte) :
    engineStep k t r len (s.withRes v w) = mapNext (State.withRes v w) (engineStep k t r len s) ∨
    engineStep k t r len (s.withRes v w) = engineStep k t r len s ∧
      ∀ u, engineStep k t r len s = .next u → u.pc = s.pc + 1 := by
  unfold engineStep
  rw [State.withRes_he]
  cases s.he.phase with
  | idle => exact engineS0_withRes v w s k t r len
  | s0 => exact engineS0_withRes v w s k t r len
  | s1 => exact .inl (by simp only [engineS1_eq]; rfl)
  | s2 => exact .inl (by simp only [engineS2_withRes, phaseResult_map])
  | s3 => exact .inl (by simp only [engineS3_eq]; rfl)
  | l1 => exact .inl (by simp only [engineL1_withRes, phaseResult_map])
  | l2 => exact .inl (by simp only [engineL2_withRes, phaseResult_map])
  | l3 => exact .inl (congrArg Host.Outcome.next (engineL3_withRes v w s))
  | d => exact .inr ⟨by simp only [engineD_withRes], fun u h => engineD_pc (phaseResult_next.1 h)⟩

/-! ### The other commands -/

theorem hRdrxEffect_withRes : hRdrxEffect (s.withRes v w) = ((hRdrxEffect s).1, (hRdrxEffect s).2.withRes v w) := by
  cases h : s.hp.rxf <;> simp only [hRdrxEffect, State.withRes_hp, h] <;> rfl

theorem cRdrxEffect_withRes : cRdrxEffect (s.withRes v w) = ((cRdrxEffect s).1, (cRdrxEffect s).2.withRes v w) := by
  cases h : s.cp.rxf <;> simp only [cRdrxEffect, State.withRes_cp, h] <;> rfl

theorem cWrtxEffect_withRes (b : Byte) : cWrtxEffect b (s.withRes v w) = (cWrtxEffect b s).withRes v w := by
  simp only [cWrtxEffect_eq]; rfl

theorem ceRecvEffect_withRes (b : Byte) : ceRecvEffect b (s.withRes v w) = (ceRecvEffect b s).withRes v w := by
  unfold ceRecvEffect
  rw [State.withRes_ce, State.withRes_cfg]
  split <;> rfl

theorem ceReqEffect_withRes : ceReqEffect (s.withRes v w) = ((ceReqEffect s).1, (ceReqEffect s).2.withRes v w) := by
  unfold ceReqEffect
  rw [State.withRes_ce, State.withRes_cfg]
  split <;> rfl

/-- A handler writes no `res` (R229). -/
theorem runHandler_withRes (e : Event) : runHandler e (s.withRes v w) = (runHandler e s).withRes v w := by
  cases e with
  | start => rfl
  | stop => rfl
  | rx => simp only [runHandler, handleRx, cRdrxEffect_withRes, ceRecvEffect_withRes]
  | tx => simp only [runHandler, handleTx, ceReqEffect_withRes, cWrtxEffect_withRes]

theorem dispatchOne_withRes : dispatchOne (s.withRes v w) = (dispatchOne s).withRes v w := by
  have hx : (s.withRes v w).chosenEvent = s.chosenEvent := rfl
  unfold dispatchOne
  rw [hx]
  cases s.chosenEvent with
  | none => rfl
  | some e => exact runHandler_withRes v w s e

end

/-- A returning command overwrites `res`, so it answers the same state whatever `res` holds. -/
theorem exec_withRes_of_returning {i : Instr} (h : i ∈ returningCommands) (v : Byte) (w : Bool) (s : State) :
    exec i (s.withRes v w) = exec i s := by
  cases i <;>
    simp only [returningCommands, List.mem_cons, List.not_mem_nil, reduceCtorEq, or_false, or_true, or_self] at h
  case hRdrx => simp only [exec, execHRdrx, hRdrxEffect_withRes]; rfl
  case cRdrx => simp only [exec, execCRdrx, cRdrxEffect_withRes]; rfl
  case ceReq => simp only [exec, execCeReq, ceReqEffect_withRes]; rfl
  all_goals rfl

/-- A command that returns no value leaves `res` and does not read it. -/
theorem commutesWith_withRes {i : Instr} (he : i.engine? = none) (hr : i ∉ returningCommands) (v : Byte) (w : Bool) :
    CommutesWith i (State.withRes v w) := by
  intro s
  cases i <;> simp only [Instr.engine?, reduceCtorEq] at he <;>
    simp only [returningCommands, List.mem_cons, List.not_mem_nil, reduceCtorEq, or_self, or_false, or_true,
      not_true_eq_false] at hr
  case hClrbuf => simp only [exec, execHClrbuf, hClrbufEffect_eq]; rfl
  case hSetdir => simp only [exec, execHSetdir, hSetdirEffect_eq]; rfl
  case hLdtcnt => simp only [exec, execHLdtcnt, hLdtcntEffect_eq]; rfl
  case hWrtx => simp only [exec, execHWrtx, hWrtxEffect_eq]; rfl
  case cWrtx => simp only [exec, execCWrtx, cWrtxEffect_withRes]; rfl
  case ceRecv => simp only [exec, execCeRecv, ceRecvEffect_withRes]; rfl
  case ceDispatch => simp only [exec, execCeDispatch, dispatchOne_withRes]; rfl
  case envSsa => cases hss : s.cp.ss <;> simp only [exec, execEnvSsa, State.withRes_cp, hss] <;> rfl
  case envSsd => cases hss : s.cp.ss <;> simp only [exec, execEnvSsd, State.withRes_cp, hss] <;> rfl
  all_goals rfl

/-- With another `res` a command does the same and leaves it, or it returns and answers the same state. -/
theorem exec_withRes (i : Instr) (v : Byte) (w : Bool) (s : State) :
    exec i (s.withRes v w) = mapNext (State.withRes v w) (exec i s) ∨
    exec i (s.withRes v w) = exec i s ∧
      (i ∈ returningCommands ∨ i.engine? ≠ none ∧ ∀ u, exec i s = .next u → u.pc = s.pc + 1) := by
  cases he : i.engine? with
  | some x =>
    obtain ⟨k, t, r, len⟩ := x
    simp only [exec_engine he]
    exact (engineStep_withRes v w s k t r len).imp_right fun ⟨h, hpc⟩ => ⟨h, .inr ⟨by simp, hpc⟩⟩
  | none =>
    by_cases hr : i ∈ returningCommands
    · exact .inr ⟨exec_withRes_of_returning hr v w s, .inl hr⟩
    · exact .inl (commutesWith_withRes he hr v w s)

/-- Settles O56: for the value `res` holds, the first case of `exec_withRes` says that it is left; for any other, both
cases give the other effects. -/
theorem resultWrittenOnlyByReturningCommands : Obligations.ResultWrittenOnlyByReturningCommands := by
  intro i s t h
  constructor
  · intro hr hret
    obtain hc | ⟨-, hi | ⟨he, hpc⟩⟩ := exec_withRes i s.res s.resValid s
    · have hkeep : t = t.withRes s.res s.resValid := by
        rw [show s.withRes s.res s.resValid = s from rfl, h] at hc
        exact Host.Outcome.next.inj hc
      rw [hkeep]; exact ⟨rfl, rfl⟩
    · exact absurd hi hr
    · obtain hn | hn := hret
      · exact absurd hn he
      · have := hpc t h; omega
  · intro v w
    obtain hc | ⟨hc, -⟩ := exec_withRes i v w s <;> rw [h] at hc
    · exact ⟨t.withRes v w, hc, rfl⟩
    · exact ⟨t, hc, rfl⟩

end Sys2Proof.Machine
end

section
/-! The invariant of the block (10_state.md R22 to R35) under every step. It is taken apart by owner: what the Host
peripheral holds, what the Client side holds, the receive sequences, the program counters, and the operands of the
operation under way. Each effect keeps its owner's share, and the invariant is put together again from the shares. -/

namespace Sys2Proof.Machine

/-- The Host peripheral's share: its FIFOs within their depths and the counter within its width (R24, R25, R26). -/
structure HostWithin (cfg : Config) (hp : HostPeripheral) : Prop where
  txf : hp.txf.length ≤ cfg.txd
  rxf : hp.rxf.length ≤ cfg.rxd
  tcnt : hp.tcnt < 2 ^ cfg.tcntW

/-- The Client side's share: its FIFOs, its cursors and the FrameBuffer (R30, R34, R35). -/
structure ClientWithin (cfg : Config) (cp : ClientPeripheral) (ce : ClientEngine) : Prop where
  txf : cp.txf.length ≤ cfg.txd
  rxf : cp.rxf.length ≤ cfg.rxd
  rc : ce.rc ≤ cfg.cap
  wc : ce.wc ≤ cfg.cap
  buf : ce.buf.wf cfg.cap = true

/-- The receive sequences' share (R62). -/
def SequencesWf (bufs : List Space) : Prop := ∀ b ∈ bufs, b.cells.wf b.size = true

/-- The operands of an operation under way (R29, R61, R62, R140): the body of `State.engineWf`. -/
structure State.Captured (s : State) : Prop where
  len_pos : 1 ≤ s.he.len
  len_byte : s.he.len ≤ 255
  len_max : s.he.len ≤ s.cfg.lenMax
  w_le : s.he.w ≤ s.he.len
  r_le : s.he.r ≤ s.he.len
  tx_fits : ∀ xs, s.he.tx = some xs → s.he.len ≤ xs.length
  rx_fits : ∀ n, s.he.rx = some n → s.he.len ≤ s.spaceSize (.rxb n)
  issued : ∃ i t r len, s.hostIssue = .command i ∧ i.engine? = some (s.he.mode, t, r, len)

theorem State.engineWf_iff {s : State} :
    s.engineWf ↔ s.he.phase ≠ .s0 ∧ (s.he.phase.running = true → s.Captured) := by
  refine and_congr_right fun _ => imp_congr_right fun _ => ⟨?_, ?_⟩
  · rintro ⟨h1, h2, h3, h4, h5, h6, h7, h8⟩
    exact ⟨h1, h2, h3, h4, h5, h6, h7, h8⟩
  · rintro ⟨h1, h2, h3, h4, h5, h6, h7, h8⟩
    exact ⟨h1, h2, h3, h4, h5, h6, h7, h8⟩

namespace State.Inv

variable {s : State} (h : s.Inv)
include h

theorem host : HostWithin s.cfg s.hp := ⟨h.fifos.1, h.fifos.2.1, h.counter⟩

theorem client : ClientWithin s.cfg s.cp s.ce :=
  ⟨h.fifos.2.2.1, h.fifos.2.2.2, h.cursors.1, h.cursors.2, h.memory.1⟩

theorem sequences : SequencesWf s.rxb := h.memory.2.2

theorem captured (hr : s.he.phase.running = true) : s.Captured := (State.engineWf_iff.1 h.engine).2 hr

/-- The invariant from its shares, the parameters unchanged. -/
theorem of_shares {t : State} (hcfg : t.cfg = s.cfg) (hhost : HostWithin t.cfg t.hp)
    (hclient : ClientWithin t.cfg t.cp t.ce) (hseq : SequencesWf t.rxb) (hpcs : t.pcsBounded) (hengine : t.engineWf) :
    t.Inv where
  cfg := by rw [hcfg]; exact h.cfg
  counter := hhost.tcnt
  fifos := ⟨hhost.txf, hhost.rxf, hclient.txf, hclient.rxf⟩
  cursors := ⟨hclient.rc, hclient.wc⟩
  memory := ⟨hclient.buf, by rw [hcfg]; exact h.memory.2.1, hseq⟩
  pcs := hpcs
  engine := hengine

end State.Inv

/-! ### Host peripheral -/

theorem State.loadedCount_lt (s : State) (n : Byte) : s.loadedCount n < 2 ^ s.cfg.tcntW :=
  Nat.mod_lt _ (Nat.two_pow_pos _)

/-- A push where the FIFO has space, else nothing, keeps the depth. -/
theorem length_push_le {f : List Byte} {b : Byte} {c : Bool} {depth : Nat} (hc : c = decide (f.length < depth))
    (hf : f.length ≤ depth) : (if c then f ++ [b] else f).length ≤ depth := by
  subst hc
  split
  next hlt =>
    have hlt : f.length < depth := by simpa using hlt
    simpa using hlt
  next => exact hf

theorem hWrtxEffect_within {s : State} (b : Byte) (h : HostWithin s.cfg s.hp) :
    HostWithin (hWrtxEffect b s).cfg (hWrtxEffect b s).hp := by
  rw [hWrtxEffect_eq]
  exact ⟨length_push_le rfl h.txf, h.rxf, h.tcnt⟩

theorem hRdrxEffect_within {s : State} (h : HostWithin s.cfg s.hp) :
    HostWithin (hRdrxEffect s).2.cfg (hRdrxEffect s).2.hp := by
  obtain ⟨b, rest, hr, hs⟩ | ⟨-, hs⟩ := hRdrxEffect_cases s <;> rw [hs]
  · have hrest : rest.length ≤ s.hp.rxf.length := by simp [hr]
    exact ⟨h.txf, hrest.trans h.rxf, h.tcnt⟩
  · exact h

theorem hostPeripheralStep_within {s t : State} (h : hostPeripheralStep s = some t) (hs : HostWithin s.cfg s.hp) :
    HostWithin t.cfg t.hp := by
  have htcnt := hs.tcnt
  rw [(hostPeripheralStep_cfg h).1]
  obtain ⟨out, rxf, -, hfit, ht⟩ | ⟨out, -, -, -, ht⟩ := hostPeripheralStep_hp h <;> rw [ht]
  · exact ⟨hs.txf, hfit hs.rxf, by dsimp only; split <;> omega⟩
  · refine ⟨?_, hs.rxf, by dsimp only; split <;> omega⟩
    have htail : s.hp.txf.tail.length ≤ s.hp.txf.length := by simp
    dsimp only
    split
    · exact htail.trans hs.txf
    · exact hs.txf

/-- The commands of the host program other than the operations keep the Host peripheral's share. -/
theorem exec_hostPeripheral_within {i : Instr} {s t : State} (hi : i.stream = .host) (he : i.engine? = none)
    (h : exec i s = .next t) (hs : HostWithin s.cfg s.hp) : HostWithin t.cfg t.hp := by
  cases i <;> simp only [Instr.stream, Instr.unit, CmdUnit.stream, Instr.engine?, reduceCtorEq] at hi he <;>
    obtain rfl := Host.Outcome.next.inj h
  case hClrbuf => rw [hClrbufEffect_eq]; exact ⟨Nat.zero_le _, Nat.zero_le _, hs.tcnt⟩
  case hSetdir => rw [hSetdirEffect_eq]; exact ⟨hs.txf, hs.rxf, hs.tcnt⟩
  case hLdtcnt n => rw [hLdtcntEffect_eq]; exact ⟨hs.txf, hs.rxf, s.loadedCount_lt n⟩
  case hWrtx b => exact hWrtxEffect_within b hs
  case hRdrx => exact hRdrxEffect_within hs
  case envSsa => split <;> exact hs
  case envSsd => split <;> exact hs
  all_goals exact hs

/-! ### Client side -/

theorem cWrtxEffect_within {s : State} (b : Byte) (h : ClientWithin s.cfg s.cp s.ce) :
    ClientWithin (cWrtxEffect b s).cfg (cWrtxEffect b s).cp (cWrtxEffect b s).ce := by
  rw [cWrtxEffect_eq]
  exact { h with txf := length_push_le rfl h.txf }

theorem cRdrxEffect_within {s : State} (h : ClientWithin s.cfg s.cp s.ce) :
    ClientWithin (cRdrxEffect s).2.cfg (cRdrxEffect s).2.cp (cRdrxEffect s).2.ce := by
  obtain ⟨b, rest, hr, hs⟩ | ⟨-, hs⟩ := cRdrxEffect_cases s <;> rw [hs]
  · have hrest : rest.length ≤ s.cp.rxf.length := by simp [hr]
    exact { h with rxf := hrest.trans h.rxf }
  · exact h

theorem ceRecvEffect_within {s : State} (b : Byte) (h : ClientWithin s.cfg s.cp s.ce) :
    ClientWithin (ceRecvEffect b s).cfg (ceRecvEffect b s).cp (ceRecvEffect b s).ce := by
  obtain ⟨hlt, hs⟩ | ⟨-, hs⟩ := ceRecvEffect_cases b s <;> rw [hs]
  · exact { h with rc := hlt, buf := Memory.wf_insert h.buf hlt }
  · exact h

theorem ceReqEffect_within {s : State} (h : ClientWithin s.cfg s.cp s.ce) :
    ClientWithin (ceReqEffect s).2.cfg (ceReqEffect s).2.cp (ceReqEffect s).2.ce := by
  obtain ⟨hlt, hs⟩ | ⟨-, hs⟩ := ceReqEffect_cases s <;> rw [hs]
  · exact { h with wc := hlt }
  · exact h

theorem runHandler_within {s : State} (e : Event) (h : ClientWithin s.cfg s.cp s.ce) :
    ClientWithin (runHandler e s).cfg (runHandler e s).cp (runHandler e s).ce := by
  cases e with
  | start => exact { h with rc := Nat.zero_le _, wc := Nat.zero_le _ }
  | stop => exact ⟨Nat.zero_le _, Nat.zero_le _, Nat.zero_le _, Nat.zero_le _, h.buf⟩
  | rx => exact ceRecvEffect_within _ (cRdrxEffect_within h)
  | tx => exact cWrtxEffect_within _ (ceReqEffect_within h)

theorem dispatchOne_within {s : State} (h : ClientWithin s.cfg s.cp s.ce) :
    ClientWithin (dispatchOne s).cfg (dispatchOne s).cp (dispatchOne s).ce := by
  obtain ⟨e, -, -, hd⟩ | ⟨-, hd⟩ := dispatchOne_cases s <;> rw [hd]
  · exact runHandler_within e h
  · exact h

theorem exec_client_within {i : Instr} {s t : State} (hi : i.stream = .client) (h : exec i s = .next t)
    (hs : ClientWithin s.cfg s.cp s.ce) : ClientWithin t.cfg t.cp t.ce := by
  cases i <;> simp only [Instr.stream, Instr.unit, CmdUnit.stream, reduceCtorEq] at hi <;>
    obtain rfl := Host.Outcome.next.inj h
  case cClrbuf => exact { hs with txf := Nat.zero_le _, rxf := Nat.zero_le _ }
  case cWrtx b => exact cWrtxEffect_within b hs
  case cRdrx => exact cRdrxEffect_within hs
  case ceInit => exact { hs with rc := Nat.zero_le _, wc := Nat.zero_le _ }
  case ceStart => exact { hs with rc := Nat.zero_le _, wc := Nat.zero_le _ }
  case ceStop => exact ⟨Nat.zero_le _, Nat.zero_le _, Nat.zero_le _, Nat.zero_le _, hs.buf⟩
  case ceRecv b => exact ceRecvEffect_within b hs
  case ceReq => exact ceReqEffect_within hs
  case ceDispatch => exact dispatchOne_within hs
  all_goals exact { hs with }

/-- A Slave-Select edge leaves the Client's FIFOs, and any other command of the host program the whole Client side (R2). -/
theorem exec_host_client_within {i : Instr} {s t : State} (hi : i.stream = .host) (h : exec i s = .next t)
    (hs : ClientWithin s.cfg s.cp s.ce) : ClientWithin t.cfg t.cp t.ce := by
  have hcfg : t.cfg = s.cfg := by
    obtain ⟨_, _, _, _, _, _, _, _, _, _, _, _, rfl, -⟩ := exec_host_frame hi h
    rfl
  obtain ⟨hce, hcp | hcp | hcp⟩ := exec_host_clientSide hi h <;> rw [hcfg, hcp, hce]
  · exact hs
  · exact { hs with }
  · exact { hs with }

/-- HS_START takes a byte of the Client's transmit FIFO (R182). -/
theorem clientLatch_within {s : State} (h : ClientWithin s.cfg s.cp s.ce) :
    ClientWithin (clientLatch s).cfg (clientLatch s).cp (clientLatch s).ce := by
  obtain ⟨-, hs⟩ | ⟨b, rest, -, htx, hs⟩ | ⟨-, -, hs⟩ := clientLatch_cases s <;> rw [hs]
  · exact h
  · have hrest : rest.length ≤ s.cp.txf.length := by simp [htx]
    exact { h with txf := hrest.trans h.txf }
  · exact { h with }

/-- HS_COMPLETE gives the Client's receive FIFO a byte where it has room (R183). -/
theorem clientCapture_within {s : State} (out : Byte) (h : ClientWithin s.cfg s.cp s.ce) :
    ClientWithin (clientCapture out s).2.cfg (clientCapture out s).2.cp (clientCapture out s).2.ce := by
  obtain ⟨c, -, hs⟩ | ⟨v, -, -, hs⟩ | ⟨-, -, hs⟩ := clientCapture_cases out s <;> rw [hs]
  · exact { h with rxf := length_push_le rfl h.rxf }
  · exact h
  · exact h

theorem hostPeripheralStep_client_within {s t : State} (h : hostPeripheralStep s = some t)
    (hs : ClientWithin s.cfg s.cp s.ce) : ClientWithin t.cfg t.cp t.ce := by
  obtain ⟨out, -, -, rfl⟩ | ⟨-, -, rfl⟩ := hostPeripheralStep_cases h
  · exact clientCapture_within out hs
  · exact clientLatch_within hs

/-! ### The operation under way -/

/-- The operands stay captured while the operation goes from phase to phase: it moves its two indices within the length
and writes receive sequences without changing their sizes. -/
theorem State.Captured.advance {s : State} (h : s.Captured) {hp : HostPeripheral} {p : Phase} {w r : Nat}
    {rxb : List Space} {flt : BitVec 12} {turn : Bool} (hw : w ≤ s.he.len) (hr : r ≤ s.he.len)
    (hsize : ∀ n, ({ s with rxb := rxb } : State).spaceSize (.rxb n) = s.spaceSize (.rxb n)) :
    ({ s with
        hp := hp, he := { s.he with phase := p, w := w, r := r }, rxb := rxb, flt := flt, hwTurn := turn } :
      State).Captured :=
  { h with w_le := hw, r_le := hr, rx_fits := fun n hn => (hsize n).symm ▸ h.rx_fits n hn }

/-- What another agent's step leaves keeps the operation's operands captured. -/
theorem SameHost.engineWf {s t : State} (h : SameHost s t) (hs : s.engineWf) : t.engineWf := by
  obtain ⟨hp, hc⟩ := State.engineWf_iff.1 hs
  refine State.engineWf_iff.2 ⟨h.he ▸ hp, fun hr => ?_⟩
  obtain ⟨h1, h2, h3, h4, h5, h6, h7, h8⟩ := hc (h.he ▸ hr)
  refine ⟨?_, ?_, ?_, ?_, ?_, ?_, ?_, ?_⟩ <;> simpa only [h.he, h.cfg, h.issue, State.spaceSize, h.rxb]

/-- With no operation under way there is nothing to keep. -/
theorem State.engineWf_of_idle {s : State} (h : s.he.phase = .idle) : s.engineWf :=
  State.engineWf_iff.2 ⟨by simp [h], by simp [h, Phase.running]⟩

/-- An operation is under way only at a Host engine command (R140). -/
theorem State.engineWf.idle {s : State} {i : Instr} (h : s.engineWf) (hi : s.hostIssue = .command i)
    (he : i.engine? = none) : s.he.phase = .idle := by
  obtain ⟨hs0, hc⟩ := State.engineWf_iff.1 h
  by_contra hp
  obtain ⟨j, t, r, len, hj, hej⟩ := (hc (by simp [Phase.running, hp, hs0])).issued
  rw [hi] at hj
  obtain rfl := Issue.command.inj hj
  simp [he] at hej

theorem writeRxb_sequencesWf {s : State} {n i : Nat} {v : Byte} (h : SequencesWf s.rxb) (hi : i < s.spaceSize (.rxb n)) :
    SequencesWf (writeRxb s.rxb n i v) := by
  intro c hc
  obtain hc | ⟨b, hb, rfl⟩ := writeRxb_mem hc
  · exact h c hc
  · exact Memory.wf_insert (h b (List.mem_of_getElem? hb)) (by simpa [State.spaceSize, hb] using hi)

/-- A drain keeps the shares, and the phase (R149, R150). -/
theorem drain_keeps {s t : State} (h : drain s = some t) (hs : s.Captured) (hhost : HostWithin s.cfg s.hp)
    (hseq : SequencesWf s.rxb) :
    ∃ rxf r rxb, t = { s with hp := { s.hp with rxf := rxf }, he := { s.he with r := r }, rxb := rxb } ∧
      rxf.length ≤ s.cfg.rxd ∧ r ≤ s.he.len ∧ SequencesWf rxb ∧
      ∀ n, ({ s with rxb := rxb } : State).spaceSize (.rxb n) = s.spaceSize (.rxb n) := by
  obtain ⟨-, rfl⟩ | ⟨b, rest, -, hf, hst⟩ := drain_cases h
  · exact ⟨_, _, _, rfl, hhost.rxf, hs.r_le, hseq, fun _ => rfl⟩
  · have hrest : rest.length ≤ s.cfg.rxd := by
      have := hhost.rxf
      rw [hf, List.length_cons] at this
      omega
    obtain ⟨-, rfl⟩ | ⟨hlt, -, rfl⟩ | ⟨n, hlt, -, hin, rfl⟩ := store_cases hst
    · exact ⟨rest, _, _, rfl, hrest, hs.r_le, hseq, fun _ => rfl⟩
    · exact ⟨rest, _, _, rfl, hrest, hlt, hseq, fun _ => rfl⟩
    · exact ⟨rest, _, _, rfl, hrest, hlt, writeRxb_sequencesWf hseq hin, s.spaceSize_writeRxb n _ b⟩

/-! ### Steps of an operation -/

/-- The attached operands passed the check of S0, so they are at least `len` bytes (R143). -/
theorem State.operands_fit {s : State} {t r : Bool} {len : Byte} (hb : s.badOperand t r len = false) (hl : 1 ≤ len.toNat) :
    (∀ xs, s.attachedTx = some xs → len.toNat ≤ xs.length) ∧
    ∀ n, s.attachedRx = some n → len.toNat ≤ s.spaceSize (.rxb n) := by
  have h0 : len ≠ 0 := by
    rintro rfl
    simp at hl
  simp only [State.badOperand, Bool.or_eq_false_iff, Bool.and_eq_false_iff, bne_eq_false_iff_eq, h0, false_or,
    Bool.not_eq_false', State.operandsLargeEnough, Bool.and_eq_true] at hb
  obtain ⟨-, htx, hrx⟩ := hb
  constructor
  · intro xs h
    simpa [h] using htx
  · intro n h
    simpa [h] using hrx

/-- S0 captures operands that are large enough, of a length within `LEN_MAX` (R142, R143, R145). -/
theorem engineS0_captures {i : Instr} {k : Mode} {t r : Bool} {len : Byte} {s : State} {hp : HostPeripheral}
    {flt : BitVec 12} (hi : s.hostIssue = .command i) (he : i.engine? = some (k, t, r, len))
    (hb : s.badOperand t r len = false) (hl : s.lengthValid len = true) :
    ({ s with
        hp := hp
        he := { phase := .s1, mode := k, len := len.toNat, w := 0, r := 0, tx := s.attachedTx, rx := s.attachedRx }
        flt := flt } : State).Captured := by
  simp only [State.lengthValid, Bool.and_eq_true, decide_eq_true_eq] at hl
  obtain ⟨hpos, hmax⟩ := hl
  obtain ⟨htx, hrx⟩ := State.operands_fit hb hpos
  exact ⟨hpos, Nat.le_of_lt_succ len.isLt, hmax, Nat.zero_le _, Nat.zero_le _, htx, hrx, i, t, r, len, hi, he⟩

/-- A phase that stays in the operation keeps the invariant, when its Host peripheral, indices and sequences are in range. -/
theorem State.Inv.advance {s : State} (hs : s.Inv) (hc : s.Captured) {hp : HostPeripheral} {p : Phase} {w r : Nat}
    {rxb : List Space} {flt : BitVec 12} {turn : Bool} (hp0 : p ≠ .s0) (hhost : HostWithin s.cfg hp)
    (hw : w ≤ s.he.len) (hr : r ≤ s.he.len) (hseq : SequencesWf rxb)
    (hsize : ∀ n, ({ s with rxb := rxb } : State).spaceSize (.rxb n) = s.spaceSize (.rxb n)) :
    ({ s with
        hp := hp, he := { s.he with phase := p, w := w, r := r }, rxb := rxb, flt := flt, hwTurn := turn } : State).Inv :=
  hs.of_shares rfl hhost hs.client hseq hs.pcs (State.engineWf_iff.2 ⟨hp0, fun _ => hc.advance hw hr hsize⟩)

/-- A command of the host program that leaves no operation under way keeps the invariant, its program counter advanced. -/
theorem State.Inv.advanceHost {s t : State} (hs : s.Inv) (hpc : s.pc < s.prog.length) (hcfg : t.cfg = s.cfg)
    (ht : t.pc = s.pc + 1) (hprog : t.prog = s.prog) (hcpc : t.cpc = s.cpc) (hcprog : t.cprog = s.cprog)
    (hidle : t.he.phase = .idle) (hhost : HostWithin t.cfg t.hp) (hclient : ClientWithin t.cfg t.cp t.ce)
    (hseq : SequencesWf t.rxb) : t.Inv := by
  refine hs.of_shares hcfg hhost hclient hseq ⟨?_, ?_⟩ (State.engineWf_of_idle hidle)
  · rw [ht, hprog]; exact hpc
  · rw [hcpc, hcprog]; exact hs.pcs.2

/-- A step of an operation keeps the invariant, phase by phase (R141). -/
theorem engineStep_inv {i : Instr} {k : Mode} {t r : Bool} {len : Byte} {s u : State} (hi : s.hostIssue = .command i)
    (he : i.engine? = some (k, t, r, len)) (hs : s.Inv) (h : engineStep k t r len s = .next u) : u.Inv := by
  have hpc := (State.hostIssue_stream hi).2
  have hhost := hs.host
  have hcap : s.he.phase.running = true → s.Captured := hs.captured
  obtain ⟨hp, h⟩ | ⟨hp, rfl⟩ | ⟨hp, h⟩ | ⟨hp, rfl⟩ | ⟨hp, h⟩ | ⟨hp, h⟩ | ⟨hp, rfl⟩ | ⟨hp, h⟩ :=
    engineStep_cases h
  · have hidle : s.he.phase = .idle := hp.resolve_right hs.engine.1
    obtain ⟨-, rfl⟩ | ⟨-, -, rfl⟩ | ⟨hb, hl, rfl⟩ := engineS0_cases h
    · exact hs.of_shares rfl hhost hs.client hs.sequences hs.pcs hs.engine
    · exact hs.advanceHost hpc rfl rfl rfl rfl rfl hidle hhost hs.client hs.sequences
    · exact hs.of_shares rfl ⟨Nat.zero_le _, Nat.zero_le _, hhost.tcnt⟩ hs.client hs.sequences hs.pcs
        (State.engineWf_iff.2 ⟨by simp, fun _ => engineS0_captures hi he hb hl⟩)
  all_goals have hc : s.Captured := hcap (by simp [hp, Phase.running])
  · rw [engineS1_eq]
    exact hs.advance hc (by simp) ⟨hhost.txf, hhost.rxf, hhost.tcnt⟩ hc.w_le hc.r_le hs.sequences fun _ => rfl
  · obtain ⟨-, rfl⟩ | ⟨b, -, -, rfl⟩ := engineS2_cases h
    · exact hs.advance hc (by simp) hhost hc.w_le hc.r_le hs.sequences fun _ => rfl
    · exact hs.advance hc (by simp) ⟨length_push_le rfl hhost.txf, hhost.rxf, hhost.tcnt⟩ hc.len_pos hc.r_le
        hs.sequences fun _ => rfl
  · rw [engineS3_eq]
    exact hs.advance hc (by simp) ⟨hhost.txf, hhost.rxf, s.loadedCount_lt _⟩ hc.w_le hc.r_le hs.sequences fun _ => rfl
  · obtain ⟨-, rfl⟩ | ⟨b, -, hlt, hsp, -, rfl⟩ := engineL1_cases h
    · exact hs.advance hc (by simp) hhost hc.w_le hc.r_le hs.sequences fun _ => rfl
    · have htxf : (s.hp.txf ++ [b]).length ≤ s.cfg.txd := by simpa [State.hostTxSpace] using hsp
      exact hs.advance hc (by simp) ⟨htxf, hhost.rxf, hhost.tcnt⟩ hlt hc.r_le hs.sequences fun _ => rfl
  · obtain ⟨v, hv, rfl⟩ := engineL2_cases h
    obtain ⟨rxf, r, rxb, rfl, hrxf, hr, hseq, hsize⟩ := drain_keeps hv hc hhost hs.sequences
    exact hs.advance hc (by simp) ⟨hhost.txf, hrxf, hhost.tcnt⟩ hc.w_le hr hseq hsize
  · obtain ⟨-, h⟩ | ⟨-, h⟩ := engineL3_cases s <;> rw [h] <;>
      exact hs.advance hc (by simp) hhost hc.w_le hc.r_le hs.sequences fun _ => rfl
  · obtain ⟨v, hv, rfl⟩ := engineD_cases h
    obtain ⟨rxf, r, rxb, rfl, hrxf, -, hseq, -⟩ := drain_keeps hv hc hhost hs.sequences
    exact hs.advanceHost hpc rfl rfl rfl rfl rfl rfl ⟨hhost.txf, hrxf, hhost.tcnt⟩ hs.client hseq

/-! ### Steps of the block keep the invariant -/

theorem exec_host_inv {i : Instr} {s t : State} (hi : s.hostIssue = .command i) (hs : s.Inv) (h : exec i s = .next t) :
    t.Inv := by
  obtain ⟨hst, hpc⟩ := State.hostIssue_stream hi
  cases he : i.engine? with
  | some x => exact engineStep_inv (k := x.1) hi he hs (exec_engine (k := x.1) he s ▸ h)
  | none =>
    have hhost := exec_hostPeripheral_within hst he h hs.host
    have hclient := exec_host_client_within hst h hs.client
    obtain ⟨_, _, _, _, _, _, _, rfl, -⟩ := exec_hostPeripheral_frame hst he h
    exact hs.advanceHost hpc rfl rfl rfl rfl rfl (hs.engine.idle hi he) hhost hclient hs.sequences

/-- A step that leaves the Host side and the programs keeps the invariant, when it keeps the shares of the peripherals. -/
theorem State.Inv.of_sameHost {s t : State} (hs : s.Inv) (h : SameHost s t) (hhost : HostWithin t.cfg t.hp)
    (hclient : ClientWithin t.cfg t.cp t.ce) (hcpc : t.cpc ≤ t.cprog.length) : t.Inv := by
  refine hs.of_shares h.cfg hhost hclient ?_ ⟨?_, hcpc⟩ (h.engineWf hs.engine)
  · rw [h.rxb]; exact hs.sequences
  · rw [h.pc, h.prog]; exact hs.pcs.1

theorem exec_client_inv {i : Instr} {s t : State} (hi : s.clientIssue = .command i) (hs : s.Inv)
    (h : exec i s = .next t) : t.Inv := by
  obtain ⟨hst, hcpc⟩ := State.clientIssue_stream hi
  have hclient := exec_client_within hst h hs.client
  obtain ⟨_, _, _, _, _, _, rfl⟩ := exec_client_frame hst h
  exact hs.of_sameHost ⟨rfl, rfl, rfl, rfl, rfl, rfl⟩ hs.host hclient hcpc

theorem hostPeripheralStep_inv {s t : State} (hs : s.Inv) (h : hostPeripheralStep s = some t) : t.Inv := by
  have hhost := hostPeripheralStep_within h hs.host
  have hclient := hostPeripheralStep_client_within h hs.client
  obtain ⟨_, _, _, _, rfl⟩ := hostPeripheralStep_frame h
  exact hs.of_sameHost ⟨rfl, rfl, rfl, rfl, rfl, rfl⟩ hhost hclient hs.pcs.2

theorem runHandler_inv {s : State} (e : Event) (hs : s.Inv) : (runHandler e s).Inv := by
  have hclient := runHandler_within e hs.client
  obtain ⟨_, _, _, _, hf⟩ := runHandler_frame e s
  rw [hf] at hclient ⊢
  exact hs.of_sameHost ⟨rfl, rfl, rfl, rfl, rfl, rfl⟩ hs.host hclient hs.pcs.2

theorem State.Inv.takePick {s : State} (hs : s.Inv) : s.takePick.Inv := by
  refine hs.of_sameHost ⟨?_, ?_, ?_, ?_, ?_, ?_⟩ ?_ ?_ ?_
  case refine_7 => simpa using hs.host
  case refine_8 => simpa using hs.client
  case refine_9 => simpa using hs.pcs.2
  all_goals simp

/-- Every step that answers a next state keeps the invariant. -/
theorem step_inv {s t : State} (hs : s.Inv) (h : step s = .next t) : t.Inv := by
  have hs' := hs.takePick
  obtain ⟨-, rfl⟩ | rfl | rfl | ⟨i, hi, h⟩ | ⟨i, hi, h⟩ | h | ⟨e, -, -, rfl⟩ := step_cases h
  · exact hs
  · exact hs'
  · exact hs'.of_sameHost ⟨rfl, rfl, rfl, rfl, rfl, rfl⟩ hs'.host hs'.client hs'.pcs.2
  · exact exec_host_inv hi hs' h
  · exact exec_client_inv hi hs' h
  · exact hostPeripheralStep_inv hs' h
  · exact runHandler_inv e hs'

/-! ### Every step answers a next state -/

/-- A command other than an operation of the Host engine always answers a next state. -/
theorem exec_answers {i : Instr} (he : i.engine? = none) (s : State) : ∃ t, exec i s = .next t := by
  cases i <;> simp only [Instr.engine?, reduceCtorEq] at he <;> exact ⟨_, rfl⟩

theorem engineS0_answers (k : Mode) (t r : Bool) (len : Byte) (s : State) : ∃ u, engineS0 k t r len s = .next u := by
  unfold engineS0
  split
  · exact ⟨_, rfl⟩
  · split
    · exact ⟨_, rfl⟩
    · exact ⟨_, rfl⟩

/-- A load reads inside the operand when its index is below the length (R60, R61). -/
theorem loadTx_isSome {s : State} {i : Nat} (hs : s.Captured) (hi : i < s.he.len) : ∃ u, loadTx i s = some u := by
  obtain ⟨b, hb⟩ := txByte_isSome (s := s) (i := i) fun xs hx => hi.trans_le (hs.tx_fits xs hx)
  exact ⟨_, by rw [loadTx, hb]; rfl⟩

/-- A drain writes inside the operand (R60, R62). -/
theorem drain_isSome {s : State} (hs : s.Captured) : ∃ u, drain s = some u := by
  unfold drain
  split
  · cases s.hp.rxf with
    | nil => exact ⟨s, rfl⟩
    | cons b rest => exact store_isSome fun n hn hlt => hlt.trans_le (hs.rx_fits n hn)
  · exact ⟨s, rfl⟩

theorem engineS2_isSome {s : State} (hs : s.Captured) : ∃ u, engineS2 s = some u := by
  unfold engineS2
  split
  · obtain ⟨u, hu⟩ := loadTx_isSome hs hs.len_pos
    exact ⟨_, by rw [hu]; rfl⟩
  · exact ⟨_, rfl⟩

theorem engineL1_isSome {s : State} (hs : s.Captured) : ∃ u, engineL1 s = some u := by
  unfold engineL1
  split
  next hg =>
    simp only [Bool.and_eq_true, decide_eq_true_eq] at hg
    obtain ⟨u, hu⟩ := loadTx_isSome hs hg.1.2
    exact ⟨_, by rw [hu]; rfl⟩
  next => exact ⟨_, rfl⟩

theorem engineL2_isSome {s : State} (hs : s.Captured) : ∃ u, engineL2 s = some u := by
  obtain ⟨u, hu⟩ := drain_isSome hs
  exact ⟨_, by rw [engineL2, hu]; rfl⟩

theorem engineD_isSome {s : State} (hs : s.Captured) : ∃ u, engineD s = some u := by
  obtain ⟨u, hu⟩ := drain_isSome hs
  exact ⟨_, by rw [engineD, hu]; rfl⟩

/-- With its operands captured no phase of an operation accesses a byte outside a space (log 16). -/
theorem engineStep_answers (k : Mode) (t r : Bool) (len : Byte) {s : State} (hs : s.engineWf) :
    ∃ u, engineStep k t r len s = .next u := by
  have hcap := (State.engineWf_iff.1 hs).2
  unfold engineStep
  cases hp : s.he.phase with
  | idle => exact engineS0_answers k t r len s
  | s0 => exact engineS0_answers k t r len s
  | s1 => exact ⟨_, rfl⟩
  | s2 => exact (engineS2_isSome (hcap (by rw [hp]; rfl))).imp fun _ => phaseResult_next.2
  | s3 => exact ⟨_, rfl⟩
  | l1 => exact (engineL1_isSome (hcap (by rw [hp]; rfl))).imp fun _ => phaseResult_next.2
  | l2 => exact (engineL2_isSome (hcap (by rw [hp]; rfl))).imp fun _ => phaseResult_next.2
  | l3 => exact ⟨_, rfl⟩
  | d => exact (engineD_isSome (hcap (by rw [hp]; rfl))).imp fun _ => phaseResult_next.2

theorem runIssue_answers (q : Issue) {s : State} (hs : s.engineWf) : ∃ t, runIssue q s = .next t := by
  cases q with
  | finished => exact ⟨_, rfl⟩
  | reserved => exact ⟨_, rfl⟩
  | command i =>
    cases he : i.engine? with
    | some x =>
      obtain ⟨k, t, r, len⟩ := x
      rw [runIssue, exec_engine he]
      exact engineStep_answers k t r len hs
    | none => exact exec_answers he s

theorem runAgent_answers (a : Agent) {s : State} (hs : s.engineWf) : ∃ t, runAgent a s = .next t := by
  cases a with
  | hostProgram => exact runIssue_answers s.hostIssue hs
  | clientProgram => exact runIssue_answers s.clientIssue hs
  | hostPeripheral => exact ⟨_, rfl⟩
  | dispatcher => exact ⟨_, rfl⟩
  | clientPeripheral => exact ⟨_, rfl⟩
  | environment => exact ⟨_, rfl⟩

/-- The block never stops (R60, log 16). -/
theorem step_answers {s : State} (hs : s.Inv) : ∃ t, step s = .next t := by
  unfold step
  split
  next p _ => exact runAgent_answers p.agent hs.takePick.engine
  next => exact ⟨_, rfl⟩

/-- Settles O59: captured operands keep the operation inside its spaces, so a step answers a next state, and each agent
keeps every share of the invariant. -/
theorem everyStepKeepsInvariant : Obligations.EveryStepKeepsInvariant := by
  intro s hs
  obtain ⟨t, ht⟩ := step_answers hs
  exact ⟨t, ht, step_inv hs ht⟩

end Sys2Proof.Machine
end

section
/-! What of memory a command can change (20_memory.md R60 to R63), and the accesses that stop it. -/

namespace Sys2Proof.Machine

/-! ### The frame of memory -/

/-- A byte of memory is read from the written bytes of its space and the number of the last reset. -/
theorem SameMemory.of_eq {s t : State} (hbuf : t.ce.buf = s.ce.buf) (hrxb : t.rxb = s.rxb)
    (hresets : t.resets = s.resets) : SameMemory s t := by
  constructor
  · intro i
    simp only [State.byteAt, hbuf, hresets]
  · intro n i
    simp only [State.byteAt, hrxb, hresets]

/-- A phase other than the draining L2 and D leaves memory (R149, R150). -/
theorem engineStep_sameMemory {k : Mode} {t r : Bool} {len : Byte} {s u : State} (hl2 : s.he.phase ≠ .l2)
    (hd : s.he.phase ≠ .d) (h : engineStep k t r len s = .next u) : SameMemory s u := by
  obtain ⟨-, h⟩ | ⟨-, rfl⟩ | ⟨-, h⟩ | ⟨-, rfl⟩ | ⟨-, h⟩ | ⟨hp, -⟩ | ⟨-, rfl⟩ | ⟨hp, -⟩ := engineStep_cases h
  · obtain ⟨-, rfl⟩ | ⟨-, -, rfl⟩ | ⟨-, -, rfl⟩ := engineS0_cases h <;> exact .of_eq rfl rfl rfl
  · rw [engineS1_eq]; exact .of_eq rfl rfl rfl
  · obtain ⟨-, rfl⟩ | ⟨b, -, -, rfl⟩ := engineS2_cases h <;> exact .of_eq rfl rfl rfl
  · rw [engineS3_eq]; exact .of_eq rfl rfl rfl
  · obtain ⟨-, rfl⟩ | ⟨b, -, -, -, -, rfl⟩ := engineL1_cases h <;> exact .of_eq rfl rfl rfl
  · exact absurd hp hl2
  · obtain ⟨-, h⟩ | ⟨-, h⟩ := engineL3_cases s <;> rw [h] <;> exact .of_eq rfl rfl rfl
  · exact absurd hp hd

/-- Of the commands of the client program only `CE.RECV` and `CE.DISPATCH` write the FrameBuffer (R224, R229). -/
theorem exec_client_buf {i : Instr} {s t : State} (hi : i.stream = .client) (hrecv : ∀ b, i ≠ .ceRecv b)
    (hdisp : i ≠ .ceDispatch) (h : exec i s = .next t) : t.ce.buf = s.ce.buf := by
  cases i <;> simp only [Instr.stream, Instr.unit, CmdUnit.stream, reduceCtorEq] at hi <;>
    obtain rfl := Host.Outcome.next.inj h
  case cWrtx b => rw [cWrtxEffect_eq]; rfl
  case cRdrx => obtain ⟨b, rest, -, h⟩ | ⟨-, h⟩ := cRdrxEffect_cases s <;> rw [h] <;> rfl
  case ceRecv b => exact absurd rfl (hrecv b)
  case ceReq => obtain ⟨-, h⟩ | ⟨-, h⟩ := ceReqEffect_cases s <;> rw [h] <;> rfl
  case ceDispatch => exact absurd rfl hdisp
  all_goals rfl

/-- Settles O57: the Host side has no access to the FrameBuffer and the Client side none to a receive sequence; within
its own space each side stores in the named commands and phases only. -/
theorem onlyStoringCommandsChangeMemory : Obligations.OnlyStoringCommandsChangeMemory := by
  intro i s t h
  refine ⟨fun hrecv hdisp hphase => ?_, fun hi j => ?_, fun hi n j => ?_⟩
  · cases hi : i.stream with
    | host =>
      cases he : i.engine? with
      | some x =>
        obtain ⟨hl2, hd⟩ := hphase.resolve_left (by simp [he])
        exact engineStep_sameMemory hl2 hd (exec_engine (k := x.1) he s ▸ h)
      | none =>
        obtain ⟨_, _, _, _, _, _, _, rfl, -⟩ := exec_hostPeripheral_frame hi he h
        exact .of_eq rfl rfl rfl
    | client =>
      have hbuf := exec_client_buf hi hrecv hdisp h
      obtain ⟨_, _, _, _, _, _, rfl⟩ := exec_client_frame hi h
      exact .of_eq hbuf rfl rfl
  · obtain ⟨_, _, _, _, _, _, _, _, _, _, _, _, rfl, -⟩ := exec_host_frame hi h
    rfl
  · obtain ⟨_, _, _, _, _, _, rfl⟩ := exec_client_frame hi h
    rfl

/-! ### Accesses outside a space -/

/-- A read of `TXB` past its size gives no byte, so nothing is loaded (R60, R61). -/
theorem loadTx_outside {s : State} {xs : List Byte} {i : Nat} (hx : s.he.tx = some xs) (hi : xs.length ≤ i) :
    loadTx i s = none := by
  have hout : ¬ i < s.spaceSize .txb := by simpa [State.spaceSize, hx] using hi
  simp only [loadTx, State.txByte, hx, State.memRead, if_neg hout, Option.map_none]

/-- A write of `RXB` past its size is no store (R60, R62). -/
theorem store_outside {s : State} {n : Nat} (b : Byte) (hx : s.he.rx = some n) (hr : s.he.r < s.he.len)
    (hout : s.spaceSize (.rxb n) ≤ s.he.r) : store b s = none := by
  simp only [store, if_pos hr, hx, State.memWrite, if_neg (Nat.not_lt.2 hout), Option.map_none]

/-- A drain whose byte belongs past the size of `RXB` stores nothing and has no result (R149, R150). -/
theorem drain_outside {s : State} {n : Nat} (hm : s.he.mode.rxOn = true) (hf : s.hp.rxf ≠ []) (hx : s.he.rx = some n)
    (hr : s.he.r < s.he.len) (hout : s.spaceSize (.rxb n) ≤ s.he.r) : drain s = none := by
  obtain ⟨b, rest, hf⟩ := List.exists_cons_of_ne_nil hf
  simp only [drain, if_pos hm, hf]
  exact store_outside b hx hr hout

/-- Settles O32: the load of S2 or L1, or the drain of L2 or D, has no result outside its space, which the phase answers
with the fault. -/
theorem accessOutsideSpaceStops : Obligations.AccessOutsideSpaceStops := by
  intro s i x he
  have hexec := exec_engine (k := x.1) he s
  refine ⟨fun hp hm htx => ?_, fun xs hp hm htx hw hspace hout => ?_, fun n hp hm hf hrx hr hout => ?_⟩
  · have hon : s.he.mode.txOn = true := by simpa [Mode.txOn] using hm
    have hload := loadTx_outside htx (Nat.le_refl 0)
    simp only [hexec, engineStep, hp, engineS2, if_pos hon, hload, Option.map_none, phaseResult]
  · have hon : (s.he.mode.txOn && decide (s.he.w < s.he.len) && s.hostTxSpace) = true := by
      simp [Mode.txOn, hm, hw, State.hostTxSpace, hspace]
    have hload := loadTx_outside htx hout
    simp only [hexec, engineStep, hp, engineL1, if_pos hon, hload, Option.map_none, phaseResult]
  · have hdrain := drain_outside (by simpa [Mode.rxOn] using hm) hf hrx hr hout
    obtain hp | hp := hp
    · simp only [hexec, engineStep, hp, engineL2, hdrain, Option.map_none, phaseResult]
    · simp only [hexec, engineStep, hp, engineD, hdrain, Option.map_none, phaseResult]

end Sys2Proof.Machine
end

section
/-! Decoder and encoder (30_encoding.md R80 to R89): a word is its three fields, a row of the opcode table is a condition
on them, and the decoder chooses the one row that matches. -/

namespace Sys2Proof

/-! ### A word is its fields (R80) -/

@[simp] theorem pack_fields (w : Word) : pack (unitField w) (opField w) (immField w) = w := by
  have hhigh : unitField w ++ opField w = w.extractLsb' 8 8 :=
    BitVec.extractLsb'_append_extractLsb'_eq_extractLsb' (start₁ := 8) rfl
  have hword : w.extractLsb' 8 8 ++ immField w = w.extractLsb' 0 16 :=
    BitVec.extractLsb'_append_extractLsb'_eq_extractLsb' (start₁ := 0) rfl
  rw [pack, hhigh, hword, BitVec.extractLsb'_eq_self]

theorem word_ext_iff {v w : Word} :
    v = w ↔ unitField v = unitField w ∧ opField v = opField w ∧ immField v = immField w := by
  refine ⟨by rintro rfl; exact ⟨rfl, rfl, rfl⟩, fun ⟨hu, hop, himm⟩ => ?_⟩
  rw [← pack_fields v, hu, hop, himm, pack_fields]

/-- A mask of ones leaves the unit or the `op` as it is. -/
theorem nibble_and_ones (x : BitVec 4) : x &&& 15#4 = x := BitVec.and_allOnes

/-- A mask of ones leaves the operand as it is. -/
theorem byte_and_ones (x : Byte) : x &&& 255#8 = x := BitVec.and_allOnes

/-- A row matches a word exactly when it matches each field under its mask (R89). -/
theorem Row.hits_iff {row : Row} {w : Word} :
    row.hits w = true ↔
      unitField w &&& unitField row.mask = unitField row.pat ∧
      opField w &&& opField row.mask = opField row.pat ∧
      immField w &&& immField row.mask = immField row.pat := by
  rw [Row.hits, beq_iff_eq, word_ext_iff]
  simp only [unitField, opField, immField, BitVec.extractLsb'_and]

/-! ### At most one row matches (R89) -/

/-- The patterns of two rows differ on a bit that both masks fix. -/
def Row.Apart (a b : Row) : Prop := a.pat &&& b.mask ≠ b.pat &&& a.mask

theorem Row.Apart.not_both_hit {a b : Row} (h : a.Apart b) (w : Word) : ¬(a.hits w = true ∧ b.hits w = true) := by
  rintro ⟨ha, hb⟩
  rw [Row.hits, beq_iff_eq] at ha hb
  exact h <| calc
    a.pat &&& b.mask = w &&& a.mask &&& b.mask := by rw [ha]
    _ = w &&& b.mask &&& a.mask := by rw [BitVec.and_assoc, BitVec.and_comm a.mask, BitVec.and_assoc]
    _ = b.pat &&& a.mask := by rw [hb]

theorem opcodeRows_apart : opcodeRows.Pairwise Row.Apart := by
  unfold Row.Apart
  decide

/-- No two rows of the table match one word (R89). -/
theorem opcodeRows_disjoint (w : Word) :
    opcodeRows.Pairwise (fun a b => ¬(a.hits w = true ∧ b.hits w = true)) :=
  opcodeRows_apart.imp fun h => h.not_both_hit w

/-- Two rows of the table that match one word are one row. -/
theorem eq_of_hits {a b : Row} {w : Word} (ha : a ∈ opcodeRows) (hb : b ∈ opcodeRows) (haw : a.hits w = true)
    (hbw : b.hits w = true) : a = b := by
  have : Std.Symm fun a b : Row => ¬(a.hits w = true ∧ b.hits w = true) := ⟨fun _ _ h hba => h hba.symm⟩
  by_contra hne
  exact (opcodeRows_disjoint w).forall ha hb hne ⟨haw, hbw⟩

/-! ### The decoder chooses the row that matches (R89) -/

theorem decode_of_hits {row : Row} {w : Word} (hr : row ∈ opcodeRows) (hw : row.hits w = true) :
    decode w = .ok (row.build w) := by
  cases hf : opcodeRows.find? (fun row => row.hits w) with
  | none => exact absurd hw (List.find?_eq_none.1 hf row hr)
  | some found =>
    obtain rfl := eq_of_hits (List.mem_of_find?_eq_some hf) hr (List.find?_some (p := (Row.hits · w)) hf) hw
    simp only [decode, hf]

theorem decode_of_unmatched {w : Word} (h : ∀ row ∈ opcodeRows, row.hits w = false) :
    decode w = .error (reservedCase w) := by
  have hf : opcodeRows.find? (fun row => row.hits w) = none :=
    List.find?_eq_none.2 fun row hr => by simp [h row hr]
  simp only [decode, hf]

/-- A command is read from a word by a row that matches it. -/
theorem hits_of_decode {w : Word} {i : Instr} (h : decode w = .ok i) :
    ∃ row ∈ opcodeRows, row.hits w = true ∧ row.build w = i := by
  unfold decode at h
  split at h
  next row hf => exact ⟨row, List.mem_of_find?_eq_some hf, List.find?_some (p := (Row.hits · w)) hf, Except.ok.inj h⟩
  next => cases h

/-- The reserved words are those that no row matches (R88). -/
theorem decode_error_iff {w : Word} : (∃ e, decode w = .error e) ↔ ∀ row ∈ opcodeRows, row.hits w = false := by
  refine ⟨fun ⟨e, he⟩ row hr => ?_, fun h => ⟨_, decode_of_unmatched h⟩⟩
  rw [Bool.eq_false_iff]
  intro hw
  rw [decode_of_hits hr hw] at he
  cases he

/-- Settles O3: the row that matches is the one the decoder finds, since the patterns are pairwise apart. -/
theorem matchingRowDecodes : Obligations.MatchingRowDecodes := fun w =>
  ⟨fun _ hr hw => decode_of_hits hr hw, opcodeRows_disjoint w, decode_error_iff.2⟩

/-! ### Decoding an encoded command (R84 to R87) -/

/-- Every command has its row (R95). -/
theorem tableRow (i : Instr) : Laws.TableRow.Statement i := by
  cases i with
  | hClrbuf => exact Laws.TableRow.hClrbuf
  | hSetdir t r => exact Laws.TableRow.hSetdir t r
  | hLdtcnt n => exact Laws.TableRow.hLdtcnt n
  | hTcz => exact Laws.TableRow.hTcz
  | hTxspc => exact Laws.TableRow.hTxspc
  | hRxdat => exact Laws.TableRow.hRxdat
  | hWrtx b => exact Laws.TableRow.hWrtx b
  | hRdrx => exact Laws.TableRow.hRdrx
  | exchange t r len => exact Laws.TableRow.exchange t r len
  | send t len => exact Laws.TableRow.send t len
  | receive r len => exact Laws.TableRow.receive r len
  | cClrbuf => exact Laws.TableRow.cClrbuf
  | cSof => exact Laws.TableRow.cSof
  | cEof => exact Laws.TableRow.cEof
  | cAcksof => exact Laws.TableRow.cAcksof
  | cAckeof => exact Laws.TableRow.cAckeof
  | cRxdat => exact Laws.TableRow.cRxdat
  | cTxspc => exact Laws.TableRow.cTxspc
  | cWrtx b => exact Laws.TableRow.cWrtx b
  | cRdrx => exact Laws.TableRow.cRdrx
  | ceInit => exact Laws.TableRow.ceInit
  | ceStart => exact Laws.TableRow.ceStart
  | ceStop => exact Laws.TableRow.ceStop
  | ceRecv b => exact Laws.TableRow.ceRecv b
  | ceReq => exact Laws.TableRow.ceReq
  | ceDispatch => exact Laws.TableRow.ceDispatch
  | envSsa => exact Laws.TableRow.envSsa
  | envSsd => exact Laws.TableRow.envSsd
  | envLine v => exact Laws.TableRow.envLine v
  | envFloat => exact Laws.TableRow.envFloat
  | envStall => exact Laws.TableRow.envStall
  | envUnstall => exact Laws.TableRow.envUnstall

/-- Settles O1: the command's own row matches its word and reads it back, and the decoder finds no other row. -/
theorem decodeInvertsEncode : Obligations.DecodeInvertsEncode := by
  intro i
  obtain ⟨row, hr, hw, hb⟩ := tableRow i
  rw [decode_of_hits hr hw, hb]

theorem decode_of_encode {w : Word} {i : Instr} (h : encode i = w) : decode w = .ok i := h ▸ decodeInvertsEncode i

/-- Settles O5: eight of the words are encodings, and the last two no row matches. -/
theorem specWordsDecode : Obligations.SpecWordsDecode :=
  ⟨decode_of_encode (by decide), decode_of_encode (by decide), decode_of_encode (by decide),
    decode_of_encode (by decide), decode_of_encode (by decide), decode_of_encode (by decide),
    decode_of_encode (by decide), decode_of_encode (by decide), decode_of_unmatched (by decide),
    decode_of_unmatched (by decide)⟩

/-! ### Encoding a decoded command -/

/-- The row reads from each word it matches a command whose word it is. -/
def Row.Faithful (row : Row) : Prop := ∀ w, row.hits w = true → encode (row.build w) = w

/-- A row whose mask fixes the unit is faithful when its command encodes the other two fields it matched. -/
theorem Row.Faithful.of_fields {row : Row} (hu : unitField row.mask = 0xF)
    (h : ∀ w, opField w &&& opField row.mask = opField row.pat →
      immField w &&& immField row.mask = immField row.pat →
      encode (row.build w) = pack (unitField row.pat) (opField w) (immField w)) : row.Faithful := by
  intro w hw
  obtain ⟨hwu, hwop, hwimm⟩ := Row.hits_iff.1 hw
  have hunit : unitField row.pat = unitField w := (hwu.symm.trans (hu ▸ nibble_and_ones _))
  rw [h w hwop hwimm, hunit, pack_fields]

/-- A row with no operand: its mask fixes the whole word. -/
theorem Row.Faithful.of_fixed {name : String} {pat : Word} {i : Instr} (h : encode i = pat) :
    Row.Faithful ⟨name, pat, 0xFFFF, fun _ => i⟩ := by
  intro w hw
  rw [Row.hits, beq_iff_eq] at hw
  exact h.trans (hw.symm.trans BitVec.and_allOnes)

/-- A row whose operand is all of `imm`: its mask fixes `u` and `op`. -/
theorem Row.Faithful.of_imm {name : String} {pat : Word} (build : Byte → Instr)
    (h : ∀ imm, encode (build imm) = pack (unitField pat) (opField pat) imm) :
    Row.Faithful ⟨name, pat, 0xFF00, fun w => build (immField w)⟩ := by
  refine .of_fields (show unitField 0xFF00 = 0xF by decide) fun w hop _ => ?_
  have hwop : opField w = opField pat := by
    have hones : opField 0xFF00 = 15#4 := by decide
    rw [← hop, hones, nibble_and_ones]
  rw [hwop]
  exact h (immField w)

/-! The bits a command reads are bits of the fields. -/

theorem setdirT_eq (w : Word) : setdirT w = (immField w).getLsbD 1 := by simp [setdirT, immField]

theorem setdirR_eq (w : Word) : setdirR w = (immField w).getLsbD 0 := by simp [setdirR, immField]

theorem engineT_eq (w : Word) : engineT w = (opField w).getLsbD 1 := by simp [engineT, opField]

theorem engineR_eq (w : Word) : engineR w = (opField w).getLsbD 0 := by simp [engineR, opField]

theorem kindField_eq (w : Word) : kindField w = (opField w).extractLsb' 2 2 := by
  ext k hk
  have hlt : 2 + k < 4 := by omega
  simp [kindField, opField, hlt, ← Nat.add_assoc]

/-- The operand of `H.SETDIR` is its two low bits when the others are 0 (R82). -/
theorem setdirImm_of_high_zero :
    ∀ imm : Byte, imm &&& 0xFC = 0 → setdirImm (imm.getLsbD 1) (imm.getLsbD 0) = imm := by decide

/-- The `op` of `EXCHANGE` is `{00, t, r}` (R83). -/
theorem packEngine_of_exchange {w : Word} (len : Byte) (h : opField w &&& 0xC = 0) :
    packEngine 0b00 (engineT w) (engineR w) len = pack 0x1 (opField w) len := by
  rw [packEngine, engineT_eq, engineR_eq]
  generalize opField w = op at h
  congr 1
  revert op
  decide

/-- The `op` of `SEND` is `{01, t, 0}` (R83, R85). -/
theorem packEngine_of_send {w : Word} (len : Byte) (h : opField w &&& 0xD = 4) :
    packEngine 0b01 (engineT w) false len = pack 0x1 (opField w) len := by
  rw [packEngine, engineT_eq]
  generalize opField w = op at h
  congr 1
  revert op
  decide

/-- The `op` of `RECEIVE` is `{10, 0, r}` (R83, R85). -/
theorem packEngine_of_receive {w : Word} (len : Byte) (h : opField w &&& 0xE = 8) :
    packEngine 0b10 false (engineR w) len = pack 0x1 (opField w) len := by
  rw [packEngine, engineR_eq]
  generalize opField w = op at h
  congr 1
  revert op
  decide

theorem hostPeripheralRows_faithful : ∀ row ∈ hostPeripheralRows, row.Faithful := by
  simp only [hostPeripheralRows, List.forall_mem_cons]
  refine ⟨.of_fixed rfl, ?setdir, .of_imm .hLdtcnt fun _ => rfl, .of_fixed rfl, .of_fixed rfl, .of_fixed rfl,
    .of_imm .hWrtx fun _ => rfl, .of_fixed rfl, List.forall_mem_nil _⟩
  case setdir =>
    refine .of_fields rfl fun w hop himm => ?_
    have hwop : opField w = 0x1 := BitVec.and_allOnes.symm.trans hop
    have hwimm := setdirImm_of_high_zero (immField w) himm
    rw [← setdirT_eq, ← setdirR_eq] at hwimm
    rw [encode, hwop, hwimm]
    rfl

theorem hostEngineRows_faithful : ∀ row ∈ hostEngineRows, row.Faithful := by
  simp only [hostEngineRows, List.forall_mem_cons]
  exact ⟨.of_fields rfl fun w hop _ => packEngine_of_exchange _ hop,
    .of_fields rfl fun w hop _ => packEngine_of_send _ hop,
    .of_fields rfl fun w hop _ => packEngine_of_receive _ hop, List.forall_mem_nil _⟩

theorem clientPeripheralRows_faithful : ∀ row ∈ clientPeripheralRows, row.Faithful := by
  simp only [clientPeripheralRows, List.forall_mem_cons]
  exact ⟨.of_fixed rfl, .of_fixed rfl, .of_fixed rfl, .of_fixed rfl, .of_fixed rfl, .of_fixed rfl, .of_fixed rfl,
    .of_imm .cWrtx fun _ => rfl, .of_fixed rfl, List.forall_mem_nil _⟩

theorem clientEngineRows_faithful : ∀ row ∈ clientEngineRows, row.Faithful := by
  simp only [clientEngineRows, List.forall_mem_cons]
  exact ⟨.of_fixed rfl, .of_fixed rfl, .of_fixed rfl, .of_imm .ceRecv fun _ => rfl, .of_fixed rfl, .of_fixed rfl,
    List.forall_mem_nil _⟩

theorem environmentRows_faithful : ∀ row ∈ environmentRows, row.Faithful := by
  simp only [environmentRows, List.forall_mem_cons]
  exact ⟨.of_fixed rfl, .of_fixed rfl, .of_imm .envLine fun _ => rfl, .of_fixed rfl, .of_fixed rfl, .of_fixed rfl,
    List.forall_mem_nil _⟩

theorem opcodeRows_faithful : ∀ row ∈ opcodeRows, row.Faithful := by
  simp only [opcodeRows, List.forall_mem_append]
  exact ⟨⟨⟨⟨hostPeripheralRows_faithful, hostEngineRows_faithful⟩, clientPeripheralRows_faithful⟩,
    clientEngineRows_faithful⟩, environmentRows_faithful⟩

/-- Settles O2: the command comes from a row that matches the word, and every row is faithful. -/
theorem encodeInvertsDecode : Obligations.EncodeInvertsDecode := by
  intro w i h
  obtain ⟨row, hr, hw, rfl⟩ := hits_of_decode h
  exact opcodeRows_faithful row hr w hw

/-! ### The reserved words (R85, R88), from the fields of the literal patterns and masks -/

theorem unitField_ofNat (n : Nat) : unitField (BitVec.ofNat 16 n) = BitVec.ofNat 4 (n / 4096) := by
  apply BitVec.eq_of_toNat_eq
  simp [unitField, Nat.shiftRight_eq_div_pow]
  omega

theorem opField_ofNat (n : Nat) : opField (BitVec.ofNat 16 n) = BitVec.ofNat 4 (n / 256) := by
  apply BitVec.eq_of_toNat_eq
  simp [opField, Nat.shiftRight_eq_div_pow]
  omega

theorem immField_ofNat (n : Nat) : immField (BitVec.ofNat 16 n) = BitVec.ofNat 8 n := by
  apply BitVec.eq_of_toNat_eq
  simp [immField]

/-- A row misses a word exactly when some field differs under its mask; for a literal row, the fields as numbers. -/
theorem Row.misses_iff {name : String} {pat mask : Nat} {build : Word → Instr} {w : Word} :
    Row.hits ⟨name, BitVec.ofNat 16 pat, BitVec.ofNat 16 mask, build⟩ w = false ↔
      ((unitField w &&& BitVec.ofNat 4 (mask / 4096)).toNat = pat / 4096 % 16 →
        (opField w &&& BitVec.ofNat 4 (mask / 256)).toNat = pat / 256 % 16 →
        (immField w &&& BitVec.ofNat 8 mask).toNat ≠ pat % 256) := by
  simp only [← Bool.not_eq_true, Row.hits_iff, unitField_ofNat, opField_ofNat, immField_ofNat, BitVec.toNat_eq,
    BitVec.toNat_ofNat, not_and, ne_eq, Nat.reducePow]

/-- The operand of `H.SETDIR` has its six high bits 0 (R82). -/
theorem high_zero_iff : ∀ imm : Byte, (imm &&& 252#8).toNat = 0 ↔ imm.toNat < 4 := by decide

/-- The words of unit 0x0 that no row matches: a reserved `op`, or an operand its row does not have (R84). -/
theorem hostPeripheralRows_unmatched_iff {w : Word} :
    (∀ row ∈ hostPeripheralRows, row.hits w = false) ↔
      ((unitField w).toNat = 0 →
        8 ≤ (opField w).toNat ∨ (opField w).toNat = 1 ∧ 4 ≤ (immField w).toNat ∨
        immField w ≠ 0 ∧ (opField w).toNat ∈ [0, 3, 4, 5, 7]) := by
  simp [hostPeripheralRows, Row.misses_iff, nibble_and_ones, byte_and_ones, high_zero_iff, BitVec.toNat_eq,
    -BitVec.toNat_and]
  omega

/-- The kinds of a Host engine command that no row matches (R85). -/
theorem reservedKind_iff :
    ∀ op : BitVec 4, (op &&& 12#4 ≠ 0#4 ∧ op &&& 13#4 ≠ 4#4 ∧ op &&& 14#4 ≠ 8#4) ↔
      (op.extractLsb' 2 2 = 3 ∨ op.extractLsb' 2 2 = 1 ∧ op.getLsbD 0 = true ∨
        op.extractLsb' 2 2 = 2 ∧ op.getLsbD 1 = true) := by decide

/-- The words of unit 0x1 that no row matches: a reserved kind (R85). -/
theorem hostEngineRows_unmatched_iff {w : Word} :
    (∀ row ∈ hostEngineRows, row.hits w = false) ↔
      ((unitField w).toNat = 1 →
        kindField w = 3 ∨ kindField w = 1 ∧ engineR w = true ∨ kindField w = 2 ∧ engineT w = true) := by
  rw [kindField_eq, engineT_eq, engineR_eq, ← reservedKind_iff]
  simp [hostEngineRows, Row.misses_iff, nibble_and_ones, BitVec.toNat_eq, -BitVec.toNat_and]
  omega

/-- The words of unit 0x2 that no row matches: a reserved `op`, or an operand its row does not have (R86). -/
theorem clientPeripheralRows_unmatched_iff {w : Word} :
    (∀ row ∈ clientPeripheralRows, row.hits w = false) ↔
      ((unitField w).toNat = 2 →
        9 ≤ (opField w).toNat ∨ immField w ≠ 0 ∧ (opField w).toNat ∈ [0, 1, 2, 3, 4, 5, 6, 8]) := by
  simp [clientPeripheralRows, Row.misses_iff, nibble_and_ones, byte_and_ones, BitVec.toNat_eq, -BitVec.toNat_and]
  omega

/-- The words of unit 0x3 that no row matches: a reserved `op`, or an operand its row does not have (R87). -/
theorem clientEngineRows_unmatched_iff {w : Word} :
    (∀ row ∈ clientEngineRows, row.hits w = false) ↔
      ((unitField w).toNat = 3 →
        6 ≤ (opField w).toNat ∨ immField w ≠ 0 ∧ (opField w).toNat ∈ [0, 1, 2, 4, 5]) := by
  simp [clientEngineRows, Row.misses_iff, nibble_and_ones, byte_and_ones, BitVec.toNat_eq, -BitVec.toNat_and]
  omega

/-- The words of unit 0x4 that no row matches: a reserved `op`, or an operand its row does not have (R87). -/
theorem environmentRows_unmatched_iff {w : Word} :
    (∀ row ∈ environmentRows, row.hits w = false) ↔
      ((unitField w).toNat = 4 →
        6 ≤ (opField w).toNat ∨ immField w ≠ 0 ∧ (opField w).toNat ∈ [0, 1, 3, 4, 5]) := by
  simp [environmentRows, Row.misses_iff, nibble_and_ones, byte_and_ones, BitVec.toNat_eq, -BitVec.toNat_and]
  omega

/-- Settles O4: a word is reserved when no row of any unit matches it, so the case of its own unit decides. -/
theorem reservedWordsAreTheseCases : Obligations.ReservedWordsAreTheseCases := by
  intro w
  rw [decode_error_iff]
  simp only [opcodeRows, List.forall_mem_append, hostPeripheralRows_unmatched_iff, hostEngineRows_unmatched_iff,
    clientPeripheralRows_unmatched_iff, clientEngineRows_unmatched_iff, environmentRows_unmatched_iff]
  obtain hu | hu | hu | hu | hu | hu : (unitField w).toNat = 0 ∨ (unitField w).toNat = 1 ∨ (unitField w).toNat = 2 ∨
      (unitField w).toNat = 3 ∨ (unitField w).toNat = 4 ∨ 5 ≤ (unitField w).toNat := by omega
  case inr.inr.inr.inr.inr =>
    simp only [hu, true_or, iff_true]
    omega
  all_goals simp [hu]

end Sys2Proof
end

section
/-! `PRELOAD` issued by the client program, command by command (30_encoding.md R91; 43_client_engine.md R221, R223,
R224). -/

namespace Sys2Proof.Machine

/-- The memory with bytes written from an address on, in order. -/
def Memory.insertAll (m : Memory) (i : Nat) : List Byte → Memory
  | [] => m
  | b :: bs => (m.insert i b).insertAll (i + 1) bs

/-- A read after the writes: the byte written there, or what the memory held. -/
theorem Memory.lookup_insertAll (m : Memory) (i : Nat) (bs : List Byte) (j : Nat) :
    (m.insertAll i bs).lookup j = if i ≤ j ∧ j < i + bs.length then some (bs.getD (j - i) 0) else m.lookup j := by
  induction bs generalizing m i with
  | nil => simp [Memory.insertAll]
  | cons b bs ih =>
    rw [Memory.insertAll, ih]
    obtain hj | rfl | hj : j < i ∨ j = i ∨ i < j := by omega
    · have hout : ¬(i + 1 ≤ j ∧ j < i + 1 + bs.length) ∧ ¬(i ≤ j ∧ j < i + (b :: bs).length) := by omega
      rw [if_neg hout.1, if_neg hout.2, Memory.lookup_insert_other _ _ (by omega)]
    · simp
    · have hget : (b :: bs).getD (j - i) 0 = bs.getD (j - (i + 1)) 0 := by
        rw [show j - i = j - (i + 1) + 1 by omega, List.getD_cons_succ]
      have hlen : (i + 1 ≤ j ∧ j < i + 1 + bs.length) ↔ (i ≤ j ∧ j < i + (b :: bs).length) := by
        rw [List.length_cons]; omega
      simp only [hlen, hget, Memory.lookup_insert_other m b (show j ≠ i by omega)]

/-- A run of a picked client program begins with the command it issues next. -/
theorem run_succ_client {s t : State} {i : Instr} {ws : List Word} {e : Event} {rest : List Pick} (k : Nat)
    (hprog : s.cprog.drop s.cpc = encode i :: ws) (hi : i.stream = .client)
    (hpicks : s.picks = ⟨.clientProgram, e⟩ :: rest) (h : exec i (s.after e rest) = .next t) :
    Host.Core.run core (k + 1) s = Host.Core.run core k t := by
  have hw : s.cprog[s.cpc]? = some (encode i) := by rw [← List.head?_drop, hprog, List.head?_cons]
  have hstep : core.step s = .next t :=
    (stepRunsClientCommand s _ i e rest hpicks hw (decodeInvertsEncode i) hi).trans h
  simp only [Host.Core.run, hstep]

/-- The state after the client program has stored bytes from the read cursor on, with the picks it took used up. -/
def State.stored (s : State) (bs : List Byte) (rest : List Pick) : State :=
  { s with
    picks := rest, cpc := s.cpc + bs.length
    ce := { s.ce with buf := s.ce.buf.insertAll s.ce.rc bs, rc := s.ce.rc + bs.length } }

theorem exec_ceRecv {s : State} (b : Byte) (rest : List Pick) (h : s.ce.rc < s.cfg.cap) :
    exec (.ceRecv b) (s.after s.choice rest) = .next (s.stored [b] rest) := by
  have hstore : ceRecvEffect b (s.after s.choice rest) =
      { s.after s.choice rest with ce := { s.ce with buf := s.ce.buf.insert s.ce.rc b, rc := s.ce.rc + 1 } } := if_pos h
  simp only [exec, execCeRecv, hstore, clientCommand_next]
  rfl

theorem State.stored_cons (s : State) (b : Byte) (bs : List Byte) (rest rest' : List Pick) :
    (s.stored [b] rest').stored bs rest = s.stored (b :: bs) rest := by
  simp [State.stored, Memory.insertAll, Nat.add_assoc, Nat.add_comm 1]

theorem drop_succ_of_drop_eq_cons {l ws : List Word} {k : Nat} {w : Word} (h : l.drop k = w :: ws) :
    l.drop (k + 1) = ws := by
  rw [← List.tail_drop, h, List.tail_cons]

/-- `CE.RECV` commands that fit below the capacity store their bytes from the read cursor on (R224). -/
theorem run_ceRecv {s : State} {bs : List Byte} {ws : List Word} {rest : List Pick} (k : Nat)
    (hprog : s.cprog.drop s.cpc = bs.map (fun b => encode (.ceRecv b)) ++ ws)
    (hroom : s.ce.rc + bs.length ≤ s.cfg.cap)
    (hpicks : s.picks = List.replicate bs.length ⟨.clientProgram, s.choice⟩ ++ rest) :
    Host.Core.run core (bs.length + k) s = Host.Core.run core k (s.stored bs rest) := by
  induction bs generalizing s with
  | nil =>
    obtain rfl : s.picks = rest := hpicks
    rw [List.length_nil, Nat.zero_add]
    rfl
  | cons b bs ih =>
    rw [List.length_cons] at hroom
    have hstep := run_succ_client (bs.length + k) hprog rfl hpicks (exec_ceRecv b _ (by omega))
    have hroom' : s.ce.rc + 1 + bs.length ≤ s.cfg.cap := by omega
    have hrest := ih (s := s.stored [b] (List.replicate bs.length ⟨.clientProgram, s.choice⟩ ++ rest))
      (drop_succ_of_drop_eq_cons hprog) hroom' rfl
    rw [List.length_cons, Nat.add_right_comm]
    exact hstep.trans (hrest.trans (congrArg (Host.Core.run core k) (s.stored_cons b bs rest _)))

/-- The state after `CE.INIT`, the first command of `PRELOAD`. -/
def State.afterInit (s : State) (e : Event) (rest : List Pick) : State :=
  (ceInitEffect (s.after e rest)).advanceClient

/-- The state after all of `PRELOAD` (R91). -/
def State.preloaded (s : State) (bs : List Byte) (e : Event) (rest : List Pick) : State :=
  { s with
    picks := rest, choice := e, cpc := s.cpc + bs.length + 2
    cp := { s.cp with txf := [], rxf := [], sh := .idle }
    ce := { buf := s.ce.buf.insertAll 0 bs, rc := 0, wc := 0, fs := .idle } }

/-- `CE.STOP`, the last command of `PRELOAD`, clears the hardware and keeps the buffer (R223). -/
theorem exec_ceStop_preloaded (s : State) (bs : List Byte) (e : Event) (ps qs rest : List Pick) :
    exec .ceStop (((s.afterInit e ps).stored bs qs).after e rest) = .next (s.preloaded bs e rest) := by
  have hcpc : s.cpc + 1 + bs.length + 1 = s.cpc + bs.length + 2 := by omega
  simp only [exec, execCeStop, clientCommand_next, State.advanceClient, ceStopEffect, cClrbufEffect, State.stored,
    State.afterInit, ceInitEffect, State.after, State.preloaded, hcpc]

/-- The FrameBuffer after `PRELOAD`. -/
theorem State.byteAt_preloaded (s : State) (bs : List Byte) (e : Event) (rest : List Pick) (j : Nat) :
    (s.preloaded bs e rest).byteAt .buf j = if j < bs.length then bs.getD j 0 else s.byteAt .buf j := by
  simp only [State.byteAt, State.preloaded, Memory.lookup_insertAll, Nat.zero_le, true_and, Nat.zero_add,
    Nat.sub_zero]
  split <;> rfl

theorem map_encode_preloadCommands (bs : List Byte) :
    (preloadCommands bs).map encode =
      encode .ceInit :: (bs.map (fun b => encode (.ceRecv b)) ++ [encode .ceStop]) := by
  simp [preloadCommands]

/-- The whole of `PRELOAD`: `CE.INIT` sets the cursors to 0, each `CE.RECV` stores its byte, `CE.STOP` ends it. -/
theorem run_preload {s : State} {bs : List Byte} {e : Event} {rest : List Pick}
    (hprog : s.cprog.drop s.cpc = (preloadCommands bs).map encode) (hroom : bs.length ≤ s.cfg.cap)
    (hpicks : s.picks = List.replicate (bs.length + 2) ⟨.clientProgram, e⟩ ++ rest) :
    Host.Core.run core (bs.length + 2) s = .next (s.preloaded bs e rest) := by
  obtain ⟨ps, hps⟩ : ∃ ps, ps = List.replicate bs.length ⟨.clientProgram, e⟩ ++ ⟨.clientProgram, e⟩ :: rest :=
    ⟨_, rfl⟩
  have hpicks' : s.picks = ⟨.clientProgram, e⟩ :: ps := by
    rw [hpicks, hps, List.replicate_succ, List.replicate_succ', List.cons_append, List.append_assoc,
      List.singleton_append]
  rw [map_encode_preloadCommands] at hprog
  have hprog' := drop_succ_of_drop_eq_cons hprog
  have hstop : s.cprog.drop (s.cpc + 1 + bs.length) = [encode .ceStop] := by
    rw [← List.drop_drop, hprog', List.drop_left' (List.length_map _)]
  have hroom' : 0 + bs.length ≤ s.cfg.cap := by omega
  have hinit := run_succ_client (bs.length + 1) hprog rfl hpicks' rfl
  have hrecv := run_ceRecv (s := s.afterInit e ps) 1 hprog' hroom' hps
  have hlast := run_succ_client 0 hstop rfl rfl (exec_ceStop_preloaded s bs e ps (⟨.clientProgram, e⟩ :: rest) rest)
  exact hinit.trans (hrecv.trans hlast)

/-- Settles O52: the run of `PRELOAD`, and the FrameBuffer it leaves. -/
theorem preloadFillsBufferFromZero : Obligations.PreloadFillsBufferFromZero :=
  fun s bs e rest hprog hroom hpicks =>
    ⟨s.preloaded bs e rest, run_preload hprog hroom hpicks, rfl, s.byteAt_preloaded bs e rest⟩

end Sys2Proof.Machine
end

section
/-! The Host peripheral commands (40_host_peripheral.md R101 to R108): each as the record it answers, and the causes it
adds to the fault record (60_exceptions.md R262). -/

namespace Sys2Proof.Machine

/-! ### The fault record -/

/-- The twelve causes in the order of their bits (R262). -/
def FaultBit.inOrder : List FaultBit :=
  [.hTxWriteErr, .hRxReadErr, .hUnprimed, .hTcntBusy, .hClearBusy, .hConfigActive, .hTcntZero, .cTxWriteErr,
    .cRxReadErr, .cRxOverflow, .cTxUnderflow, .ceBufferOverrun]

theorem FaultBit.inOrder_index (f : FaultBit) : FaultBit.inOrder[f.index]? = some f := by
  cases f <;> rfl

/-- Two causes with one bit are one cause. -/
@[simp] theorem FaultBit.index_inj {f g : FaultBit} : f.index = g.index ↔ f = g := by
  refine ⟨fun h => ?_, fun h => h ▸ rfl⟩
  have hf := f.inOrder_index
  rw [h, g.inOrder_index] at hf
  exact (Option.some.inj hf).symm

/-- The causes a step adds are those whose bits it ors into the record. -/
theorem FaultsAdded.of_flt {s t : State} {m : BitVec 12} {p : FaultBit → Prop} (h : t.flt = s.flt ||| m)
    (hm : ∀ f, m.getLsbD f.index = true ↔ p f) : FaultsAdded s t p := by
  intro f
  rw [State.hasFault, h, BitVec.getLsbD_or, Bool.or_eq_true, hm f]
  rfl

/-- A cause recorded under a condition, and no other. -/
theorem FaultsAdded.of_when {s t : State} {f : FaultBit} {c : Bool} {p : Prop} (h : t.flt = s.flt ||| f.when c)
    (hc : c = true ↔ p) : FaultsAdded s t (fun g => g = f ∧ p) :=
  .of_flt h fun g => by simp [hc, and_comm]

theorem State.hostBusy_iff {s : State} : s.hostBusy = true ↔ s.hp.sh ≠ .idle := by simp [State.hostBusy]

/-! ### Each command as a record -/

theorem exec_hClrbuf (s : State) :
    exec .hClrbuf s =
      .next { s with
        pc := s.pc + 1, hp := { s.hp with txf := [], rxf := [] }
        flt := s.flt ||| FaultBit.hClearBusy.when s.hostBusy } :=
  congrArg hostCommand (hClrbufEffect_eq s)

theorem exec_hSetdir (t r : Bool) (s : State) :
    exec (.hSetdir t r) s =
      .next { s with
        pc := s.pc + 1, hp := { s.hp with txEn := t, rxEn := r }
        flt := s.flt ||| FaultBit.hConfigActive.when (s.hostBusy || !s.hostCountZero) } :=
  congrArg hostCommand (hSetdirEffect_eq t r s)

/-- What a load of the counter adds to the fault record (R103): up to three causes. -/
def State.loadFaults (s : State) (n : Byte) : BitVec 12 :=
  FaultBit.hTcntZero.when (n == 0) ||| FaultBit.hTcntBusy.when s.hostBusy |||
    FaultBit.hUnprimed.when (n != 0 && s.hp.txEn && s.hp.txf.isEmpty)

theorem State.loadFaults_bit (s : State) (n : Byte) (f : FaultBit) :
    (s.loadFaults n).getLsbD f.index = true ↔
      f = .hTcntZero ∧ n = 0 ∨ f = .hTcntBusy ∧ s.hp.sh ≠ .idle ∨
      f = .hUnprimed ∧ n ≠ 0 ∧ s.hp.txEn = true ∧ s.hp.txf = [] := by
  simp only [State.loadFaults, BitVec.getLsbD_or, FaultBit.getLsbD_when, FaultBit.index_inj, Bool.or_eq_true,
    Bool.and_eq_true, decide_eq_true_eq, beq_iff_eq, bne_iff_ne, State.hostBusy_iff, List.isEmpty_iff]
  tauto

theorem exec_hLdtcnt (n : Byte) (s : State) :
    exec (.hLdtcnt n) s =
      .next { s with
        pc := s.pc + 1, hp := { s.hp with tcnt := s.loadedCount n }, flt := s.flt ||| s.loadFaults n } := by
  rw [State.loadFaults, ← BitVec.or_assoc, ← BitVec.or_assoc]
  exact congrArg hostCommand (hLdtcntEffect_eq n s)

/-- A counter of 8 bits or more holds every 8-bit load (R26, log 7). -/
theorem State.loadedCount_eq {s : State} (n : Byte) (h : 8 ≤ s.cfg.tcntW) : s.loadedCount n = n.toNat :=
  Nat.mod_eq_of_lt (n.isLt.trans_le (Nat.pow_le_pow_right (by decide) h))

theorem exec_hWrtx (b : Byte) (s : State) :
    exec (.hWrtx b) s =
      .next { s with
        pc := s.pc + 1, hp := { s.hp with txf := if s.hostTxSpace then s.hp.txf ++ [b] else s.hp.txf }
        flt := s.flt ||| FaultBit.hTxWriteErr.when (!s.hostTxSpace) } :=
  congrArg hostCommand (hWrtxEffect_eq b s)

theorem exec_hRdrx_of_cons {s : State} {b : Byte} {rest : List Byte} (h : s.hp.rxf = b :: rest) :
    exec .hRdrx s =
      .next { s with pc := s.pc + 1, res := b, resValid := true, hp := { s.hp with rxf := rest } } := by
  have hread : hRdrxEffect s = (b, { s with hp := { s.hp with rxf := rest } }) := by simp only [hRdrxEffect, h]
  simp only [exec, execHRdrx, hread]
  rfl

theorem exec_hRdrx_of_empty {s : State} (h : s.hp.rxf = []) :
    exec .hRdrx s =
      .next { s with
        pc := s.pc + 1, res := s.drawn, resValid := true, draws := s.draws + 1
        flt := s.flt ||| FaultBit.hRxReadErr.mask } := by
  have hread : hRdrxEffect s = (s.drawn, s.drew.raise .hRxReadErr) := by simp only [hRdrxEffect, h]
  simp only [exec, execHRdrx, hread]
  rfl

/-! ### The words of the commands with a byte operand (R82, R84) -/

theorem pack_eq_or (u op : BitVec 4) (imm : Byte) : pack u op imm = pack u op 0 ||| imm.setWidth 16 := by
  refine BitVec.eq_of_getLsbD_eq fun i hi => ?_
  simp only [pack, BitVec.getLsbD_append, BitVec.getLsbD_or, BitVec.getLsbD_setWidth]
  by_cases h : i < 8
  · simp [h, hi]
  · simp [h, imm.getLsbD_of_ge i (by omega)]

theorem decode_hLdtcnt (n : Byte) : decode (0x0200#16 ||| n.setWidth 16) = .ok (.hLdtcnt n) :=
  decode_of_encode (pack_eq_or 0x0 0x2 n)

theorem decode_hWrtx (b : Byte) : decode (0x0600#16 ||| b.setWidth 16) = .ok (.hWrtx b) :=
  decode_of_encode (pack_eq_or 0x0 0x6 b)

theorem decode_hSetdir (t r : Bool) :
    decode (0x0100#16 ||| (if t then 2 else 0) ||| (if r then 1 else 0)) = .ok (.hSetdir t r) :=
  decode_of_encode (by cases t <;> cases r <;> rfl)

/-! ### The obligations -/

/-- Settles O12: the record of the command, its one cause the bit of `H_CLEAR_BUSY`. -/
theorem hClrbufClearsFifos : Obligations.HClrbufClearsFifos :=
  ⟨decode_of_encode rfl, fun s =>
    ⟨_, exec_hClrbuf s, rfl, .of_when rfl State.hostBusy_iff, .of_eq rfl rfl rfl⟩⟩

/-- Settles O13: the record of the command; a transfer is in progress with a byte in flight or a count left. -/
theorem hSetdirSetsPathEnables : Obligations.HSetdirSetsPathEnables := by
  refine ⟨decode_hSetdir, fun s t r => ⟨_, exec_hSetdir t r s, rfl, .of_when rfl ?_, .of_eq rfl rfl rfl⟩⟩
  simp [State.hostBusy, State.hostCountZero]

/-- Settles O14: the record of the command, its three causes read off their bits. -/
theorem hLdtcntLoadsCount : Obligations.HLdtcntLoadsCount :=
  ⟨decode_hLdtcnt, fun s n =>
    ⟨_, exec_hLdtcnt n s, rfl, s.loadedCount_eq n, .of_flt rfl (s.loadFaults_bit n), .of_eq rfl rfl rfl⟩⟩

/-- A query of the Host peripheral writes its condition to `res` (R104 to R106). -/
theorem hostCommand_setRes (s : State) (c : Prop) [Decidable c] :
    hostCommand (s.setRes (boolByte (decide c))) =
      .next { s with pc := s.pc + 1, res := if c then 1 else 0, resValid := true } := by
  simp only [boolByte, decide_eq_true_eq]
  rfl

/-- Settles O15: the three commands are queries. -/
theorem hostQueriesReadStatus : Obligations.HostQueriesReadStatus := by
  refine ⟨decode_of_encode rfl, decode_of_encode rfl, decode_of_encode rfl, fun s => ?_⟩
  have htcz := hostCommand_setRes s (s.hp.tcnt = 0)
  have htxspc := hostCommand_setRes s (s.hp.txf.length < s.cfg.txd)
  have hrxdat := hostCommand_setRes s (0 < s.hp.rxf.length)
  refine ⟨htcz, htxspc, hrxdat, ?_⟩
  rintro t (h | h | h) <;> obtain rfl := Host.Outcome.next.inj h <;> exact .of_eq rfl rfl rfl

/-- Settles O16: the record of the command below the depth and at it. -/
theorem hWrtxPushesOrRecordsError : Obligations.HWrtxPushesOrRecordsError := by
  refine ⟨decode_hWrtx, fun s b => ⟨_, exec_hWrtx b s, ?_, .of_when rfl ?_, .of_eq rfl rfl rfl⟩⟩
  · simp [State.hostTxSpace]
  · simp [State.hostTxSpace]

/-- Settles O17: the record of the command on each form of the FIFO. -/
theorem hRdrxPopsOrDraws : Obligations.HRdrxPopsOrDraws := by
  refine ⟨decode_of_encode rfl, fun s b rest h => exec_hRdrx_of_cons h, fun s h => ?_, fun s t h => ?_⟩
  · exact ⟨_, exec_hRdrx_of_empty h, rfl, .of_flt rfl fun f => by simp⟩
  · cases hf : s.hp.rxf with
    | nil =>
      rw [exec_hRdrx_of_empty hf] at h
      obtain rfl := Host.Outcome.next.inj h
      exact .of_eq rfl rfl rfl
    | cons b rest =>
      rw [exec_hRdrx_of_cons hf] at h
      obtain rfl := Host.Outcome.next.inj h
      exact .of_eq rfl rfl rfl

end Sys2Proof.Machine
end

section
/-! The byte steps of the Host peripheral (40_host_peripheral.md R110, R111) with the part of the Client in each
(42_client_peripheral.md R182, R183), and the exchange of one byte they make (R112). -/

namespace Sys2Proof.Machine

/-! ### The Client's part, case by case -/

theorem clientLatch_of_deasserted {s : State} (h : s.cp.ss = false) : clientLatch s = s := by
  simp [clientLatch, h]

theorem clientLatch_of_cons {s : State} {c : Byte} {cs : List Byte} (hss : s.cp.ss = true) (h : s.cp.txf = c :: cs) :
    clientLatch s = { s with cp := { s.cp with sh := .latched c, txf := cs } } := by
  simp only [clientLatch, hss, if_true, h]

theorem clientLatch_of_empty {s : State} (hss : s.cp.ss = true) (h : s.cp.txf = []) :
    clientLatch s =
      { s.drew.raise .cTxUnderflow with cp := { s.cp with sh := .latched s.drawn } } := by
  simp only [clientLatch, hss, if_true, h]

/-- The latch records the underflow of an empty FIFO while Slave-Select is asserted, and nothing else (R182). -/
theorem clientLatch_flt (s : State) :
    (clientLatch s).flt = s.flt ||| FaultBit.cTxUnderflow.when (s.cp.ss && s.cp.txf.isEmpty) := by
  obtain ⟨hss, h⟩ | ⟨b, rest, hss, htx, h⟩ | ⟨hss, htx, h⟩ := clientLatch_cases s <;> rw [h, hss]
  · simp [FaultBit.when]
  · simp [FaultBit.when, htx]
  · simp [FaultBit.when, htx]

theorem clientCapture_of_latched {out c : Byte} {s : State} (h : s.cp.sh = .latched c) :
    clientCapture out s =
      (c, { s with
            cp := { s.cp with
              sh := .idle
              rxf := if s.cp.rxf.length < s.cfg.rxd then s.cp.rxf ++ [out] else s.cp.rxf }
            flt := s.flt ||| FaultBit.cRxOverflow.when (!s.clientRxRoom) }) := by
  obtain ⟨c', hc, hs⟩ | ⟨v, hn, -⟩ | ⟨hn, -⟩ := clientCapture_cases out s
  · obtain rfl := ClientShift.latched.inj (hc.symm.trans h)
    simpa [State.clientRxRoom] using hs
  · rw [h] at hn; cases hn
  · rw [h] at hn; cases hn

theorem clientCapture_of_held {out v : Byte} {s : State} (h : s.cp.sh = .idle) (hl : s.env.line = .held v) :
    clientCapture out s = (v, s) := by
  simp only [clientCapture, h, undrivenByte, hl]

theorem clientCapture_of_float {out : Byte} {s : State} (h : s.cp.sh = .idle) (hl : s.env.line = .float) :
    clientCapture out s = (s.drawn, s.drew) := by
  simp only [clientCapture, h, undrivenByte, hl]

/-- With no byte latched the Client takes no part in the completion (R183). -/
theorem clientCapture_cp_of_idle {out : Byte} {s : State} (h : s.cp.sh = .idle) :
    (clientCapture out s).2.cp = s.cp := by
  cases hl : s.env.line with
  | held v => rw [clientCapture_of_held h hl]
  | float => rw [clientCapture_of_float h hl]; rfl

/-- The capture records the overflow of a latched Client's full FIFO, and nothing else (R183). -/
theorem clientCapture_flt (out : Byte) (s : State) :
    (clientCapture out s).2.flt =
      s.flt ||| FaultBit.cRxOverflow.when (s.cp.sh != .idle && decide (s.cfg.rxd ≤ s.cp.rxf.length)) := by
  obtain ⟨c, hc, h⟩ | ⟨v, hn, -, h⟩ | ⟨hn, -, h⟩ := clientCapture_cases out s <;> rw [h]
  · have hbusy : (s.cp.sh != .idle) = true := bne_iff_ne.2 (by simp [hc])
    simp [hbusy, State.clientRxRoom, ← decide_not]
  · simp [hn, FaultBit.when]
  · simp [hn, FaultBit.when]

/-! ### The two byte steps as records -/

/-- A decrement that stops at 0 is the subtraction of the natural numbers (R26, log 10). -/
theorem decrement_eq (n : Nat) : decrement n = n - 1 := by
  unfold decrement
  split <;> omega

/-- HS_START beside the Client's latch (R110, R182). -/
theorem hsStart_eq (s : State) :
    hsStart s =
      { s with
        hp := { s.hp with
          txf := if s.hp.txEn then s.hp.txf.tail else s.hp.txf
          sh := .busy s.shiftOut
          tcnt := if s.cfg.tcntDec = .atStart then s.hp.tcnt - 1 else s.hp.tcnt }
        cp := (clientLatch s).cp, flt := (clientLatch s).flt, draws := (clientLatch s).draws, hwTurn := false } := by
  rw [hsStart, decrement_eq]
  cases hss : s.cp.ss with
  | false => simp only [clientLatch, hss, Bool.false_eq_true, if_false]
  | true =>
    cases htx : s.cp.txf with
    | nil => simp only [clientLatch, hss, htx, if_true]; rfl
    | cons b rest => simp only [clientLatch, hss, htx, if_true]

theorem hsStart_cfg (s : State) : (hsStart s).cfg = s.cfg := by rw [hsStart_eq]

theorem hsStart_env (s : State) : (hsStart s).env = s.env := by rw [hsStart_eq]

/-- HS_COMPLETE beside the Client's capture (R111, R183). -/
theorem hsComplete_eq (out : Byte) (s : State) :
    hsComplete out s =
      { s with
        hp := { s.hp with
          rxf :=
            if s.hp.rxEn = true ∧ s.hp.rxf.length < s.cfg.rxd then s.hp.rxf ++ [(clientCapture out s).1]
            else s.hp.rxf
          tcnt := if s.cfg.tcntDec = .atComplete then s.hp.tcnt - 1 else s.hp.tcnt
          sh := .idle }
        cp := (clientCapture out s).2.cp, flt := (clientCapture out s).2.flt, draws := (clientCapture out s).2.draws
        hwTurn := false } := by
  simp only [hsComplete, decrement_eq, push, State.hostRxRoom, Bool.and_eq_true, decide_eq_true_eq]
  obtain ⟨c, -, h⟩ | ⟨v, -, -, h⟩ | ⟨-, -, h⟩ := clientCapture_cases out s <;> rw [h]

/-- The clock gating of R110 as conditions on the fields. -/
theorem State.hsStartEnabled_iff {s : State} (hsh : s.hp.sh = .idle) :
    s.hsStartEnabled = true ↔
      s.env.stalled = false ∧ s.hp.tcnt ≠ 0 ∧ (s.hp.txEn = true → s.hp.txf ≠ []) ∧
        (s.hp.rxEn = true → s.hp.rxf.length < s.cfg.rxd) := by
  simp [State.hsStartEnabled, State.hostBusy, State.hostCountZero, State.hostRxRoom, hsh, and_assoc, imp_iff_not_or]

/-- Between two bytes the Host peripheral has a step when HS_START has. -/
theorem State.enabled_hostPeripheral_of_idle {s : State} (hsh : s.hp.sh = .idle) :
    s.enabled .hostPeripheral = s.hsStartEnabled := by
  simp [State.enabled, State.hsCompleteEnabled, State.hostBusy, hsh]

/-! ### Picked byte steps -/

theorem clientLatch_after (s : State) (e : Event) (rest : List Pick) :
    clientLatch (s.after e rest) = (clientLatch s).after e rest := by
  cases hss : s.cp.ss with
  | false => rw [clientLatch_of_deasserted hss]; exact clientLatch_of_deasserted hss
  | true =>
    cases htx : s.cp.txf with
    | nil => rw [clientLatch_of_empty hss htx]; exact clientLatch_of_empty hss htx
    | cons c cs => rw [clientLatch_of_cons hss htx]; exact clientLatch_of_cons hss htx

theorem clientCapture_after (out : Byte) (s : State) (e : Event) (rest : List Pick) :
    clientCapture out (s.after e rest) = ((clientCapture out s).1, (clientCapture out s).2.after e rest) := by
  cases hsh : s.cp.sh with
  | latched c => rw [clientCapture_of_latched hsh]; exact clientCapture_of_latched hsh
  | idle =>
    cases hl : s.env.line with
    | held v => rw [clientCapture_of_held hsh hl]; exact clientCapture_of_held hsh hl
    | float => rw [clientCapture_of_float hsh hl]; exact clientCapture_of_float hsh hl

/-- A byte step does not read the picks. -/
theorem hsStart_after (s : State) (e : Event) (rest : List Pick) :
    hsStart (s.after e rest) = (hsStart s).after e rest := by
  rw [hsStart_eq, hsStart_eq, clientLatch_after]; rfl

theorem hsComplete_after (out : Byte) (s : State) (e : Event) (rest : List Pick) :
    hsComplete out (s.after e rest) = (hsComplete out s).after e rest := by
  rw [hsComplete_eq, hsComplete_eq, clientCapture_after]; rfl

/-- A picked Host peripheral starts a byte where R110 enables it. -/
theorem step_hsStart {s : State} {e : Event} {rest : List Pick} (hp : s.picks = ⟨.hostPeripheral, e⟩ :: rest)
    (hsh : s.hp.sh = .idle) (hen : s.hsStartEnabled = true) : step s = .next ((hsStart s).after e rest) := by
  have hlive : (s.after e rest).env.stalled = false := ((State.hsStartEnabled_iff hsh).1 hen).1
  have hsh' : (s.after e rest).hp.sh = .idle := hsh
  have hen' : (s.after e rest).hsStartEnabled = true := hen
  rw [step_of_picks hp, ← hsStart_after]
  simp only [runAgent, hostPeripheralStep, hlive, hsh', hen', Bool.false_eq_true, if_false, if_true, Option.getD_some]

/-- A picked Host peripheral completes the byte in flight unless the clock is stalled (R111). -/
theorem step_hsComplete {s : State} {out : Byte} {e : Event} {rest : List Pick}
    (hp : s.picks = ⟨.hostPeripheral, e⟩ :: rest) (hsh : s.hp.sh = .busy out) (hlive : s.env.stalled = false) :
    step s = .next ((hsComplete out s).after e rest) := by
  have hlive' : (s.after e rest).env.stalled = false := hlive
  have hsh' : (s.after e rest).hp.sh = .busy out := hsh
  rw [step_of_picks hp, ← hsComplete_after]
  simp only [runAgent, hostPeripheralStep, hlive', hsh', Bool.false_eq_true, if_false, Option.getD_some]

/-- Settles O18: HS_START beside the three cases of the latch; without the guard the agent is disabled. -/
theorem hsStartShiftsOneByte : Obligations.HsStartShiftsOneByte := by
  intro s e rest hp hsh guard
  have hguard : s.hsStartEnabled = true ↔ guard := State.hsStartEnabled_iff hsh
  constructor
  · intro hg
    have hdis : (s.after e rest).enabled .hostPeripheral = false :=
      (State.enabled_hostPeripheral_of_idle hsh).trans (Bool.eq_false_iff.2 (mt hguard.1 hg))
    rw [step_of_picks hp, runAgent_disabled hdis]
  · intro hg
    have htx : s.hp.txEn = true → s.hp.txf ≠ [] := hg.2.2.1
    refine ⟨_, step_hsStart hp hsh (hguard.2 hg), ?_⟩
    rw [hsStart_eq]
    refine ⟨rfl, fun hen => ?_, fun hen => ?_, fun hss => ?_, fun c cs hss htxf => ?_, fun hss htxf => ?_,
      .of_when (clientLatch_flt s) (by simp), .of_eq rfl rfl rfl⟩
    · obtain ⟨b, bs, hb⟩ := List.exists_cons_of_ne_nil (htx hen)
      simp [State.after, State.shiftOut, hen, hb]
    · simp [State.after, State.shiftOut, hen]
    · rw [clientLatch_of_deasserted hss]; exact ⟨rfl, rfl⟩
    · rw [clientLatch_of_cons hss htxf]; exact ⟨rfl, rfl⟩
    · rw [clientLatch_of_empty hss htxf]; exact ⟨_, rfl, rfl⟩

/-- Settles O19: HS_COMPLETE beside the three cases of the capture. -/
theorem hsCompleteReceivesOneByte : Obligations.HsCompleteReceivesOneByte := by
  intro s out e rest hp hsh hlive
  have hcount : (if s.cfg.tcntDec = .atComplete then s.hp.tcnt - 1 else s.hp.tcnt) =
      if s.cfg.tcntDec = .atComplete ∧ s.hp.tcnt ≠ 0 then s.hp.tcnt - 1 else s.hp.tcnt := by
    by_cases h0 : s.hp.tcnt = 0 <;> simp [h0]
  refine ⟨_, (clientCapture out s).1, step_hsComplete hp hsh hlive, ?_⟩
  rw [hsComplete_eq, hcount]
  refine ⟨rfl, fun c hc => ?_, fun hidle => ⟨clientCapture_cp_of_idle hidle, fun v hv => ?_, fun hf => ?_⟩,
    .of_when (clientCapture_flt out s) (by simp), .of_eq rfl rfl rfl⟩
  · rw [clientCapture_of_latched hc]; exact ⟨rfl, rfl, rfl⟩
  · rw [clientCapture_of_held hidle hv]; exact ⟨rfl, rfl⟩
  · rw [clientCapture_of_float hidle hf]; rfl

/-! ### One byte exchange (R112) -/

/-- The state after HS_START and HS_COMPLETE with nothing between them. -/
def State.exchanged (s : State) : State := hsComplete s.shiftOut (hsStart s)

/-- Two picks of the Host peripheral from a started transfer are one byte exchange. -/
theorem run_exchange {s : State} {e e' : Event} {rest : List Pick} (k : Nat)
    (hp : s.picks = ⟨.hostPeripheral, e⟩ :: ⟨.hostPeripheral, e'⟩ :: rest) (hsh : s.hp.sh = .idle)
    (hen : s.hsStartEnabled = true) :
    Host.Core.run core (k + 2) s = Host.Core.run core k (s.exchanged.after e' rest) := by
  have hlive := ((State.hsStartEnabled_iff hsh).1 hen).1
  obtain ⟨t, ht⟩ : ∃ t, t = (hsStart s).after e (⟨.hostPeripheral, e'⟩ :: rest) := ⟨_, rfl⟩
  have hstart : core.step s = .next t := ht ▸ step_hsStart hp hsh hen
  have hbusy : t.hp.sh = .busy s.shiftOut := by rw [ht, hsStart_eq]; rfl
  have hlive' : t.env.stalled = false := by rw [ht, hsStart_eq]; exact hlive
  have hcomplete : core.step t = .next (s.exchanged.after e' rest) := by
    refine (step_hsComplete (by rw [ht]; rfl) hbusy hlive').trans ?_
    rw [ht, hsComplete_after]; rfl
  simp only [Host.Core.run, hstart, hcomplete]

/-- Over a byte exchange the count goes down by one, at whichever of the two steps (R113). -/
theorem exchange_count (d : TcntDec) (n : Nat) :
    (if d = .atComplete then (if d = .atStart then n - 1 else n) - 1 else if d = .atStart then n - 1 else n) = n - 1 := by
  cases d <;> rfl

/-- What a byte exchange leaves of the Host peripheral and the environment (R112, R113). -/
theorem State.exchanged_host (s : State) :
    ∃ got : Byte, s.exchanged.hp =
      { s.hp with
        txf := if s.hp.txEn then s.hp.txf.tail else s.hp.txf
        rxf := if s.hp.rxEn = true ∧ s.hp.rxf.length < s.cfg.rxd then s.hp.rxf ++ [got] else s.hp.rxf
        tcnt := s.hp.tcnt - 1, sh := .idle } ∧
      s.exchanged.cfg = s.cfg ∧ s.exchanged.env = s.env := by
  refine ⟨(clientCapture s.shiftOut (hsStart s)).1, ?_⟩
  rw [State.exchanged, hsComplete_eq]
  simp only [hsStart_hp, hsStart_cfg, hsStart_env, exchange_count, and_self]

/-- A selected Client swaps the byte it latches for the one the Host shifts out (R112, R181). -/
theorem State.exchanged_of_selected {s : State} {c : Byte} {cs : List Byte} (hss : s.cp.ss = true)
    (htx : s.cp.txf = c :: cs) (hroom : s.cp.rxf.length < s.cfg.rxd) (hen : s.hp.rxEn = true)
    (hrx : s.hp.rxf.length < s.cfg.rxd) :
    s.exchanged =
      { s with
        hp := { s.hp with
          txf := if s.hp.txEn then s.hp.txf.tail else s.hp.txf
          rxf := s.hp.rxf ++ [c], tcnt := s.hp.tcnt - 1, sh := .idle }
        cp := { s.cp with txf := cs, rxf := s.cp.rxf ++ [s.shiftOut], sh := .idle }
        hwTurn := false } := by
  rw [State.exchanged, hsStart_eq, clientLatch_of_cons hss htx, hsComplete_eq, clientCapture_of_latched rfl]
  simp [hen, hrx, hroom, exchange_count, State.clientRxRoom, FaultBit.when]

/-- With the Client not selected the Host receives the held line and the Client is untouched (R112, R183). -/
theorem State.exchanged_of_held {s : State} {v : Byte} (hss : s.cp.ss = false) (hidle : s.cp.sh = .idle)
    (hl : s.env.line = .held v) (hen : s.hp.rxEn = true) (hrx : s.hp.rxf.length < s.cfg.rxd) :
    s.exchanged =
      { s with
        hp := { s.hp with
          txf := if s.hp.txEn then s.hp.txf.tail else s.hp.txf
          rxf := s.hp.rxf ++ [v], tcnt := s.hp.tcnt - 1, sh := .idle }
        hwTurn := false } := by
  have hstart := hsStart_eq s
  rw [clientLatch_of_deasserted hss] at hstart
  have hcapture : clientCapture s.shiftOut (hsStart s) = (v, hsStart s) :=
    clientCapture_of_held (by rw [hstart]; exact hidle) (by rw [hstart]; exact hl)
  rw [State.exchanged, hsComplete_eq, hcapture, hstart]
  simp [hen, hrx, exchange_count]

/-- Settles O20: the two steps are one exchange, with the Client selected or with the line held. -/
theorem byteExchangeSwapsBytes : Obligations.ByteExchangeSwapsBytes := by
  intro s b bs e e' rest hp hlive hsh hcount htxEn htxf hrxEn hroom
  have hen : s.hsStartEnabled = true :=
    (State.hsStartEnabled_iff hsh).2 ⟨hlive, hcount, by simp [htxf], fun _ => hroom⟩
  have hrun := run_exchange 0 hp hsh hen
  have hout : s.shiftOut = b := by simp [State.shiftOut, htxEn, htxf]
  constructor
  · intro c cs hss hctx hcroom
    rw [hrun, State.exchanged_of_selected hss hctx hcroom hrxEn hroom, hout]
    simp [Host.Core.run, State.after, htxEn, htxf, hsh]
  · intro v hss hidle hl
    rw [hrun, State.exchanged_of_held hss hidle hl hrxEn hroom]
    simp [Host.Core.run, State.after, htxEn, htxf, hsh]

end Sys2Proof.Machine
end

section
/-! The transaction counter (40_host_peripheral.md R113): which steps change it, and the exchanges a count allows. -/

namespace Sys2Proof.Machine

/-! ### Step by step -/

/-- The byte in flight and the count are as before. -/
def SameCount (s t : State) : Prop := t.hp.sh = s.hp.sh ∧ t.hp.tcnt = s.hp.tcnt

theorem SameCount.of_hp {s t : State} (h : t.hp = s.hp) : SameCount s t := ⟨by rw [h], by rw [h]⟩

/-- A phase of an operation other than the load S3 leaves the count (R147). -/
theorem engineStep_sameCount {k : Mode} {t r : Bool} {len : Byte} {s u : State} (hs3 : s.he.phase ≠ .s3)
    (h : engineStep k t r len s = .next u) : SameCount s u := by
  obtain ⟨-, h⟩ | ⟨-, rfl⟩ | ⟨-, h⟩ | ⟨hp, -⟩ | ⟨-, h⟩ | ⟨-, h⟩ | ⟨-, rfl⟩ | ⟨-, h⟩ := engineStep_cases h
  · obtain ⟨-, rfl⟩ | ⟨-, -, rfl⟩ | ⟨-, -, rfl⟩ := engineS0_cases h <;> exact ⟨rfl, rfl⟩
  · rw [engineS1_eq]; exact ⟨rfl, rfl⟩
  · obtain ⟨-, rfl⟩ | ⟨b, -, -, rfl⟩ := engineS2_cases h <;> exact ⟨rfl, rfl⟩
  · exact absurd hp hs3
  · obtain ⟨-, rfl⟩ | ⟨b, -, -, -, -, rfl⟩ := engineL1_cases h <;> exact ⟨rfl, rfl⟩
  · obtain ⟨u, hu, rfl⟩ := engineL2_cases h
    obtain ⟨_, _, _, rfl, -⟩ := drain_frame hu
    exact ⟨rfl, rfl⟩
  · obtain ⟨-, h⟩ | ⟨-, h⟩ := engineL3_cases s <;> rw [h] <;> exact ⟨rfl, rfl⟩
  · obtain ⟨u, hu, rfl⟩ := engineD_cases h
    obtain ⟨_, _, _, rfl, -⟩ := drain_frame hu
    exact ⟨rfl, rfl⟩

/-- Of the other commands of the host program only `H.LDTCNT` writes the count (R103). -/
theorem exec_hostPeripheral_sameCount {i : Instr} {s t : State} (hi : i.stream = .host) (he : i.engine? = none)
    (hload : ∀ n, i ≠ .hLdtcnt n) (h : exec i s = .next t) : SameCount s t := by
  cases i <;> simp only [Instr.stream, Instr.unit, CmdUnit.stream, Instr.engine?, reduceCtorEq] at hi he <;>
    obtain rfl := Host.Outcome.next.inj h
  case hClrbuf => rw [hClrbufEffect_eq]; exact ⟨rfl, rfl⟩
  case hSetdir => rw [hSetdirEffect_eq]; exact ⟨rfl, rfl⟩
  case hLdtcnt n => exact absurd rfl (hload n)
  case hWrtx => rw [hWrtxEffect_eq]; exact ⟨rfl, rfl⟩
  case hRdrx => obtain ⟨b, rest, -, h⟩ | ⟨-, h⟩ := hRdrxEffect_cases s <;> rw [h] <;> exact ⟨rfl, rfl⟩
  case envSsa => split <;> exact ⟨rfl, rfl⟩
  case envSsd => split <;> exact ⟨rfl, rfl⟩
  all_goals exact ⟨rfl, rfl⟩

/-- `State.loadsCount` names the loads of the host program: `H.LDTCNT` and the phase S3 (R103, R147). -/
theorem State.loadsCount_command {s : State} {i : Instr} (hi : s.hostIssue = .command i) :
    s.loadsCount = true ↔ (∃ n, i = .hLdtcnt n) ∨ i.engine? ≠ none ∧ s.he.phase = .s3 := by
  cases i <;> simp [State.loadsCount, hi, Instr.engine?]

/-- A step of the host program that is no load leaves the count. -/
theorem runIssue_host_sameCount {s t : State} (hload : s.loadsCount = false) (h : runIssue s.hostIssue s = .next t) :
    SameCount s t := by
  cases hi : s.hostIssue <;> simp only [hi, runIssue, Host.Outcome.next.injEq] at h
  case finished => subst h; exact ⟨rfl, rfl⟩
  case reserved => subst h; exact ⟨rfl, rfl⟩
  case command i =>
    have hno := mt (State.loadsCount_command hi).2 (by simp [hload])
    cases he : i.engine? with
    | some x =>
      have hs3 : s.he.phase ≠ .s3 := fun hp => hno (.inr ⟨by simp [he], hp⟩)
      exact engineStep_sameCount hs3 (exec_engine (k := x.1) he s ▸ h)
    | none =>
      exact exec_hostPeripheral_sameCount (State.hostIssue_stream hi).1 he (fun n hn => hno (.inl ⟨n, hn⟩)) h

/-- An agent other than the host program changes the Host peripheral by a byte step or not at all (R2). -/
theorem runAgent_hp {a : Agent} {s t : State} (ha : a ≠ .hostProgram) (h : runAgent a s = .next t) :
    t.hp = s.hp ∨ hostPeripheralStep s = some t := by
  cases a <;> simp only [runAgent, Host.Outcome.next.injEq] at h
  case hostProgram => exact absurd rfl ha
  case clientProgram =>
    cases hi : s.clientIssue <;> simp only [hi, runIssue, Host.Outcome.next.injEq] at h
    case finished => subst h; exact .inl rfl
    case reserved => subst h; exact .inl rfl
    case command i =>
      obtain ⟨_, _, _, _, _, _, rfl⟩ := exec_client_frame (State.clientIssue_stream hi).1 h
      exact .inl rfl
  case hostPeripheral =>
    cases hs : hostPeripheralStep s with
    | none => rw [hs] at h; exact .inl (by rw [← h]; rfl)
    | some u => rw [hs] at h; exact .inr (congrArg some h)
  case dispatcher =>
    subst h
    obtain ⟨e, -, -, hd⟩ | ⟨-, hd⟩ := dispatchOne_cases s <;> rw [hd]
    · obtain ⟨_, _, _, _, hf⟩ := runHandler_frame e s
      exact .inl (by rw [hf])
    · exact .inl rfl
  case clientPeripheral => subst h; exact .inl rfl
  case environment => subst h; exact .inl rfl

/-- A step that is no load of the counter is a byte step or leaves the count. -/
theorem step_count_cases {s t : State} (h : step s = .next t)
    (hload : ¬(s.nextPick.map Pick.agent = some .hostProgram ∧ s.loadsCount = true)) :
    SameCount s t ∨ hostPeripheralStep s.takePick = some t := by
  have hhp : SameCount s.takePick t → SameCount s t := by
    unfold SameCount; rw [State.takePick_hp]; exact id
  unfold step at h
  split at h
  next p hp =>
    by_cases ha : p.agent = .hostProgram
    · have hnl : s.takePick.loadsCount = false := by
        have hsame : s.takePick.loadsCount = s.loadsCount := by
          simp only [State.loadsCount, State.hostIssue, State.takePick_prog, State.takePick_pc, State.takePick_he]
        rw [hsame]
        exact Bool.eq_false_iff.2 fun hl => hload ⟨by rw [hp, Option.map_some, ha], hl⟩
      rw [ha] at h
      exact .inl (hhp (runIssue_host_sameCount hnl h))
    · exact (runAgent_hp ha h).imp_left fun hsame => hhp (.of_hp hsame)
  next =>
    obtain rfl := Host.Outcome.next.inj h
    exact .inl ⟨rfl, rfl⟩

/-! ### As a run -/

/-- At a count of 0 with no byte in flight the Host peripheral has no step (R113). -/
theorem State.hostPeripheral_stopped {s : State} (hsh : s.hp.sh = .idle) (h0 : s.hp.tcnt = 0) :
    s.enabled .hostPeripheral = false := by
  rw [State.enabled_hostPeripheral_of_idle hsh]
  simp [State.hsStartEnabled, State.hostCountZero, h0]

/-- Between two bytes, the paths that are enabled have what `n` exchanges need: bytes to send and room to receive. -/
structure State.ReadyFor (s : State) (n : Nat) : Prop where
  live : s.env.stalled = false
  idle : s.hp.sh = .idle
  count : s.hp.tcnt = n
  bytes : s.hp.txEn = true → n ≤ s.hp.txf.length
  room : s.hp.rxEn = true → s.hp.rxf.length + n ≤ s.cfg.rxd

theorem State.ReadyFor.enabled {s : State} {n : Nat} (h : s.ReadyFor (n + 1)) : s.hsStartEnabled = true := by
  refine (State.hsStartEnabled_iff h.idle).2 ⟨h.live, ?_, fun hen hnil => ?_, fun hen => ?_⟩
  · rw [h.count]; exact Nat.succ_ne_zero n
  · have := h.bytes hen
    rw [hnil, List.length_nil] at this
    omega
  · have := h.room hen
    omega

/-- One byte exchange uses up one of the `n`; it takes the oldest byte of an enabled transmit path and brings one to an
enabled receive path. -/
theorem State.ReadyFor.exchanged {s : State} {n : Nat} (h : s.ReadyFor (n + 1)) (e : Event) (rest : List Pick) :
    (s.exchanged.after e rest).ReadyFor n ∧
    s.exchanged.hp.txEn = s.hp.txEn ∧ s.exchanged.hp.rxEn = s.hp.rxEn ∧
    (s.hp.txEn = true → s.exchanged.hp.txf = s.hp.txf.drop 1) ∧
    (s.hp.rxEn = true → s.exchanged.hp.rxf.length = s.hp.rxf.length + 1) := by
  obtain ⟨got, hhp, hcfg, henv⟩ := s.exchanged_host
  have htxf : s.hp.txEn = true → s.exchanged.hp.txf = s.hp.txf.drop 1 := fun hen => by
    rw [hhp]; simp [hen]
  have hrxf : s.hp.rxEn = true → s.exchanged.hp.rxf.length = s.hp.rxf.length + 1 := fun hen => by
    have hlt : s.hp.rxf.length < s.cfg.rxd := by have := h.room hen; omega
    rw [hhp]; simp [hen, hlt]
  have htxEn : s.exchanged.hp.txEn = s.hp.txEn := by rw [hhp]
  have hrxEn : s.exchanged.hp.rxEn = s.hp.rxEn := by rw [hhp]
  refine ⟨⟨?_, ?_, ?_, fun hen => ?_, fun hen => ?_⟩, htxEn, hrxEn, htxf, hrxf⟩
  · exact (congrArg Environment.stalled henv).trans h.live
  · exact congrArg HostPeripheral.sh hhp
  · have hcount : s.exchanged.hp.tcnt = s.hp.tcnt - 1 := by rw [hhp]
    exact hcount.trans (by rw [h.count, Nat.add_sub_cancel])
  · have hen' := htxEn.symm.trans hen
    have hb := h.bytes hen'
    have hlen : s.exchanged.hp.txf.length = s.hp.txf.length - 1 := by rw [htxf hen', List.length_drop]
    show n ≤ s.exchanged.hp.txf.length
    omega
  · have hen' := hrxEn.symm.trans hen
    have hr := h.room hen'
    have hlen := hrxf hen'
    show s.exchanged.hp.rxf.length + n ≤ s.exchanged.cfg.rxd
    rw [hcfg]
    omega

/-- `m` exchanges from a count of `n` leave `n - m`; as many bytes have left and come in. -/
theorem run_exchanges {s : State} {n m : Nat} {e : Event} {rest : List Pick}
    (hp : s.picks = List.replicate (2 * m) ⟨.hostPeripheral, e⟩ ++ rest) (hm : m ≤ n) (h : s.ReadyFor n) :
    ∃ t, Host.Core.run core (2 * m) s = .next t ∧ t.picks = rest ∧ t.ReadyFor (n - m) ∧
      (s.hp.txEn = true → t.hp.txf = s.hp.txf.drop m) ∧
      (s.hp.rxEn = true → t.hp.rxf.length = s.hp.rxf.length + m) := by
  induction m generalizing s n with
  | zero => exact ⟨s, rfl, by simpa using hp, h, fun _ => rfl, fun _ => rfl⟩
  | succ m ih =>
    obtain ⟨n, rfl⟩ : ∃ n', n = n' + 1 := ⟨n - 1, by omega⟩
    obtain ⟨hready, htxEn, hrxEn, htxf, hrxf⟩ := h.exchanged e (List.replicate (2 * m) ⟨.hostPeripheral, e⟩ ++ rest)
    obtain ⟨t, hrun, hpicks, hn, htx, hrx⟩ := ih rfl (by omega) hready
    refine ⟨t, (run_exchange (2 * m) hp h.idle h.enabled).trans hrun, hpicks, ?_, fun hen => ?_, fun hen => ?_⟩
    · rwa [Nat.add_sub_add_right]
    · rw [htx (htxEn.trans hen), show (s.exchanged.after e _).hp.txf = _ from htxf hen, List.drop_drop, Nat.add_comm]
    · rw [hrx (hrxEn.trans hen), show (s.exchanged.after e _).hp.rxf.length = _ from hrxf hen]; omega

/-- Settles O21: a step that is no load is a byte step, whose record names the count, or leaves it; a run is an induction
over the exchanges. -/
theorem counterStopsClockAfterNExchanges : Obligations.CounterStopsClockAfterNExchanges := by
  constructor
  · intro s t h hload
    obtain hsame | hstep := step_count_cases h hload
    · exact .inl hsame
    · obtain ⟨out, rxf, hsh, -, hhp⟩ | ⟨out, hsh, hcount, -, hhp⟩ := hostPeripheralStep_hp hstep <;>
        rw [State.takePick_hp] at hsh hhp <;> rw [State.takePick_cfg] at hhp <;> rw [hhp]
      · exact .inr (.inr ⟨by simp [hsh], rfl, rfl⟩)
      · exact .inr (.inl ⟨hsh, by simp, by simpa using hcount, rfl⟩)
  · intro s n m e rest hp hm hlive hsh hcount hbytes hroom
    obtain ⟨t, hrun, hpicks, hready, htx, hrx⟩ := run_exchanges hp hm ⟨hlive, hsh, hcount, hbytes, hroom⟩
    exact ⟨t, hrun, hpicks, hready.idle, hready.count, htx, hrx, State.hostPeripheral_stopped hready.idle⟩

end Sys2Proof.Machine
end

section
/-! The phases of a Host engine operation (41_host_engine.md R141 to R152): each command in its phase as the record it
answers, and the drain of one received byte. -/

namespace Sys2Proof.Machine

/-! ### The step a phase names (R141) -/

section
variable {i : Instr} {x : Mode × Bool × Bool × Byte} {s : State} (he : i.engine? = some x)
include he

theorem exec_s1 (hp : s.he.phase = .s1) : exec i s = .next (engineS1 s) := by
  simp only [exec_engine (k := x.1) he, engineStep, hp]

theorem exec_s2 (hp : s.he.phase = .s2) : exec i s = phaseResult (engineS2 s) := by
  simp only [exec_engine (k := x.1) he, engineStep, hp]

theorem exec_s3 (hp : s.he.phase = .s3) : exec i s = .next (engineS3 s) := by
  simp only [exec_engine (k := x.1) he, engineStep, hp]

theorem exec_l1 (hp : s.he.phase = .l1) : exec i s = phaseResult (engineL1 s) := by
  simp only [exec_engine (k := x.1) he, engineStep, hp]

theorem exec_l2 (hp : s.he.phase = .l2) : exec i s = phaseResult (engineL2 s) := by
  simp only [exec_engine (k := x.1) he, engineStep, hp]

theorem exec_l3 (hp : s.he.phase = .l3) : exec i s = .next (engineL3 s) := by
  simp only [exec_engine (k := x.1) he, engineStep, hp]

theorem exec_d (hp : s.he.phase = .d) : exec i s = phaseResult (engineD s) := by
  simp only [exec_engine (k := x.1) he, engineStep, hp]

end

theorem Mode.txOn_iff {m : Mode} : m.txOn = true ↔ m ≠ .receive := bne_iff_ne

theorem Mode.rxOn_iff {m : Mode} : m.rxOn = true ↔ m ≠ .send := bne_iff_ne

/-! ### S0: the checks, the capture and the clear (R142, R143, R145) -/

section
variable {i : Instr} {k : Mode} {t r : Bool} {len : Byte} {s : State} (he : i.engine? = some (k, t, r, len))
  (hp : s.he.phase = .idle)
include he hp

theorem exec_idle : exec i s = engineS0 k t r len s := by
  simp only [exec_engine he, engineStep, hp]

/-- A length outside 1 to `LEN_MAX` returns `InvalidLength` (R142). -/
theorem exec_idle_of_invalid (hb : s.badOperand t r len = false) (hl : s.lengthValid len = false) :
    exec i s = .next { s with res := 1, resValid := true, pc := s.pc + 1 } := by
  simp only [exec_idle he hp, engineS0, hb, hl, Bool.false_eq_true, if_false]
  rfl

/-- A command that passes the checks starts its operation (R145). -/
theorem exec_idle_of_valid (hb : s.badOperand t r len = false) (hl : s.lengthValid len = true) :
    exec i s =
      .next { s with
        hp := { s.hp with txf := [], rxf := [] }
        he := { phase := .s1, mode := k, len := len.toNat, w := 0, r := 0, tx := s.attachedTx, rx := s.attachedRx }
        flt := s.flt ||| FaultBit.hClearBusy.when s.hostBusy } := by
  simp only [exec_idle he hp, engineS0, hb, hl, Bool.false_eq_true, if_false, if_true, hClrbufEffect_eq]
  rfl

end

/-- The length is checked against both its bounds (R29, R142). -/
theorem State.lengthValid_iff {s : State} {len : Byte} :
    s.lengthValid len = true ↔ 1 ≤ len.toNat ∧ len.toNat ≤ s.cfg.lenMax := by
  simp [State.lengthValid]

theorem byte_ne_zero_iff {b : Byte} : b ≠ 0 ↔ 1 ≤ b.toNat := by
  rw [ne_eq, BitVec.toNat_eq, Nat.one_le_iff_ne_zero]
  rfl

/-- Operands that are present and large enough pass the check (R88, R143). -/
theorem State.operands_ok {s : State} {t r : Bool} {len : Byte} (ht : s.attachedTx.isSome = t)
    (hr : s.attachedRx.isSome = r) (htx : ∀ xs, s.attachedTx = some xs → len.toNat ≤ xs.length)
    (hrx : ∀ n, s.attachedRx = some n → ∃ b, s.rxb[n]? = some b ∧ len.toNat ≤ b.size) :
    s.badOperand t r len = false := by
  have hnamed : s.rxNamed = true := by
    unfold State.rxNamed
    split
    next n hn =>
      obtain ⟨b, hb, -⟩ := hrx n hn
      exact decide_eq_true (List.getElem?_eq_some_iff.1 hb).1
    next => rfl
  have hlarge : s.operandsLargeEnough len = true := by
    unfold State.operandsLargeEnough
    refine Bool.and_eq_true_iff.2 ⟨?_, ?_⟩
    · split
      next xs hx => exact decide_eq_true (htx xs hx)
      next => rfl
    · split
      next n hn =>
        obtain ⟨b, hb, hsize⟩ := hrx n hn
        exact decide_eq_true (by simpa [State.spaceSize, hb] using hsize)
      next => rfl
  simp [State.badOperand, State.attachmentsMatch, ht, hr, hnamed, hlarge]

/-- Settles O23: the length check fails, for 0 and above `LEN_MAX`, after the operand check has passed. -/
theorem lengthZeroIsRejected : Obligations.LengthZeroIsRejected := by
  constructor
  · intro s i k t r he hp hm
    refine exec_idle_of_invalid he hp ?_ (by simp [State.lengthValid])
    simp [State.badOperand, hm]
  · intro s i k t r len he hp hb hmax
    refine exec_idle_of_invalid he hp hb (Bool.eq_false_iff.2 fun hl => ?_)
    have := (State.lengthValid_iff.1 hl).2
    omega

/-- Settles O24: the short operand, on either side, fails the size check. -/
theorem shortOperandIsRefused : Obligations.ShortOperandIsRefused := by
  intro s i k t r len he hp hm hlen hshort
  have hb : s.badOperand t r len = true := by
    by_contra hb
    obtain ⟨htx, hrx⟩ := State.operands_fit (Bool.eq_false_iff.2 hb) hlen
    obtain ⟨xs, hx, hlt⟩ | ⟨n, b, hn, hget, hlt⟩ := hshort
    · have := htx xs hx
      omega
    · have := hrx n hn
      simp only [State.spaceSize, hget, Option.map_some, Option.getD_some] at this
      omega
  exact exec_operandRefused (State.operandRefused_of_bad he hp hb)

/-- Settles O25: the records of S0 and S1, with the fault of `H.CLRBUF` and that of `H.SETDIR`. -/
theorem engineCapturesClearsAndSetsPaths : Obligations.EngineCapturesClearsAndSetsPaths := by
  intro s i k t r len he
  constructor
  · intro hp h0 hmax ht hr htx hrx
    have hb := State.operands_ok ht hr htx hrx
    have hl := State.lengthValid_iff.2 ⟨byte_ne_zero_iff.1 h0, hmax⟩
    exact ⟨_, exec_idle_of_valid he hp hb hl, rfl, .of_when rfl State.hostBusy_iff, .of_eq rfl rfl rfl⟩
  · intro hp
    refine ⟨_, exec_s1 he hp, ?_, ?_, ?_⟩ <;> rw [engineS1_eq]
    · cases s.he.mode <;> rfl
    · exact .of_when rfl (by simp [State.hostBusy, State.hostCountZero])
    · exact .of_eq rfl rfl rfl

/-! ### S2 and L1: the transmit bytes (R144, R146, R148) -/

/-- `txByte(i)` is the byte of the operand, or `FILL` where it is absent (R144). -/
theorem txByte_eq {s : State} {i : Nat} {b : Byte}
    (h : (∃ xs, s.he.tx = some xs ∧ xs[i]? = some b) ∨ s.he.tx = none ∧ b = s.cfg.fill) : s.txByte i = some b := by
  obtain ⟨xs, hx, hb⟩ | ⟨hx, rfl⟩ := h
  · rw [txByte_present hx (List.getElem?_eq_some_iff.1 hb).1, hb]
  · simp only [State.txByte, hx]

theorem loadTx_of_txByte {s : State} {i : Nat} {b : Byte} (h : s.txByte i = some b) :
    loadTx i s =
      some { s with
        hp := { s.hp with txf := if s.hostTxSpace then s.hp.txf ++ [b] else s.hp.txf }
        he := { s.he with w := i + 1 }
        flt := s.flt ||| FaultBit.hTxWriteErr.when (!s.hostTxSpace) } := by
  simp only [loadTx, h, Option.map_some, hWrtxEffect_eq]

theorem engineS2_of_receive {s : State} (h : s.he.mode = .receive) :
    engineS2 s = some { s with he := { s.he with phase := .s3 } } := by
  rw [engineS2, if_neg (mt Mode.txOn_iff.1 (by simp [h]))]
  rfl

theorem engineS2_of_txByte {s : State} {b : Byte} (hm : s.he.mode ≠ .receive) (h : s.txByte 0 = some b) :
    engineS2 s =
      some { s with
        hp := { s.hp with txf := if s.hostTxSpace then s.hp.txf ++ [b] else s.hp.txf }
        he := { s.he with w := 1, phase := .s3 }
        flt := s.flt ||| FaultBit.hTxWriteErr.when (!s.hostTxSpace) } := by
  rw [engineS2, if_pos (Mode.txOn_iff.2 hm), loadTx_of_txByte h]
  rfl

/-- Settles O26: the record of S2 for each kind, with the write error of a FIFO without space. -/
theorem enginePrimesFirstByte : Obligations.EnginePrimesFirstByte := by
  intro s i x he hp
  constructor
  · intro hm
    rw [exec_s2 he hp, engineS2_of_receive hm]
    rfl
  · intro b hm hb
    refine ⟨_, (exec_s2 he hp).trans (congrArg phaseResult (engineS2_of_txByte hm (txByte_eq hb))), ?_, ?_, ?_⟩
    · simp [State.hostTxSpace]
    · exact .of_when rfl (by simp [State.hostTxSpace])
    · exact .of_eq rfl rfl rfl

theorem engineL1_of_nothing {s : State}
    (h : s.he.mode = .receive ∨ s.he.len ≤ s.he.w ∨ s.cfg.txd ≤ s.hp.txf.length) :
    engineL1 s = some { s with he := { s.he with phase := .l2 } } := by
  have hg : ¬(s.he.mode.txOn && decide (s.he.w < s.he.len) && s.hostTxSpace) = true := by
    simp only [Bool.and_eq_true, Mode.txOn_iff, decide_eq_true_eq, State.hostTxSpace]
    rintro ⟨⟨hm, hw⟩, hsp⟩
    obtain h | h | h := h
    · exact hm h
    · omega
    · omega
  rw [engineL1, if_neg hg]
  rfl

theorem engineL1_of_txByte {s : State} {b : Byte} (hm : s.he.mode ≠ .receive) (hw : s.he.w < s.he.len)
    (hsp : s.hp.txf.length < s.cfg.txd) (h : s.txByte s.he.w = some b) :
    engineL1 s =
      some { s with hp := { s.hp with txf := s.hp.txf ++ [b] }, he := { s.he with w := s.he.w + 1, phase := .l2 } } := by
  have hspace : s.hostTxSpace = true := decide_eq_true hsp
  have hg : (s.he.mode.txOn && decide (s.he.w < s.he.len) && s.hostTxSpace) = true := by
    simp [Mode.txOn_iff.2 hm, hw, hspace]
  rw [engineL1, if_pos hg, loadTx_of_txByte h]
  simp [hspace, FaultBit.when, State.toPhase]

/-- Settles O28: the record of L1 where it loads nothing and where it loads a byte. -/
theorem engineRefillsOneByte : Obligations.EngineRefillsOneByte := by
  intro s i x he hp
  rw [exec_l1 he hp]
  exact ⟨fun h => congrArg phaseResult (engineL1_of_nothing h),
    fun b hm hw hsp hb => congrArg phaseResult (engineL1_of_txByte hm hw hsp (txByte_eq hb))⟩

/-! ### S3: the load (R147) -/

/-- Settles O27: the record of S3; a captured length is an 8-bit number other than 0, so it is no load of 0. -/
theorem engineStartsTransfer : Obligations.EngineStartsTransfer := by
  intro s i x he hp h1 h255
  have hlen : (BitVec.ofNat 8 s.he.len).toNat = s.he.len := Nat.mod_eq_of_lt (by omega)
  have h0 : BitVec.ofNat 8 s.he.len ≠ 0 := byte_ne_zero_iff.2 (by omega)
  refine ⟨_, exec_s3 he hp, ?_, ?_, ?_, ?_⟩ <;> rw [engineS3_eq]
  · intro hw
    exact (s.loadedCount_eq _ hw).trans hlen
  · refine .of_flt (m := s.loadFaults (BitVec.ofNat 8 s.he.len)) ?_ fun f => ?_
    · simp only [State.loadFaults, BitVec.or_assoc]
    · rw [s.loadFaults_bit]
      simp only [h0, and_false, false_or, not_false_eq_true, true_and, ne_eq]
  · exact .of_eq rfl rfl rfl

/-! ### L3: the termination test (R151) -/

theorem State.hostCountZero_iff {s : State} : s.hostCountZero = true ↔ s.hp.tcnt = 0 := beq_iff_eq

theorem engineL3_of_zero {s : State} (h : s.hp.tcnt = 0) : engineL3 s = { s with he := { s.he with phase := .d } } := by
  rw [engineL3, if_pos (State.hostCountZero_iff.2 h)]
  rfl

theorem engineL3_of_nonzero {s : State} (h : s.hp.tcnt ≠ 0) :
    engineL3 s = { s with he := { s.he with phase := .l1 }, hwTurn := true } := by
  rw [engineL3, if_neg (mt State.hostCountZero_iff.1 h)]
  rfl

/-- Settles O30: the record of L3 at a count of 0 and at any other. -/
theorem engineLoopEndsOnCounterAlone : Obligations.EngineLoopEndsOnCounterAlone := by
  intro s i x he hp
  rw [exec_l3 he hp]
  exact ⟨fun h => congrArg _ (engineL3_of_zero h), fun h => congrArg _ (engineL3_of_nonzero h)⟩

/-! ### L2 and D: the drain (R149, R150) -/

theorem drain_of_nothing {s : State} (h : s.he.mode = .send ∨ s.hp.rxf = []) : drain s = some s := by
  obtain hm | hf := h
  · simp only [drain, hm]
    rfl
  · cases hon : s.he.mode.rxOn <;> simp [drain, hon, hf]

/-- What a drain leaves of the receive sequences when it takes the byte `b`: the byte at the read index of `RXB`, where
there is one and the index is below the length, and every other byte as before (R149). -/
structure StoredByte (s : State) (b : Byte) (rxb : List Space) : Prop where
  stored : ∀ n, s.he.rx = some n → s.he.r < s.he.len → ({ s with rxb := rxb } : State).byteAt (.rxb n) s.he.r = b
  frame : ∀ k j, ¬(s.he.rx = some k ∧ s.he.r < s.he.len ∧ j = s.he.r) →
    ({ s with rxb := rxb } : State).byteAt (.rxb k) j = s.byteAt (.rxb k) j
  size : ∀ k, ({ s with rxb := rxb } : State).spaceSize (.rxb k) = s.spaceSize (.rxb k)
  discarded : s.he.rx = none ∨ s.he.len ≤ s.he.r → rxb = s.rxb

/-- A discarded byte leaves the sequences. -/
theorem StoredByte.of_discarded {s : State} {b : Byte} (h : s.he.rx = none ∨ s.he.len ≤ s.he.r) :
    StoredByte s b s.rxb where
  stored n hn hlt := by
    obtain h | h := h
    · rw [hn] at h; cases h
    · omega
  frame _ _ _ := rfl
  size _ := rfl
  discarded _ := rfl

/-- A byte written inside its sequence. -/
theorem StoredByte.of_written {s : State} {b : Byte} {n : Nat} (hn : s.he.rx = some n) (hlt : s.he.r < s.he.len)
    (hin : s.he.r < s.spaceSize (.rxb n)) : StoredByte s b (writeRxb s.rxb n s.he.r b) := by
  have hlen : n < s.rxb.length := by
    by_contra hout
    rw [State.spaceSize, List.getElem?_eq_none (Nat.not_lt.1 hout)] at hin
    exact absurd hin (Nat.not_lt_zero _)
  refine ⟨fun m hm _ => ?_, fun k j hkj => ?_, s.spaceSize_writeRxb n _ b, fun h => ?_⟩
  · obtain rfl := Option.some.inj (hn.symm.trans hm)
    rw [State.byteAt_writeRxb s n _ b hlen, if_pos ⟨rfl, rfl⟩]
  · rw [State.byteAt_writeRxb s n _ b hlen, if_neg]
    rintro ⟨rfl, rfl⟩
    exact hkj ⟨hn, hlt, rfl⟩
  · obtain h | h := h
    · rw [hn] at h; cases h
    · omega

/-- The read index after a drain that takes a byte: it stops at the length (R149). -/
def State.nextRead (s : State) : Nat := if s.he.r < s.he.len then s.he.r + 1 else s.he.r

/-- A drain with the receive path on and a byte waiting takes that one byte (R149, R150). -/
theorem drain_of_cons {s : State} {b : Byte} {bs : List Byte} (hm : s.he.mode ≠ .send) (hf : s.hp.rxf = b :: bs)
    (hin : ∀ n, s.he.rx = some n → s.he.r < s.he.len → s.he.r < s.spaceSize (.rxb n)) :
    ∃ rxb, StoredByte s b rxb ∧
      drain s =
        some { s with hp := { s.hp with rxf := bs }, he := { s.he with r := s.nextRead }, rxb := rxb } := by
  obtain ⟨t, ht⟩ := store_isSome (b := b) (s := { s with hp := { s.hp with rxf := bs } }) hin
  have hdrain : drain s = some t := by simp only [drain, Mode.rxOn_iff.2 hm, hf, if_true, ht]
  rw [hdrain]
  obtain ⟨hge, rfl⟩ | ⟨hlt, hrx, rfl⟩ | ⟨n, hlt, hrx, hin, rfl⟩ := store_cases ht
  · refine ⟨s.rxb, .of_discarded (.inr hge), ?_⟩
    rw [State.nextRead, if_neg (Nat.not_lt.2 hge)]
  · refine ⟨s.rxb, .of_discarded (.inl hrx), ?_⟩
    rw [State.nextRead, if_pos hlt]
  · refine ⟨_, .of_written hrx hlt hin, ?_⟩
    rw [State.nextRead, if_pos hlt]

/-- Settles O29: nothing to drain, or one byte taken, which is past the length, without a sequence, or stored. -/
theorem engineDrainsOneByte : Obligations.EngineDrainsOneByte := by
  intro s i x he hp
  rw [exec_l2 he hp, engineL2]
  refine ⟨fun h => by rw [drain_of_nothing h]; rfl, fun b bs hm hf => ⟨fun hge => ?_, fun hlt hrx => ?_, ?_⟩⟩
  · obtain ⟨rxb, hst, hd⟩ := drain_of_cons hm hf fun n _ hlt => absurd hge (Nat.not_le.2 hlt)
    rw [hd, hst.discarded (.inr hge), State.nextRead, if_neg (Nat.not_lt.2 hge)]
    rfl
  · obtain ⟨rxb, hst, hd⟩ := drain_of_cons hm hf fun n hn _ => by rw [hrx] at hn; cases hn
    rw [hd, hst.discarded (.inl hrx), State.nextRead, if_pos hlt]
    rfl
  · intro n hlt hrx hin
    obtain ⟨rxb, hst, hd⟩ := drain_of_cons hm hf fun m hm' _ => by
      obtain rfl := Option.some.inj (hrx.symm.trans hm')
      exact hin
    rw [hd, State.nextRead, if_pos hlt]
    refine ⟨_, rfl, rfl, hst.stored n hrx hlt, fun k j hkj => hst.frame k j ?_, hst.size, fun _ => rfl⟩
    rintro ⟨hk, -, rfl⟩
    exact hkj ⟨(Option.some.inj (hrx.symm.trans hk)).symm, rfl⟩

/-- D with nothing to drain returns (R150, R152). -/
theorem exec_d_of_nothing {i : Instr} {x : Mode × Bool × Bool × Byte} {s : State} (he : i.engine? = some x)
    (hp : s.he.phase = .d) (h : s.he.mode = .send ∨ s.hp.rxf = []) :
    exec i s = .next { s with res := 0, resValid := true, pc := s.pc + 1, he := { s.he with phase := .idle } } := by
  rw [exec_d he hp, engineD, drain_of_nothing h]
  rfl

/-- D with a byte waiting drains that one and returns (R150, R152). -/
theorem exec_d_of_cons {i : Instr} {x : Mode × Bool × Bool × Byte} {s : State} {b : Byte} {bs : List Byte}
    (he : i.engine? = some x) (hp : s.he.phase = .d) (hm : s.he.mode ≠ .send) (hf : s.hp.rxf = b :: bs)
    (hin : ∀ n, s.he.rx = some n → s.he.r < s.he.len → s.he.r < s.spaceSize (.rxb n)) :
    ∃ rxb, StoredByte s b rxb ∧
      exec i s =
        .next { s with
          res := 0, resValid := true, pc := s.pc + 1, hp := { s.hp with rxf := bs }
          he := { s.he with r := s.nextRead, phase := .idle }, rxb := rxb } := by
  obtain ⟨rxb, hst, hd⟩ := drain_of_cons hm hf hin
  refine ⟨rxb, hst, ?_⟩
  rw [exec_d he hp, engineD, hd]
  rfl

/-- Settles O31: the record of D with nothing to drain and with a byte waiting. -/
theorem engineDrainsOnceAndReturns : Obligations.EngineDrainsOnceAndReturns := by
  intro s i x he hp
  refine ⟨exec_d_of_nothing he hp, fun b bs hm hf hin => ?_⟩
  obtain ⟨rxb, hst, hd⟩ := exec_d_of_cons he hp hm hf hin
  exact ⟨_, hd, rfl, hst.stored, hst.frame, hst.size, fun _ => rfl⟩

/-- Settles O36: under the margin at most one byte waits and the read index is that many short of the length; the slots
from the new read index on are past the one D writes. -/
theorem drainMarginCompletesReceive : Obligations.DrainMarginCompletesReceive := by
  intro s i x he hp hm hs
  have hc := hs.captured (by rw [hp]; rfl)
  have hin : ∀ n, s.he.rx = some n → s.he.r < s.he.len → s.he.r < s.spaceSize (.rxb n) :=
    fun n hn hlt => hlt.trans_le (hc.rx_fits n hn)
  unfold State.hostDrainMargin
  cases hf : s.hp.rxf with
  | nil =>
    refine ⟨_, exec_d_of_nothing he hp (.inr hf), rfl, rfl, fun hmargin => ⟨hmargin.1, hf, ?_⟩, fun _ _ _ _ => rfl, ?_⟩
    · intro n b _ hb
      cases hb
    · intro b b' bs hb
      cases hb
  | cons b bs =>
    obtain ⟨rxb, hst, hd⟩ := exec_d_of_cons he hp hm hf hin
    have hnext : s.he.r < s.he.len → s.nextRead = s.he.r + 1 := fun hlt => if_pos hlt
    refine ⟨_, hd, rfl, rfl, fun hmargin => ?_, fun n j hn hj => ?_, fun c c' cs hcs => ?_⟩
    · rw [List.length_cons] at hmargin
      have hlt : s.he.r < s.he.len := by omega
      have hbs : bs = [] := List.eq_nil_of_length_eq_zero (by omega)
      refine ⟨(hnext hlt).trans (by omega), hbs, fun n c hn hc => ?_⟩
      obtain ⟨rfl, -⟩ := List.cons.inj hc
      exact hst.stored n hn hlt
    · refine hst.frame n j ?_
      rintro ⟨-, hlt, rfl⟩
      have hj : s.nextRead ≤ s.he.r := hj
      rw [hnext hlt] at hj
      omega
    · exact (List.cons.inj hcs).2

end Sys2Proof.Machine
end

section
/-! Whole operations, step by step: the bytes go out in order, an operation begun with the Host quiet records no Host
fault, and `SEND` receives nothing (41_host_engine.md R153, R154, R156). A step of the block is the host program's
command, a byte step, or one that leaves the Host side, so each invariant is shown for these three. -/

namespace Sys2Proof.Machine

/-! ### Host faults: the seven bits the Host side records (R262) -/

/-- The seven Host fault bits are as before. -/
def SameHostFaults (s t : State) : Prop := ∀ f : FaultBit, f.index < 7 → t.hasFault f = s.hasFault f

theorem SameHostFaults.of_flt {s t : State} (h : t.flt = s.flt) : SameHostFaults s t := fun f _ => by
  simp only [State.hasFault, h]

theorem SameHostFaults.trans {s t u : State} (h : SameHostFaults s t) (h' : SameHostFaults t u) : SameHostFaults s u :=
  fun f hf => (h' f hf).trans (h f hf)

/-- Recording a cause of the Client side leaves them. -/
theorem SameHostFaults.of_mask {s t : State} {f : FaultBit} (h : t.flt = s.flt ||| f.mask) (hf : 7 ≤ f.index) :
    SameHostFaults s t := fun g hg => by
  simp only [State.hasFault, h, BitVec.getLsbD_or, FaultBit.getLsbD_mask,
    decide_eq_false (show ¬g.index = f.index by omega), Bool.or_false]

theorem SameHostFaults.of_when {s t : State} {f : FaultBit} {c : Bool} (h : t.flt = s.flt ||| f.when c)
    (hf : 7 ≤ f.index) : SameHostFaults s t := by
  cases c with
  | false => exact .of_flt (by simpa [FaultBit.when] using h)
  | true => exact .of_mask h hf

theorem cWrtxEffect_hostFaults (b : Byte) (s : State) : SameHostFaults s (cWrtxEffect b s) := by
  rw [cWrtxEffect_eq]; exact .of_when rfl (by decide)

theorem cRdrxEffect_hostFaults (s : State) : SameHostFaults s (cRdrxEffect s).2 := by
  obtain ⟨b, rest, -, h⟩ | ⟨-, h⟩ := cRdrxEffect_cases s <;> rw [h]
  · exact .of_flt rfl
  · exact .of_mask rfl (by decide)

theorem ceRecvEffect_hostFaults (b : Byte) (s : State) : SameHostFaults s (ceRecvEffect b s) := by
  obtain ⟨-, h⟩ | ⟨-, h⟩ := ceRecvEffect_cases b s <;> rw [h]
  · exact .of_flt rfl
  · exact .of_mask rfl (by decide)

theorem ceReqEffect_hostFaults (s : State) : SameHostFaults s (ceReqEffect s).2 := by
  obtain ⟨-, h⟩ | ⟨-, h⟩ := ceReqEffect_cases s <;> rw [h] <;> exact .of_flt rfl

theorem runHandler_hostFaults (e : Event) (s : State) : SameHostFaults s (runHandler e s) := by
  cases e with
  | start => exact .of_flt rfl
  | stop => exact .of_flt rfl
  | rx => exact (cRdrxEffect_hostFaults s).trans (ceRecvEffect_hostFaults _ _)
  | tx => exact (ceReqEffect_hostFaults s).trans (cWrtxEffect_hostFaults _ _)

theorem dispatchOne_hostFaults (s : State) : SameHostFaults s (dispatchOne s) := by
  obtain ⟨e, -, -, h⟩ | ⟨-, h⟩ := dispatchOne_cases s <;> rw [h]
  · exact runHandler_hostFaults e s
  · exact .of_flt rfl

/-- A command of the client program records no Host fault (R2). -/
theorem exec_client_hostFaults {i : Instr} {s t : State} (hi : i.stream = .client) (h : exec i s = .next t) :
    SameHostFaults s t := by
  cases i <;> simp only [Instr.stream, Instr.unit, CmdUnit.stream, reduceCtorEq] at hi <;>
    obtain rfl := Host.Outcome.next.inj h
  case cWrtx b => exact cWrtxEffect_hostFaults b s
  case cRdrx => exact cRdrxEffect_hostFaults s
  case ceRecv b => exact ceRecvEffect_hostFaults b s
  case ceReq => exact ceReqEffect_hostFaults s
  case ceDispatch => exact dispatchOne_hostFaults s
  all_goals exact .of_flt rfl

/-- A byte step records at most the Client's underflow or overflow (R182, R183). -/
theorem hostPeripheralStep_hostFaults {s t : State} (h : hostPeripheralStep s = some t) : SameHostFaults s t := by
  obtain ⟨out, -, -, rfl⟩ | ⟨-, -, rfl⟩ := hostPeripheralStep_cases h
  · exact .of_when (by rw [hsComplete_eq]; exact clientCapture_flt out s) (by decide)
  · exact .of_when (by rw [hsStart_eq]; exact clientLatch_flt s) (by decide)

/-! ### The three kinds of step -/

theorem State.takePick_sameHost (s : State) : SameHost s s.takePick := by constructor <;> simp

theorem State.takePick_hostFaults (s : State) : SameHostFaults s s.takePick := .of_flt (by simp)

/-- A step leaves the Host side, or is a byte step, or runs a command of the host program. -/
theorem step_host_cases {s t : State} (h : step s = .next t) :
    (SameHost s t ∧ t.hp = s.hp ∧ SameHostFaults s t) ∨
    hostPeripheralStep s.takePick = some t ∨
    ∃ i, s.hostIssue = .command i ∧ exec i s.takePick = .next t := by
  have hsame : ∀ {u : State}, SameHost s.takePick u → u.hp = s.takePick.hp → SameHostFaults s.takePick u →
      SameHost s u ∧ u.hp = s.hp ∧ SameHostFaults s u := fun hh hhp hf =>
    ⟨s.takePick_sameHost.trans hh, hhp.trans s.takePick_hp, s.takePick_hostFaults.trans hf⟩
  obtain ⟨-, rfl⟩ | rfl | rfl | ⟨i, hi, h⟩ | ⟨i, hi, h⟩ | h | ⟨e, -, -, rfl⟩ := step_cases h
  · exact .inl ⟨.refl _, rfl, .of_flt rfl⟩
  · exact .inl (hsame (.refl _) rfl (.of_flt rfl))
  · exact .inl (hsame ⟨rfl, rfl, rfl, rfl, rfl, rfl⟩ rfl (.of_flt rfl))
  · exact .inr (.inr ⟨i, s.takePick_sameHost.issue ▸ hi, h⟩)
  · have hst := (State.clientIssue_stream hi).1
    have hf := exec_client_hostFaults hst h
    obtain ⟨_, _, _, _, _, _, rfl⟩ := exec_client_frame hst h
    exact .inl (hsame ⟨rfl, rfl, rfl, rfl, rfl, rfl⟩ rfl hf)
  · exact .inr (.inl h)
  · have hf := runHandler_hostFaults e s.takePick
    obtain ⟨_, _, _, _, hr⟩ := runHandler_frame e s.takePick
    refine .inl (hsame ?_ ?_ hf) <;> rw [hr]
    exact ⟨rfl, rfl, rfl, rfl, rfl, rfl⟩

/-- A byte step leaves the Host side but for the Host peripheral. -/
theorem hostPeripheralStep_sameHost {s t : State} (h : hostPeripheralStep s = some t) : SameHost s t := by
  obtain ⟨_, _, _, _, rfl⟩ := hostPeripheralStep_frame h
  exact ⟨rfl, rfl, rfl, rfl, rfl, rfl⟩

/-- While an operation runs, the host program's step is one of its phases (R140). -/
theorem exec_of_running {s t : State} {i : Instr} (hs : s.Inv) (hr : s.he.phase.running = true)
    (hi : s.hostIssue = .command i) (h : exec i s = .next t) : ∃ k tt r len, engineStep k tt r len s = .next t := by
  cases he : i.engine? with
  | some x => exact ⟨x.1, x.2.1, x.2.2.1, x.2.2.2, exec_engine (k := x.1) he s ▸ h⟩
  | none => rw [hs.engine.idle hi he] at hr; cases hr

/-! ### The transmit FIFO in order (R156) -/

/-- The FIFO holds, in order, the bytes `byte` gives just below the index `w`. -/
def InOrder (byte : Nat → Option Byte) (w : Nat) (f : List Byte) : Prop :=
  f.length ≤ w ∧ ∀ k, k < f.length → f[k]? = byte (w - f.length + k)

theorem InOrder.nil (byte : Nat → Option Byte) (w : Nat) : InOrder byte w [] :=
  ⟨Nat.zero_le w, fun _ hk => absurd hk (Nat.not_lt_zero _)⟩

/-- A shift takes the oldest byte. -/
theorem InOrder.tail {byte : Nat → Option Byte} {w : Nat} {f : List Byte} (h : InOrder byte w f) :
    InOrder byte w f.tail := by
  obtain ⟨hle, hget⟩ := h
  cases f with
  | nil => exact .nil byte w
  | cons b rest =>
    rw [List.length_cons] at hle hget
    refine ⟨by rw [List.tail_cons]; omega, fun k hk => ?_⟩
    rw [List.tail_cons] at hk ⊢
    rw [← List.getElem?_cons_succ (a := b), hget (k + 1) (by omega)]
    congr 1
    omega

/-- A load appends the byte of the index and advances it. -/
theorem InOrder.push {byte : Nat → Option Byte} {w : Nat} {f : List Byte} {b : Byte} (h : InOrder byte w f)
    (hb : byte w = some b) : InOrder byte (w + 1) (f ++ [b]) := by
  obtain ⟨hle, hget⟩ := h
  have hlen : (f ++ [b]).length = f.length + 1 := by simp
  refine ⟨by omega, fun k hk => ?_⟩
  have hw : w + 1 - (f ++ [b]).length + k = w - f.length + k := by omega
  rw [hw]
  obtain hk | rfl : k < f.length ∨ k = f.length := by omega
  · rw [List.getElem?_append_left hk, hget k hk]
  · rw [List.getElem?_concat_length, ← hb]
    congr 1
    omega

/-- `State.txInOrder`, by the phase and the direction of the operation. -/
theorem State.txInOrder_iff {s : State} :
    s.txInOrder ↔
      (s.he.phase = .s1 ∨ s.he.phase = .s2 → s.hp.txf = [] ∧ s.he.w = 0) ∧
      (s.he.phase.running = true → s.he.phase ≠ .s1 → s.he.phase ≠ .s2 →
        if s.he.mode.txOn then InOrder s.txByte s.he.w s.hp.txf else s.hp.txf = []) := Iff.rfl

/-- `txByte` reads the operand and the parameters (R144). -/
theorem txByte_congr {s t : State} (hcfg : t.cfg = s.cfg) (htx : t.he.tx = s.he.tx) : t.txByte = s.txByte := by
  funext j
  cases hx : s.he.tx <;>
    simp only [State.txByte, State.memRead, State.spaceSize, State.byteAt, unlisted, htx, hcfg, hx]

/-- With no operation under way nothing is loaded. -/
theorem State.txInOrder_of_idle {s : State} (h : s.he.phase = .idle) : s.txInOrder :=
  State.txInOrder_iff.2 ⟨by simp [h], by simp [h, Phase.running]⟩

/-- S0 and S1 leave an empty FIFO and an index of 0. -/
theorem State.txInOrder_of_start {s : State} (hp : s.he.phase = .s1 ∨ s.he.phase = .s2) (hf : s.hp.txf = [])
    (hw : s.he.w = 0) : s.txInOrder :=
  State.txInOrder_iff.2 ⟨fun _ => ⟨hf, hw⟩, by tauto⟩

/-- From S3 on only the direction matters. -/
theorem State.txInOrder_of_loaded {s : State} (h1 : s.he.phase ≠ .s1) (h2 : s.he.phase ≠ .s2)
    (h : if s.he.mode.txOn then InOrder s.txByte s.he.w s.hp.txf else s.hp.txf = []) : s.txInOrder :=
  State.txInOrder_iff.2 ⟨by tauto, fun _ _ _ => h⟩

/-- A step that leaves the operation, and the FIFO or but for its oldest byte, keeps the order. -/
theorem State.txInOrder.of_sameHost {s t : State} (hs : s.txInOrder) (h : SameHost s t)
    (hf : t.hp.txf = s.hp.txf ∨ t.hp.txf = s.hp.txf.tail) : t.txInOrder := by
  obtain ⟨hstart, hloaded⟩ := State.txInOrder_iff.1 hs
  rw [State.txInOrder_iff, txByte_congr h.cfg (congrArg HostEngine.tx h.he), h.he]
  constructor
  · intro hp
    obtain ⟨hnil, hw⟩ := hstart hp
    rw [hnil, List.tail_nil, or_self] at hf
    exact ⟨hf, hw⟩
  · intro hr h1 h2
    have hl := hloaded hr h1 h2
    split at hl
    next hon =>
      rw [if_pos hon]
      obtain hf | hf := hf <;> rw [hf]
      exacts [hl, hl.tail]
    next hoff =>
      rw [hl, List.tail_nil, or_self] at hf
      rwa [if_neg hoff]

/-- A byte step leaves the FIFO, or takes its oldest byte (R110). -/
theorem hostPeripheralStep_txf {s t : State} (h : hostPeripheralStep s = some t) :
    t.hp.txf = s.hp.txf ∨ t.hp.txf = s.hp.txf.tail := by
  obtain ⟨out, rxf, -, -, ht⟩ | ⟨out, -, -, -, ht⟩ := hostPeripheralStep_hp h <;> rw [ht]
  · exact .inl rfl
  · dsimp only
    split
    · exact .inr rfl
    · exact .inl rfl

/-- Every phase of an operation keeps the order: S0 clears the FIFO, S2 and L1 load the byte of the index (R145, R146,
R148). -/
theorem engineStep_txInOrder {k : Mode} {t r : Bool} {len : Byte} {s u : State} (hs0 : s.he.phase ≠ .s0)
    (hs : s.txInOrder) (h : engineStep k t r len s = .next u) : u.txInOrder := by
  obtain ⟨hstart, hloaded⟩ := State.txInOrder_iff.1 hs
  obtain ⟨hp, h⟩ | ⟨hp, rfl⟩ | ⟨hp, h⟩ | ⟨hp, rfl⟩ | ⟨hp, h⟩ | ⟨hp, h⟩ | ⟨hp, rfl⟩ | ⟨hp, h⟩ := engineStep_cases h
  · have hidle := hp.resolve_right hs0
    obtain ⟨-, rfl⟩ | ⟨-, -, rfl⟩ | ⟨-, -, rfl⟩ := engineS0_cases h
    · exact State.txInOrder_of_idle hidle
    · exact State.txInOrder_of_idle hidle
    · exact State.txInOrder_of_start (.inl rfl) rfl rfl
  · obtain ⟨hnil, hw⟩ := hstart (.inl hp)
    rw [engineS1_eq]
    exact State.txInOrder_of_start (.inr rfl) hnil hw
  · obtain ⟨hnil, hw⟩ := hstart (.inr hp)
    obtain ⟨hoff, rfl⟩ | ⟨b, hon, hb, rfl⟩ := engineS2_cases h
    · refine State.txInOrder_of_loaded (by simp) (by simp) ?_
      dsimp only
      rw [hoff]
      exact hnil
    · refine State.txInOrder_of_loaded (by simp) (by simp) ?_
      dsimp only
      rw [hon, if_pos rfl, hnil]
      split
      · exact (InOrder.nil s.txByte 0).push hb
      · exact .nil _ _
  all_goals have hl := hloaded (by rw [hp]; rfl) (by simp [hp]) (by simp [hp])
  · rw [engineS3_eq]
    exact State.txInOrder_of_loaded (by simp) (by simp) hl
  · obtain ⟨-, rfl⟩ | ⟨b, hon, -, -, hb, rfl⟩ := engineL1_cases h
    · exact State.txInOrder_of_loaded (by simp) (by simp) hl
    · refine State.txInOrder_of_loaded (by simp) (by simp) ?_
      rw [if_pos hon] at hl
      dsimp only
      rw [hon, if_pos rfl]
      exact hl.push hb
  · obtain ⟨v, hv, rfl⟩ := engineL2_cases h
    obtain ⟨_, _, _, rfl, -⟩ := drain_frame hv
    exact State.txInOrder_of_loaded (by simp) (by simp) hl
  · obtain ⟨-, h⟩ | ⟨-, h⟩ := engineL3_cases s <;> rw [h] <;>
      exact State.txInOrder_of_loaded (by simp) (by simp) hl
  · obtain ⟨v, -, rfl⟩ := engineD_cases h
    exact State.txInOrder_of_idle rfl

/-- Settles O33: the phases of the operation keep the order, a byte step takes the oldest byte, and the other steps leave
the FIFO and the operation. -/
theorem engineTransmitsInOrder : Obligations.EngineTransmitsInOrder := by
  intro s t hinv hs h
  have hs' : s.takePick.txInOrder := hs.of_sameHost s.takePick_sameHost (.inl (by simp))
  obtain ⟨hh, hhp, -⟩ | h | ⟨i, hi, h⟩ := step_host_cases h
  · exact hs.of_sameHost hh (.inl (by rw [hhp]))
  · exact hs'.of_sameHost (hostPeripheralStep_sameHost h) (hostPeripheralStep_txf h)
  · have hinv' := hinv.takePick
    rw [← s.takePick_sameHost.issue] at hi
    cases he : i.engine? with
    | some x => exact engineStep_txInOrder hinv'.engine.1 hs' (exec_engine (k := x.1) he s.takePick ▸ h)
    | none =>
      have hidle := hinv'.engine.idle hi he
      obtain ⟨_, _, _, _, _, _, _, rfl, -⟩ := exec_hostPeripheral_frame (State.hostIssue_stream hi).1 he h
      exact State.txInOrder_of_idle hidle

/-! ### A quiet operation records no Host fault (R153) -/

/-- A cause whose condition fails is not recorded. -/
@[simp] theorem FaultBit.when_false (f : FaultBit) : f.when false = 0#12 := rfl

theorem State.hostQuiet_iff {s : State} : s.hostQuiet = true ↔ s.hostBusy = false ∧ s.hostCountZero = true := by
  simp [State.hostQuiet]

/-- With the Host quiet a byte step is not enabled (R110, R111). -/
theorem hostPeripheralStep_of_quiet {s : State} (h : s.hostQuiet = true) : hostPeripheralStep s = none := by
  obtain ⟨hbusy, hzero⟩ := State.hostQuiet_iff.1 h
  have hsh : s.hp.sh = .idle := by simpa [State.hostBusy] using hbusy
  exact hostPeripheralStep_disabled (State.hostPeripheral_stopped hsh (State.hostCountZero_iff.1 hzero))

/-- With no operation under way there is nothing to keep. -/
theorem State.engineQuiet_of_idle {s : State} (h : s.he.phase = .idle) : s.engineQuiet := by
  simp [State.engineQuiet, h, Phase.running]

/-- From S3 on only the path enables matter. -/
theorem State.engineQuiet_of_loop {s : State} (h : s.he.phase.looping = true ∨ s.he.phase = .d)
    (hpaths : s.hp.txEn = s.he.mode.txOn ∧ s.hp.rxEn = s.he.mode.rxOn) : s.engineQuiet := by
  have hp : s.he.phase ≠ .s1 ∧ s.he.phase ≠ .s2 ∧ s.he.phase ≠ .s3 := by
    obtain h | h := h
    · cases hp : s.he.phase <;> simp [hp, Phase.looping] at h ⊢
    · simp [h]
  unfold State.engineQuiet
  tauto

/-- A step that leaves the operation and the Host peripheral keeps it quiet. -/
theorem State.engineQuiet.of_sameHost {s t : State} (hs : s.engineQuiet) (h : SameHost s t) (hhp : t.hp = s.hp) :
    t.engineQuiet := by
  unfold State.engineQuiet State.hostQuiet State.hostBusy State.hostCountZero
  rw [h.he, hhp]
  exact hs

/-- A byte step happens from L1 on only, and leaves the path enables. -/
theorem State.engineQuiet.byteStep {s t : State} (hs : s.engineQuiet) (hr : s.he.phase.running = true)
    (h : hostPeripheralStep s = some t) : t.engineQuiet := by
  obtain ⟨hquiet, hpaths, -⟩ := hs
  have hnot : ¬(s.he.phase = .s1 ∨ s.he.phase = .s2 ∨ s.he.phase = .s3) := fun hp => by
    rw [hostPeripheralStep_of_quiet (hquiet hp)] at h
    cases h
  have hh := hostPeripheralStep_sameHost h
  have hen : t.hp.txEn = s.hp.txEn ∧ t.hp.rxEn = s.hp.rxEn := by
    obtain ⟨out, rxf, -, -, ht⟩ | ⟨out, -, -, -, ht⟩ := hostPeripheralStep_hp h <;> rw [ht] <;> exact ⟨rfl, rfl⟩
  refine State.engineQuiet_of_loop ?_ ?_ <;> rw [hh.he]
  · cases hp : s.he.phase <;> simp [hp, Phase.running, Phase.looping] at hr hnot ⊢
  · rw [hen.1, hen.2]
    exact hpaths hr (by tauto)

/-- A captured length loads a count that is not 0 (R29, R147). -/
theorem State.Captured.len_ne_zero {s : State} (h : s.Captured) : BitVec.ofNat 8 s.he.len ≠ 0 := by
  have h1 := h.len_pos
  have h255 := h.len_byte
  rw [byte_ne_zero_iff, BitVec.toNat_ofNat, Nat.mod_eq_of_lt (by omega)]
  exact h1

/-- Each phase of a quiet operation after S0 keeps it so and records nothing: S1 finds the Host quiet, S2 an empty FIFO,
S3 a primed one and a length that is not 0 (R145 to R147). -/
theorem engineStep_quiet {k : Mode} {t r : Bool} {len : Byte} {s u : State} (hc : s.Captured) (htxd : 1 ≤ s.cfg.txd)
    (htx : s.txInOrder) (hs : s.engineQuiet) (hr : s.he.phase.running = true)
    (h : engineStep k t r len s = .next u) : u.engineQuiet ∧ u.flt = s.flt := by
  obtain ⟨hquiet, hpaths, hprimed⟩ := hs
  obtain ⟨hp, -⟩ | ⟨hp, rfl⟩ | ⟨hp, h⟩ | ⟨hp, rfl⟩ | ⟨hp, h⟩ | ⟨hp, h⟩ | ⟨hp, rfl⟩ | ⟨hp, h⟩ := engineStep_cases h
  · obtain hp | hp := hp <;> rw [hp] at hr <;> cases hr
  · have hq := hquiet (.inl hp)
    obtain ⟨hbusy, hzero⟩ := State.hostQuiet_iff.1 hq
    rw [engineS1_eq]
    exact ⟨⟨fun _ => hq, fun _ _ => ⟨rfl, rfl⟩, by simp⟩, by simp [hbusy, hzero]⟩
  all_goals have hen := hpaths hr (by simp [hp])
  · have hq := hquiet (.inr (.inl hp))
    have hnil : s.hp.txf = [] := (htx.1 (.inr hp)).1
    have hspace : s.hostTxSpace = true := by
      simpa [State.hostTxSpace, hnil] using Nat.lt_of_lt_of_le Nat.zero_lt_one htxd
    obtain ⟨hoff, rfl⟩ | ⟨b, -, -, rfl⟩ := engineS2_cases h
    · exact ⟨⟨fun _ => hq, fun _ _ => hen, by simp [hoff]⟩, rfl⟩
    · exact ⟨⟨fun _ => hq, fun _ _ => hen, by simp [hspace]⟩, by simp [hspace]⟩
  · obtain ⟨hbusy, -⟩ := State.hostQuiet_iff.1 (hquiet (.inr (.inr hp)))
    have hlen : (BitVec.ofNat 8 s.he.len == 0#8) = false := beq_false_of_ne hc.len_ne_zero
    have hfed : (s.hp.txEn && s.hp.txf.isEmpty) = false := by
      rw [hen.1, Bool.and_eq_false_iff]
      cases hon : s.he.mode.txOn
      · exact .inl rfl
      · exact .inr (by simpa using hprimed hp hon)
    rw [engineS3_eq]
    exact ⟨State.engineQuiet_of_loop (.inl rfl) hen, by simp [hlen, hbusy, Bool.and_assoc, hfed]⟩
  · obtain ⟨-, rfl⟩ | ⟨b, -, -, -, -, rfl⟩ := engineL1_cases h <;>
      exact ⟨State.engineQuiet_of_loop (.inl rfl) hen, rfl⟩
  · obtain ⟨v, hv, rfl⟩ := engineL2_cases h
    obtain ⟨_, _, _, rfl, -⟩ := drain_frame hv
    exact ⟨State.engineQuiet_of_loop (.inl rfl) hen, rfl⟩
  · obtain ⟨-, h⟩ | ⟨-, h⟩ := engineL3_cases s <;> rw [h]
    · exact ⟨State.engineQuiet_of_loop (.inr rfl) hen, rfl⟩
    · exact ⟨State.engineQuiet_of_loop (.inl rfl) hen, rfl⟩
  · obtain ⟨v, hv, rfl⟩ := engineD_cases h
    obtain ⟨_, _, _, rfl, -⟩ := drain_frame hv
    exact ⟨State.engineQuiet_of_idle rfl, rfl⟩

/-- S0 with the Host quiet begins a quiet operation and records nothing (R145, R153). -/
theorem engineS0_quiet {k : Mode} {t r : Bool} {len : Byte} {s u : State} (hp : s.he.phase = .idle)
    (hq : s.hostQuiet = true) (h : engineS0 k t r len s = .next u) (hu : u.he.phase = .s1) :
    u.engineQuiet ∧ u.flt = s.flt := by
  obtain ⟨-, rfl⟩ | ⟨-, -, rfl⟩ | ⟨-, -, rfl⟩ := engineS0_cases h
  · rw [State.refuse_he, hp] at hu; cases hu
  · rw [show s.he.phase = .s1 from hu] at hp; cases hp
  · exact ⟨⟨fun _ => hq, by simp, by simp⟩, by simp [(State.hostQuiet_iff.1 hq).1]⟩

/-- Settles O34: S0 clears with no byte in flight; then each kind of step keeps the operation quiet, and only a phase of
the operation could record a Host fault. -/
theorem quietOperationRecordsNoHostFault : Obligations.QuietOperationRecordsNoHostFault := by
  constructor
  · intro s u i k t r len he hp hq h hu
    exact engineS0_quiet hp hq (exec_idle he hp ▸ h) hu
  · intro s t hinv htxd htx hs hr h
    have htx' : s.takePick.txInOrder := htx.of_sameHost s.takePick_sameHost (.inl (by simp))
    have hs' : s.takePick.engineQuiet := hs.of_sameHost s.takePick_sameHost (by simp)
    have hr' : s.takePick.he.phase.running = true := by rwa [State.takePick_he]
    obtain ⟨hh, hhp, hf⟩ | h | ⟨i, hi, h⟩ := step_host_cases h
    · exact ⟨hs.of_sameHost hh hhp, hf⟩
    · exact ⟨hs'.byteStep hr' h, s.takePick_hostFaults.trans (hostPeripheralStep_hostFaults h)⟩
    · have hinv' := hinv.takePick
      obtain ⟨_, _, _, _, h⟩ := exec_of_running hinv' hr' (s.takePick_sameHost.issue.trans hi) h
      obtain ⟨ht, hflt⟩ := engineStep_quiet (hinv'.captured hr') (by simpa using htxd) htx' hs' hr' h
      exact ⟨ht, s.takePick_hostFaults.trans (.of_flt hflt)⟩

/-! ### `SEND` receives nothing (R154) -/

/-- With the receive path disabled a byte step leaves the receive FIFO (R111, R115). -/
theorem hostPeripheralStep_rxf {s t : State} (hen : s.hp.rxEn = false) (h : hostPeripheralStep s = some t) :
    t.hp.rxf = s.hp.rxf := by
  obtain ⟨out, -, -, rfl⟩ | ⟨-, -, rfl⟩ := hostPeripheralStep_cases h
  · rw [hsComplete_eq]
    simp [hen]
  · rw [hsStart_hp]

/-- No phase of an operation puts a byte into the receive FIFO. -/
theorem engineStep_rxf_nil {k : Mode} {t r : Bool} {len : Byte} {s u : State} (hf : s.hp.rxf = [])
    (h : engineStep k t r len s = .next u) : u.hp.rxf = [] := by
  obtain ⟨-, h⟩ | ⟨-, rfl⟩ | ⟨-, h⟩ | ⟨-, rfl⟩ | ⟨-, h⟩ | ⟨-, h⟩ | ⟨-, rfl⟩ | ⟨-, h⟩ := engineStep_cases h
  · obtain ⟨-, rfl⟩ | ⟨-, -, rfl⟩ | ⟨-, -, rfl⟩ := engineS0_cases h
    exacts [hf, hf, rfl]
  · rw [engineS1_eq]; exact hf
  · obtain ⟨-, rfl⟩ | ⟨b, -, -, rfl⟩ := engineS2_cases h <;> exact hf
  · rw [engineS3_eq]; exact hf
  · obtain ⟨-, rfl⟩ | ⟨b, -, -, -, -, rfl⟩ := engineL1_cases h <;> exact hf
  · rw [engineL2, drain_of_nothing (.inr hf)] at h
    obtain rfl := Option.some.inj h
    exact hf
  · obtain ⟨-, h⟩ | ⟨-, h⟩ := engineL3_cases s <;> rw [h] <;> exact hf
  · rw [engineD, drain_of_nothing (.inr hf)] at h
    obtain rfl := Option.some.inj h
    exact hf

/-- Settles O35: before S1 no byte step is enabled, and after it the receive path is off. -/
theorem sendReceivesNothing : Obligations.SendReceivesNothing := by
  intro s t hinv hs hnone hr hm h
  have hnil : s.hp.rxf = [] := hnone hr hm
  have hnil' : s.takePick.hp.rxf = [] := by rwa [State.takePick_hp]
  have hgoal : t.hp.rxf = [] := by
    obtain ⟨-, hhp, -⟩ | h | ⟨i, hi, h⟩ := step_host_cases h
    · rw [hhp, hnil]
    · obtain ⟨hquiet, hpaths, -⟩ := hs.of_sameHost s.takePick_sameHost s.takePick_hp
      rw [State.takePick_he] at hquiet hpaths
      have hs1 : s.he.phase ≠ .s1 := fun hp => by
        rw [hostPeripheralStep_of_quiet (hquiet (.inl hp))] at h
        cases h
      have hoff : s.takePick.hp.rxEn = false := by
        rw [(hpaths hr hs1).2, hm]
        rfl
      rw [hostPeripheralStep_rxf hoff h, hnil']
    · obtain ⟨_, _, _, _, h⟩ := exec_of_running hinv.takePick (by rwa [State.takePick_he])
        (s.takePick_sameHost.issue.trans hi) h
      exact engineStep_rxf_nil hnil' h
  exact ⟨hgoal, fun _ _ => hgoal⟩

end Sys2Proof.Machine
end

section
/-! A whole `RECEIVE` from a held line, under one byte exchange per pass of the loop (41_host_engine.md R155;
95_test_vectors.md §8 property 3): S0 to S3, the passes by induction, and D. -/

namespace Sys2Proof.Machine

/-- A run of a picked host program begins with the command it issues next. -/
theorem run_succ_host {s t : State} {i : Instr} {e : Event} {rest : List Pick} (k : Nat)
    (hi : s.hostIssue = .command i) (hpicks : s.picks = ⟨.hostProgram, e⟩ :: rest)
    (h : exec i (s.after e rest) = .next t) : Host.Core.run core (k + 1) s = Host.Core.run core k t := by
  have hstep : core.step s = .next t := (step_of_host hpicks).trans (by rw [hi]; exact h)
  simp only [Host.Core.run, hstep]

/-! ### The states of the operation -/

/-- The engine locals of a `RECEIVE` of `len` bytes into the sequence `n`, `k` of them stored (R29). -/
def receiveLocals (len n k : Nat) (p : Phase) : HostEngine :=
  { phase := p, mode := .receive, len := len, w := 0, r := k, tx := none, rx := some n }

/-- The Host peripheral of such an operation: only the receive path enabled, no byte in flight (R145). -/
def receivePeripheral (count : Nat) (rxf : List Byte) : HostPeripheral :=
  { txf := [], rxf := rxf, tcnt := count, sh := .idle, txEn := false, rxEn := true }

/-- The state with an operation's Host peripheral, locals, sequences and REF's flag, and the picks left. -/
def State.inReceive (s : State) (hp : HostPeripheral) (he : HostEngine) (bufs : List Space) (turn : Bool) (e : Event)
    (ps : List Pick) : State :=
  { s with hp := hp, he := he, rxb := bufs, hwTurn := turn, picks := ps, choice := e }

/-- At the head of the loop with `k` bytes stored, or at D with all of them. -/
def State.received (s : State) (len n k : Nat) (bufs : List Space) (turn : Bool) (e : Event) (ps : List Pick) : State :=
  s.inReceive (receivePeripheral (len - k) []) (receiveLocals len n k (if k = len then .d else .l1)) bufs turn e ps

/-- The sequence `n` holds `v` in its first `k` bytes; every other byte, and every size, is as in `s`. -/
structure FilledTo (s : State) (n : Nat) (v : Byte) (k : Nat) (bufs : List Space) : Prop where
  bytes : ∀ j, ({ s with rxb := bufs } : State).byteAt (.rxb n) j = if j < k then v else s.byteAt (.rxb n) j
  others : ∀ m j, m ≠ n → ({ s with rxb := bufs } : State).byteAt (.rxb m) j = s.byteAt (.rxb m) j
  size : ∀ m, ({ s with rxb := bufs } : State).spaceSize (.rxb m) = s.spaceSize (.rxb m)

theorem FilledTo.zero (s : State) (n : Nat) (v : Byte) : FilledTo s n v 0 s.rxb :=
  ⟨fun _ => rfl, fun _ _ _ => rfl, fun _ => rfl⟩

/-- Storing one more byte at the read index fills one more. -/
theorem FilledTo.succ {s : State} {n k len : Nat} {v : Byte} {bufs bufs' : List Space} {hp : HostPeripheral} {p : Phase}
    {turn : Bool} {e : Event} {ps : List Pick} (h : FilledTo s n v k bufs) (hk : k < len)
    (hst : StoredByte (s.inReceive hp (receiveLocals len n k p) bufs turn e ps) v bufs') :
    FilledTo s n v (k + 1) bufs' where
  bytes j := by
    obtain rfl | hj := eq_or_ne j k
    · rw [if_pos (Nat.lt_succ_self j)]
      exact hst.stored n rfl hk
    · have hlt : j < k + 1 ↔ j < k := by omega
      simp only [hlt]
      exact (hst.frame n j fun h => hj h.2.2).trans (h.bytes j)
  others m j hm := (hst.frame m j fun h => hm (Option.some.inj h.1).symm).trans (h.others m j hm)
  size m := (hst.size m).trans (h.size m)

/-- What the passes need: the command, room for its bytes, a clock that runs, and a held line with no Client on it. -/
structure State.HeldLine (s : State) (len v : Byte) (n : Nat) : Prop where
  issue : s.hostIssue = .command (.receive true len)
  fits : len.toNat ≤ s.spaceSize (.rxb n)
  rxd : 1 ≤ s.cfg.rxd
  live : s.env.stalled = false
  line : s.env.line = .held v
  deasserted : s.cp.ss = false
  empty : s.cp.sh = .idle

/-! ### One pass of the loop -/

section
variable {s : State} {len v : Byte} {n : Nat} (h : s.HeldLine len v n)
include h

/-- The exchange brings the byte of the line into the empty FIFO (R183). -/
theorem run_receiveExchange {he : HostEngine} {bufs : List Space} {turn : Bool} {e : Event} {ps : List Pick} (j : Nat)
    {count : Nat} (hcount : count ≠ 0) :
    Host.Core.run core (j + 2)
        (s.inReceive (receivePeripheral count []) he bufs turn e (⟨.hostPeripheral, e⟩ :: ⟨.hostPeripheral, e⟩ :: ps)) =
      Host.Core.run core j (s.inReceive (receivePeripheral (count - 1) [v]) he bufs false e ps) := by
  obtain ⟨t, ht⟩ : ∃ t, t = s.inReceive (receivePeripheral count []) he bufs turn e
      (⟨.hostPeripheral, e⟩ :: ⟨.hostPeripheral, e⟩ :: ps) := ⟨_, rfl⟩
  have hhp : t.hp = receivePeripheral count [] := by rw [ht]; rfl
  have hsh : t.hp.sh = .idle := by rw [hhp]; rfl
  have hroom : t.hp.rxf.length < t.cfg.rxd := by rw [ht]; exact h.rxd
  have hen : t.hsStartEnabled = true := by
    refine (State.hsStartEnabled_iff hsh).2 ⟨by rw [ht]; exact h.live, ?_, fun htx => ?_, fun _ => hroom⟩ <;>
      rw [hhp] at *
    · exact hcount
    · cases htx
  have hx := State.exchanged_of_held (s := t) (by rw [ht]; exact h.deasserted) (by rw [ht]; exact h.empty)
    (by rw [ht]; exact h.line) (by rw [hhp]; rfl) hroom
  rw [← ht, run_exchange j (by rw [ht]; rfl) hsh hen, hx, ht]
  rfl

/-- L1 of a `RECEIVE` loads nothing (R148). -/
theorem run_receiveL1 {hp : HostPeripheral} {k : Nat} {bufs : List Space} {turn : Bool} {e : Event} {ps : List Pick}
    (j : Nat) :
    Host.Core.run core (j + 1)
        (s.inReceive hp (receiveLocals len.toNat n k .l1) bufs turn e (⟨.hostProgram, e⟩ :: ps)) =
      Host.Core.run core j (s.inReceive hp (receiveLocals len.toNat n k .l2) bufs turn e ps) :=
  run_succ_host j h.issue rfl
    ((exec_l1 (x := (.receive, false, true, len)) rfl rfl).trans
      (congrArg phaseResult (engineL1_of_nothing (.inl rfl))))

/-- L2 takes the byte and stores it at the read index (R149). -/
theorem run_receiveL2 {count k : Nat} {bufs : List Space} {turn : Bool} {e : Event} {ps : List Pick} (j : Nat)
    (hk : k < len.toNat) (hf : FilledTo s n v k bufs) :
    ∃ bufs', FilledTo s n v (k + 1) bufs' ∧
      Host.Core.run core (j + 1)
          (s.inReceive (receivePeripheral count [v]) (receiveLocals len.toNat n k .l2) bufs turn e
            (⟨.hostProgram, e⟩ :: ps)) =
        Host.Core.run core j
          (s.inReceive (receivePeripheral count []) (receiveLocals len.toNat n (k + 1) .l3) bufs' turn e ps) := by
  obtain ⟨t, ht⟩ : ∃ t, t = s.inReceive (receivePeripheral count [v]) (receiveLocals len.toNat n k .l2) bufs turn e ps :=
    ⟨_, rfl⟩
  have hin : ∀ m, t.he.rx = some m → t.he.r < t.he.len → t.he.r < t.spaceSize (.rxb m) := by
    subst ht
    rintro m hm -
    obtain rfl := Option.some.inj hm
    exact (hk.trans_le h.fits).trans_eq (hf.size _).symm
  obtain ⟨bufs', hst, hd⟩ := drain_of_cons (s := t) (b := v) (bs := []) (by subst ht; exact nofun) (by subst ht; rfl) hin
  subst ht
  refine ⟨bufs', hf.succ hk hst, run_succ_host j h.issue rfl ?_⟩
  refine (exec_l2 (x := (.receive, false, true, len)) rfl rfl).trans ?_
  rw [engineL2]
  have hnext : (s.inReceive (receivePeripheral count [v]) (receiveLocals len.toNat n k .l2) bufs turn e ps).nextRead =
      k + 1 := if_pos hk
  rw [hnext] at hd
  exact congrArg (fun o => phaseResult (o.map fun s' => s'.toPhase .l3)) hd

/-- L3 goes to D with all bytes stored, else back to L1 (R151). -/
theorem run_receiveL3 {k : Nat} {bufs : List Space} {turn : Bool} {e : Event} {ps : List Pick} (j : Nat)
    (hk : k ≤ len.toNat) :
    ∃ turn', Host.Core.run core (j + 1)
        (s.inReceive (receivePeripheral (len.toNat - k) []) (receiveLocals len.toNat n k .l3) bufs turn e
          (⟨.hostProgram, e⟩ :: ps)) =
      Host.Core.run core j (s.received len.toNat n k bufs turn' e ps) := by
  unfold State.received
  obtain hlast | hmore := Nat.eq_or_lt_of_le hk
  · refine ⟨turn, run_succ_host j h.issue rfl ((exec_l3 (x := (.receive, false, true, len)) rfl rfl).trans ?_)⟩
    rw [engineL3_of_zero (show len.toNat - k = 0 by omega), if_pos hlast]
    rfl
  · refine ⟨true, run_succ_host j h.issue rfl ((exec_l3 (x := (.receive, false, true, len)) rfl rfl).trans ?_)⟩
    rw [engineL3_of_nonzero (show len.toNat - k ≠ 0 by omega), if_neg (by omega)]
    rfl

/-- One pass of the loop stores one byte of the line. -/
theorem run_receivePass {k : Nat} {bufs : List Space} {turn : Bool} {e : Event} {ps : List Pick} (j : Nat)
    (hk : k < len.toNat) (hf : FilledTo s n v k bufs) :
    ∃ bufs' turn', FilledTo s n v (k + 1) bufs' ∧
      Host.Core.run core (j + 5) (s.received len.toNat n k bufs turn e
        (⟨.hostPeripheral, e⟩ :: ⟨.hostPeripheral, e⟩ :: ⟨.hostProgram, e⟩ :: ⟨.hostProgram, e⟩ ::
          ⟨.hostProgram, e⟩ :: ps)) =
        Host.Core.run core j (s.received len.toNat n (k + 1) bufs' turn' e ps) := by
  obtain ⟨bufs', hf', hl2⟩ := run_receiveL2 h (count := len.toNat - (k + 1)) (turn := false) (e := e)
    (ps := ⟨.hostProgram, e⟩ :: ps) (j + 1) hk hf
  obtain ⟨turn', hl3⟩ := run_receiveL3 h (bufs := bufs') (turn := false) (e := e) (ps := ps) j hk
  refine ⟨bufs', turn', hf', ?_⟩
  rw [State.received, if_neg (by omega), run_receiveExchange h (j + 3) (by omega), run_receiveL1 h (j + 2),
    ← Nat.sub_add_eq, hl2, hl3]

/-- The passes left store the bytes left. -/
theorem run_receivePasses {k m : Nat} {bufs : List Space} {turn : Bool} {e : Event} {ps : List Pick} (j : Nat)
    (hk : k + m = len.toNat) (hf : FilledTo s n v k bufs) :
    ∃ bufs' turn', FilledTo s n v len.toNat bufs' ∧
      Host.Core.run core (5 * m + j) (s.received len.toNat n k bufs turn e
        ((List.replicate m [⟨.hostPeripheral, e⟩, ⟨.hostPeripheral, e⟩, ⟨.hostProgram, e⟩, ⟨.hostProgram, e⟩,
          ⟨.hostProgram, e⟩]).flatten ++ ps)) =
        Host.Core.run core j (s.received len.toNat n len.toNat bufs' turn' e ps) := by
  induction m generalizing k bufs turn with
  | zero =>
    obtain rfl : k = len.toNat := hk
    exact ⟨bufs, turn, hf, by rw [Nat.mul_zero, Nat.zero_add]; rfl⟩
  | succ m ih =>
    rw [List.replicate_succ, List.flatten_cons, List.append_assoc, show 5 * (m + 1) + j = 5 * m + j + 5 by omega]
    obtain ⟨bufs₁, turn₁, hf₁, hrun₁⟩ := run_receivePass h (5 * m + j) (by omega) hf
    obtain ⟨bufs', turn', hf', hrun⟩ := ih (by omega) hf₁
    exact ⟨bufs', turn', hf', hrun₁.trans hrun⟩

end

/-! ### S0 to S3 -/

section
variable {s : State} {len : Byte} {n : Nat} (hi : s.hostIssue = .command (.receive true len)) (hq : s.hostQuiet = true)
include hi hq

/-- S0 captures the operands and clears the FIFOs, with no byte in flight to record (R145). -/
theorem run_receiveS0 {e : Event} {ps : List Pick} (j : Nat) (hp : s.picks = ⟨.hostProgram, e⟩ :: ps)
    (hidle : s.he.phase = .idle) (htx : s.attachedTx = none) (hrx : s.attachedRx = some n)
    (hb : s.badOperand false true len = false) (hl : s.lengthValid len = true) :
    Host.Core.run core (j + 1) s =
      Host.Core.run core j
        (s.inReceive { s.hp with txf := [], rxf := [] } (receiveLocals len.toNat n 0 .s1) s.rxb s.hwTurn e ps) := by
  have htx' : (s.after e ps).attachedTx = none := htx
  have hrx' : (s.after e ps).attachedRx = some n := hrx
  have hbusy : (s.after e ps).hostBusy = false := (State.hostQuiet_iff.1 hq).1
  refine run_succ_host j hi hp ((exec_idle_of_valid (s := s.after e ps) rfl hidle hb hl).trans ?_)
  rw [htx', hrx', hbusy, FaultBit.when_false, BitVec.or_zero]
  rfl

/-- S1 enables the receive path only, with no transfer in progress to record (R145). -/
theorem run_receiveS1 {e : Event} {ps : List Pick} (j : Nat) :
    Host.Core.run core (j + 1)
        (s.inReceive { s.hp with txf := [], rxf := [] } (receiveLocals len.toNat n 0 .s1) s.rxb s.hwTurn e
          (⟨.hostProgram, e⟩ :: ps)) =
      Host.Core.run core j
        (s.inReceive (receivePeripheral 0 []) (receiveLocals len.toNat n 0 .s2) s.rxb s.hwTurn e ps) := by
  obtain ⟨hbusy, hzero⟩ := State.hostQuiet_iff.1 hq
  have hsh : s.hp.sh = .idle := by simpa [State.hostBusy] using hbusy
  have hcount : s.hp.tcnt = 0 := State.hostCountZero_iff.1 hzero
  refine run_succ_host j hi rfl ((exec_s1 (x := (.receive, false, true, len)) rfl rfl).trans ?_)
  rw [engineS1_eq]
  simp [State.inReceive, State.after, receivePeripheral, receiveLocals, State.hostBusy, State.hostCountZero, hsh, hcount,
    Mode.txOn, Mode.rxOn]

omit hq in
/-- S2 of a `RECEIVE` primes nothing (R146). -/
theorem run_receiveS2 {hp : HostPeripheral} {bufs : List Space} {turn : Bool} {e : Event} {ps : List Pick} (j : Nat) :
    Host.Core.run core (j + 1)
        (s.inReceive hp (receiveLocals len.toNat n 0 .s2) bufs turn e (⟨.hostProgram, e⟩ :: ps)) =
      Host.Core.run core j (s.inReceive hp (receiveLocals len.toNat n 0 .s3) bufs turn e ps) :=
  run_succ_host j hi rfl
    ((exec_s2 (x := (.receive, false, true, len)) rfl rfl).trans (congrArg phaseResult (engineS2_of_receive rfl)))

omit hq in
/-- S3 loads the length; it is not 0, and the transmit path is off (R147). -/
theorem run_receiveS3 {bufs : List Space} {turn : Bool} {e : Event} {ps : List Pick} (j : Nat) (h1 : 1 ≤ len.toNat)
    (hw : 8 ≤ s.cfg.tcntW) :
    Host.Core.run core (j + 1)
        (s.inReceive (receivePeripheral 0 []) (receiveLocals len.toNat n 0 .s3) bufs turn e (⟨.hostProgram, e⟩ :: ps)) =
      Host.Core.run core j (s.received len.toNat n 0 bufs true e ps) := by
  obtain ⟨t, ht⟩ : ∃ t, t = s.inReceive (receivePeripheral 0 []) (receiveLocals len.toNat n 0 .s3) bufs turn e ps :=
    ⟨_, rfl⟩
  have hlen : BitVec.ofNat 8 t.he.len = len := by
    rw [ht]
    exact (BitVec.ofNat_toNat 8 len).trans (BitVec.setWidth_eq len)
  have h0 : (len == 0#8) = false := beq_false_of_ne (byte_ne_zero_iff.2 h1)
  have hload : t.loadedCount len = len.toNat := t.loadedCount_eq len (by rw [ht]; exact hw)
  refine run_succ_host j hi rfl ((exec_s3 (x := (.receive, false, true, len)) rfl rfl).trans ?_)
  have hafter : (s.inReceive (receivePeripheral 0 []) (receiveLocals len.toNat n 0 .s3) bufs turn e
      (⟨.hostProgram, e⟩ :: ps)).after e ps = t := ht.symm
  rw [hafter, engineS3_eq, hlen, hload, State.received, if_neg (by omega), ht]
  simp [State.inReceive, receivePeripheral, receiveLocals, State.hostBusy, h0]

/-- S0 to S3 lead to the head of the loop (R145 to R147). -/
theorem run_receiveStart {e : Event} {ps : List Pick} (j : Nat)
    (hp : s.picks = List.replicate 4 ⟨.hostProgram, e⟩ ++ ps) (hidle : s.he.phase = .idle) (htx : s.attachedTx = none)
    (hrx : s.attachedRx = some n) (hb : s.badOperand false true len = false) (hl : s.lengthValid len = true)
    (hw : 8 ≤ s.cfg.tcntW) :
    Host.Core.run core (j + 4) s = Host.Core.run core j (s.received len.toNat n 0 s.rxb true e ps) :=
  calc Host.Core.run core (j + 4) s
    _ = _ := run_receiveS0 hi hq (j + 3) hp hidle htx hrx hb hl
    _ = _ := run_receiveS1 hi hq (j + 2)
    _ = _ := run_receiveS2 hi (j + 1)
    _ = _ := run_receiveS3 hi j (State.lengthValid_iff.1 hl).1 hw

end

/-- D finds an empty FIFO and returns (R150, R152). -/
theorem run_receiveD {s : State} {len : Byte} {n : Nat} {bufs : List Space} {turn : Bool} {e : Event} {ps : List Pick}
    (hi : s.hostIssue = .command (.receive true len)) :
    Host.Core.run core 1 (s.received len.toNat n len.toNat bufs turn e (⟨.hostProgram, e⟩ :: ps)) =
      .next { s.inReceive (receivePeripheral 0 []) (receiveLocals len.toNat n len.toNat .idle) bufs turn e ps with
        res := 0, resValid := true, pc := s.pc + 1 } := by
  rw [State.received, Nat.sub_self, if_pos rfl]
  exact run_succ_host 0 hi rfl (exec_d_of_nothing (x := (.receive, false, true, len)) rfl rfl (.inr rfl))

/-- Settles O38: S0 to S3 lead to the head of the loop, each pass stores one byte of the line, and D returns. -/
theorem receiveFromHeldLineFillsBuffer : Obligations.ReceiveFromHeldLineFillsBuffer := by
  intro s c len v n b e rest hp hc hd htx hrx hget h1 hsize hrxd hmax hw hidle hq hlive hline hss hsh
  have hi : s.hostIssue = .command (.receive true len) := (State.hostIssue_eq hc).trans (issueWord_command hd rfl)
  have hatx : s.attachedTx = none := by simp only [State.attachedTx, hc, Option.bind_some, htx]
  have harx : s.attachedRx = some n := by simp only [State.attachedRx, hc, Option.bind_some, hrx]
  have hb : s.badOperand false true len = false := by
    refine State.operands_ok (by rw [hatx]; rfl) (by rw [harx]; rfl) (by rw [hatx]; exact nofun) fun m hm => ?_
    obtain rfl := Option.some.inj (harx.symm.trans hm)
    exact ⟨b, hget, hsize⟩
  have hl : s.lengthValid len = true := State.lengthValid_iff.2 ⟨h1, hmax⟩
  have hheld : s.HeldLine len v n :=
    ⟨hi, by simpa [State.spaceSize, hget] using hsize, hrxd, hlive, hline, hss, hsh⟩
  rw [List.append_assoc] at hp
  obtain ⟨bufs, turn, hf, hpasses⟩ := run_receivePasses hheld (k := 0) (turn := true) (e := e)
    (ps := ⟨.hostProgram, e⟩ :: rest) 1 (Nat.zero_add _) (.zero s n v)
  have hstart := run_receiveStart hi hq (5 * len.toNat + 1) hp hidle hatx harx hb hl hw
  have hrun := hstart.trans (hpasses.trans (run_receiveD hi))
  rw [show 5 * len.toNat + 1 + 4 = 5 + 5 * len.toNat by omega] at hrun
  exact ⟨_, hrun, rfl, rfl, rfl, rfl, rfl, rfl, rfl, rfl, rfl, rfl, rfl, hf.bytes, hf.others⟩

end Sys2Proof.Machine
end

section
/-! Every operation begun with the Host quiet reaches D (41_host_engine.md R158). Until a step D the operation goes on, and
the host program moves again and again. If it never reached D it would stay in the loop; there a byte step is always taken
again, since L1 leaves a byte to shift out, L2 leaves room for one, and the Host peripheral is fair; but a count allows
finitely many byte steps. In a stall no byte step is enabled, and the loop goes on. -/

namespace Sys2Proof.Machine

/-! ### The operation until its step D -/

/-- S0 with the Host quiet and no stall begins an operation, or does not go to S1 (R145). -/
theorem engineS0_operating {i : Instr} {k : Mode} {t r : Bool} {len : Byte} {s u : State}
    (hi : s.hostIssue = .command i) (he : i.engine? = some (k, t, r, len)) (hidle : s.he.phase = .idle)
    (hlive : s.env.stalled = false) (hq : s.hostQuiet = true) (h : engineS0 k t r len s = .next u)
    (hu : u.he.phase = .s1) (htxd : u.he.mode.txOn = true → 1 ≤ s.cfg.txd)
    (hrxd : u.he.mode.rxOn = true → 1 ≤ s.cfg.rxd) : u.Operating ∧ u.pc = s.pc := by
  obtain ⟨hbusy, hzero⟩ := State.hostQuiet_iff.1 hq
  have hsh : s.hp.sh = .idle := by simpa [State.hostBusy] using hbusy
  obtain ⟨-, rfl⟩ | ⟨-, -, rfl⟩ | ⟨-, hl, rfl⟩ := engineS0_cases h
  · rw [State.refuse_he, hidle] at hu; cases hu
  · rw [show s.he.phase = .s1 from hu] at hidle; cases hidle
  · exact ⟨{
      txd := htxd
      rxd := hrxd
      fits := Nat.zero_le _
      live := hlive
      running := rfl
      issue := ⟨i, t, r, len, hi, he⟩
      quiet := fun _ => ⟨hsh, State.hostCountZero_iff.1 hzero⟩
      empty := fun _ => rfl
      paths := fun hp => absurd rfl hp
      len := (State.lengthValid_iff.1 hl).1
      primed := nofun
      fed := nofun }, rfl⟩

/-- A step of the host program from `Idle` to S1 begins an operation (R141). -/
theorem State.Operating.of_start {p : Pick} {s t : State} (h : stepWith p s = .next t) (hp : p.agent = .hostProgram)
    (hidle : s.he.phase = .idle) (hlive : s.env.stalled = false) (hq : s.hostQuiet = true) (ht : t.he.phase = .s1)
    (htxd : t.he.mode.txOn = true → 1 ≤ s.cfg.txd) (hrxd : t.he.mode.rxOn = true → 1 ≤ s.cfg.rxd) :
    t.Operating ∧ t.pc = s.pc := by
  rw [stepWith_eq, hp] at h
  have hstays : t.he = s.he → t.Operating ∧ t.pc = s.pc := fun he => by
    rw [he, hidle] at ht; cases ht
  cases hi : s.hostIssue <;>
    simp only [runAgent, State.after_hostIssue, hi, runIssue, Host.Outcome.next.injEq] at h
  case finished => exact hstays (by rw [← h]; rfl)
  case reserved => exact hstays (by rw [← h]; rfl)
  case command i =>
    cases he : i.engine? with
    | some x =>
      exact engineS0_operating (s := s.after p.event []) (k := x.1) hi he hidle hlive hq
        (exec_idle (s := s.after p.event []) (k := x.1) he hidle ▸ h) ht htxd hrxd
    | none =>
      obtain ⟨_, _, _, _, _, _, _, rfl, -⟩ := exec_hostPeripheral_frame (State.hostIssue_stream hi).1 he h
      exact hstays rfl

/-- The n-th step of the run is a step D of the host program. -/
def Run.returns (run : Run) (n : Nat) : Prop := (run.at_ n).he.phase = .d ∧ run.moves n .hostProgram

section
variable (run : Run) {n m : Nat}

/-- Any step but D keeps the operation under way at its command. -/
theorem Run.operating_succ (h : (run.at_ m).Operating) (hd : ¬run.returns m) :
    (run.at_ (m + 1)).Operating ∧ (run.at_ (m + 1)).pc = (run.at_ m).pc := by
  by_cases hm : run.moves m .hostProgram
  · obtain ⟨hp, -⟩ | ⟨ho, hpc, -⟩ := h.host (run.steps m) hm
    · exact absurd ⟨hp, hm⟩ hd
    · exact ⟨ho, hpc⟩
  · obtain ⟨hh, ho, -⟩ := run.otherStep h hm
    exact ⟨ho, hh.pc⟩

/-- Until a step D the operation is under way at its command. -/
theorem Run.operating_until (h : (run.at_ n).Operating) (hnm : n ≤ m)
    (hd : ∀ k, n ≤ k → k < m → ¬run.returns k) :
    (run.at_ m).Operating ∧ (run.at_ m).pc = (run.at_ n).pc := by
  induction m, hnm using Nat.le_induction with
  | base => exact ⟨h, rfl⟩
  | succ m hnm ih =>
    obtain ⟨ho, hpc⟩ := ih fun k hk hkm => hd k hk (by omega)
    obtain ⟨ho', hpc'⟩ := run.operating_succ ho (hd m hnm (Nat.lt_succ_self m))
    exact ⟨ho', hpc'.trans hpc⟩

/-- A step D returns (R150, R152). -/
theorem Run.returns_result (h : (run.at_ m).Operating) (hd : run.returns m) :
    (run.at_ (m + 1)).he.phase = .idle ∧ (run.at_ (m + 1)).pc = (run.at_ m).pc + 1 ∧
      (run.at_ (m + 1)).res = 0 ∧ (run.at_ (m + 1)).resValid = true := by
  obtain ⟨hp, hm⟩ := hd
  obtain ⟨-, hresult⟩ | ⟨-, -, hst⟩ := h.host (run.steps m) hm
  · exact hresult
  · cases hst <;> simp_all

/-! ### An operation that never reaches D stays in the loop -/

/-- From the n-th state on the operation is under way and D is never next. -/
def Run.Endless (n : Nat) : Prop := ∀ m, n ≤ m → (run.at_ m).Operating ∧ (run.at_ m).he.phase ≠ .d

/-- Without a step D the phase D is never next, since the host program would take it (R158). -/
theorem Run.endless_of_no_return (h : (run.at_ n).Operating) (hd : ∀ k, n ≤ k → ¬run.returns k) : run.Endless n := by
  intro m hnm
  have ho := (run.operating_until h hnm fun k hk _ => hd k hk).1
  refine ⟨ho, fun hp => ?_⟩
  obtain ⟨k, hmk, hmv, hsame⟩ := run.exists_host m ho
  exact hd k (hnm.trans hmk) ⟨by rw [hsame.he]; exact hp, hmv⟩

end

namespace Run.Endless

variable {run : Run} {n m : Nat}

theorem mono (h : run.Endless n) (hnm : n ≤ m) : run.Endless m := fun k hk => h k (hnm.trans hk)

/-- The host program's step is one from S1 to L3. -/
theorem phaseStep (h : run.Endless n) (hm : run.moves n .hostProgram) : PhaseStep (run.at_ n) (run.at_ (n + 1)) := by
  obtain ⟨ho, hd⟩ := h n (Nat.le_refl n)
  obtain ⟨hp, -⟩ | ⟨-, -, hst⟩ := ho.host (run.steps n) hm
  · exact absurd hp hd
  · exact hst

/-- The host program moves again, from the phase it is at. -/
theorem exists_host (h : run.Endless n) :
    ∃ k, n ≤ k ∧ run.moves k .hostProgram ∧ (run.at_ k).he.phase = (run.at_ n).he.phase := by
  obtain ⟨k, hk, hm, hsame⟩ := run.exists_host n (h n (Nat.le_refl n)).1
  exact ⟨k, hk, hm, by rw [hsame.he]⟩

end Run.Endless

/-- The steps of the host program to the next L1. -/
def Phase.toL1 (p : Phase) : Nat :=
  match p with
  | .s1 => 3
  | .s2 => 2
  | .s3 => 1
  | .l2 => 2
  | .l3 => 1
  | .idle | .s0 | .l1 | .d => 0

/-- A step from S1 to L3 is L1, goes to D, or comes closer to L1 (R141). -/
theorem PhaseStep.toL1_lt {s t : State} (h : PhaseStep s t) (hd : t.he.phase ≠ .d) :
    s.he.phase = .l1 ∨ t.he.phase.toL1 < s.he.phase.toL1 := by
  cases h with
  | l1 at_ => exact .inl at_
  | leave _ _ goes => exact absurd goes hd
  | s1 at_ goes | s2 at_ goes | s3 at_ goes | l2 at_ goes | again at_ _ goes => rw [at_, goes]; exact .inr (by decide)

namespace Run.Endless

variable {run : Run} {n m : Nat}

/-- L1 is taken again. -/
theorem exists_l1 {run : Run} {n : Nat} (h : run.Endless n) :
    ∃ k, n ≤ k ∧ run.moves k .hostProgram ∧ (run.at_ k).he.phase = .l1 := by
  obtain ⟨k, hk, hm, hp⟩ := h.exists_host
  have hd := (h (k + 1) (by omega)).2
  obtain hl1 | hlt := ((h.mono hk).phaseStep hm).toL1_lt hd
  · exact ⟨k, hk, hm, hl1⟩
  · obtain ⟨j, hj, hjm, hjp⟩ := exists_l1 (h.mono (show n ≤ k + 1 by omega))
    exact ⟨j, by omega, hjm, hjp⟩
termination_by (run.at_ n).he.phase.toL1
decreasing_by rw [← hp]; exact hlt

/-- After a phase the host program takes the next one, with any steps of the other agents between. -/
theorem exists_next {p q : Phase} (h : run.Endless n)
    (hnext : ∀ {s t : State}, PhaseStep s t → s.he.phase = p → t.he.phase = q)
    (hp : ∃ k, n ≤ k ∧ run.moves k .hostProgram ∧ (run.at_ k).he.phase = p) :
    ∃ k, n ≤ k ∧ run.moves k .hostProgram ∧ (run.at_ k).he.phase = q := by
  obtain ⟨k, hk, hm, hp⟩ := hp
  have hq := hnext ((h.mono hk).phaseStep hm) hp
  obtain ⟨j, hj, hjm, hjp⟩ := (h.mono (show n ≤ k + 1 by omega)).exists_host
  exact ⟨j, by omega, hjm, hjp.trans hq⟩

theorem exists_l2 (h : run.Endless n) : ∃ k, n ≤ k ∧ run.moves k .hostProgram ∧ (run.at_ k).he.phase = .l2 :=
  h.exists_next (fun hst hp => by cases hst <;> simp_all) h.exists_l1

theorem exists_l3 (h : run.Endless n) : ∃ k, n ≤ k ∧ run.moves k .hostProgram ∧ (run.at_ k).he.phase = .l3 :=
  h.exists_next (fun hst hp => by cases hst <;> simp_all) h.exists_l2

end Run.Endless

/-! ### What the loop keeps -/

/-- Between two bytes of a transmission that is not over, a byte waits to be shifted out. -/
def State.Fed (s : State) : Prop := s.hp.sh = .idle → s.hp.tcnt ≠ 0 → s.hp.txEn = true → s.hp.txf ≠ []

/-- A receive path that is on has room for a byte. -/
def State.Roomy (s : State) : Prop := s.hp.rxEn = true → s.hp.rxf.length < s.cfg.rxd

/-- A step of the loop that is no byte step: it stays in the loop and leaves the count, and what a byte step needs. -/
structure LoopStep (s t : State) : Prop where
  looping : t.he.phase.looping = true
  count : SameCount s t
  cfg : t.cfg = s.cfg
  fed : s.Fed → t.Fed
  roomy : s.Roomy → t.Roomy

/-- The other agents leave the Host peripheral but for byte steps. -/
theorem LoopStep.of_sameHost {s t : State} (h : SameHost s t) (hl : s.he.phase.looping = true) (hhp : t.hp = s.hp) :
    LoopStep s t where
  looping := by rw [h.he]; exact hl
  count := .of_hp hhp
  cfg := h.cfg
  fed := by unfold State.Fed; rw [hhp]; exact id
  roomy := by unfold State.Roomy; rw [hhp, h.cfg]; exact id

/-- The host program's steps of the loop: L1 leaves a byte to shift out, L2 leaves room for one (R148, R149). -/
theorem PhaseStep.loopStep {s t : State} (h : PhaseStep s t) (hl : s.he.phase.looping = true) (hd : t.he.phase ≠ .d) :
    LoopStep s t ∧ (s.he.phase = .l1 → t.Fed) ∧ (s.he.phase = .l2 → t.Roomy) ∧
      (s.he.phase = .l3 → s.hp.tcnt ≠ 0) := by
  cases h with
  | s1 at_ | s2 at_ | s3 at_ => rw [at_] at hl; cases hl
  | l1 at_ goes sh tcnt cfg rxf rxEn fed =>
    have hfed : t.Fed := fun hsh hcount => fed (by rw [← sh, hsh]) (by rw [← tcnt]; exact hcount)
    refine ⟨⟨by rw [goes]; rfl, ⟨sh, tcnt⟩, cfg, fun _ => hfed, ?_⟩, fun _ => hfed, by simp [at_], by simp [at_]⟩
    unfold State.Roomy
    rw [rxf, rxEn, cfg]
    exact id
  | l2 at_ goes sh tcnt cfg txf txEn room =>
    refine ⟨⟨by rw [goes]; rfl, ⟨sh, tcnt⟩, cfg, ?_, fun _ => room⟩, by simp [at_], fun _ => room, by simp [at_]⟩
    unfold State.Fed
    rw [sh, tcnt, txf, txEn]
    exact id
  | again at_ count goes hp cfg =>
    refine ⟨⟨by rw [goes]; rfl, .of_hp hp, cfg, ?_, ?_⟩, by simp [at_], by simp [at_], fun _ => count⟩
    · unfold State.Fed
      rw [hp]
      exact id
    · unfold State.Roomy
      rw [hp, cfg]
      exact id
  | leave _ _ goes => exact absurd goes hd

/-- With a byte in flight, or a count left and what a byte needs, a byte step is enabled (R110, R111). -/
theorem State.enabled_hostPeripheral {s : State} (hlive : s.env.stalled = false) (hcount : s.hp.tcnt ≠ 0) (hfed : s.Fed)
    (hroomy : s.Roomy) : s.enabled .hostPeripheral = true := by
  cases hsh : s.hp.sh with
  | busy out => simp [State.enabled, State.hsCompleteEnabled, State.hostBusy, hlive, hsh]
  | idle =>
    rw [State.enabled_hostPeripheral_of_idle hsh, State.hsStartEnabled_iff hsh]
    exact ⟨hlive, hcount, hfed hsh hcount, hroomy⟩

/-- A step that leaves the count leaves the byte steps it allows. -/
theorem SameCount.exchangeSteps {s t : State} (h : SameCount s t) (hcfg : t.cfg = s.cfg) :
    t.exchangeSteps = s.exchangeSteps := by
  obtain ⟨hsh, htcnt⟩ := h
  simp only [State.exchangeSteps, hsh, htcnt, hcfg]

namespace Run.Endless

variable {run : Run} {n m : Nat}

/-- A byte step stays in the loop and uses up one of those the count allows. -/
theorem byteStep (h : run.Endless n) (hl : (run.at_ n).he.phase.looping = true) (hb : run.moves n .hostPeripheral) :
    (run.at_ (n + 1)).he.phase.looping = true ∧ (run.at_ (n + 1)).exchangeSteps < (run.at_ n).exchangeSteps := by
  have hb : (run.pick n).agent = .hostPeripheral := hb
  obtain ⟨hh, ⟨-, hst⟩ | ⟨-, hn, -⟩ | ⟨-, hn, -⟩⟩ :=
    stepWith_cases (run.steps n) (run.agentEnabled (h n (Nat.le_refl n)).1) (by simp [hb])
  · have hlt := hostPeripheralStep_exchangeSteps hst
    exact ⟨by rw [hh.he]; exact hl, hlt⟩
  · exact absurd hb hn
  · exact absurd hb hn

/-- Any other step of the loop keeps what a byte step needs. -/
theorem loopStep (h : run.Endless n) (hl : (run.at_ n).he.phase.looping = true)
    (hb : ¬run.moves n .hostPeripheral) : LoopStep (run.at_ n) (run.at_ (n + 1)) := by
  by_cases hm : run.moves n .hostProgram
  · exact ((h.phaseStep hm).loopStep hl (h (n + 1) (by omega)).2).1
  · obtain ⟨hh, -, ⟨hb', -⟩ | ⟨hhp, -⟩⟩ := run.otherStep (h n (Nat.le_refl n)).1 hm
    · exact absurd hb' hb
    · exact .of_sameHost hh hl hhp

/-- The loop is not left, and its count allows no more byte steps than before. -/
theorem loops (h : run.Endless n) (hl : (run.at_ n).he.phase.looping = true) (hnm : n ≤ m) :
    (run.at_ m).he.phase.looping = true ∧ (run.at_ m).exchangeSteps ≤ (run.at_ n).exchangeSteps := by
  induction m, hnm using Nat.le_induction with
  | base => exact ⟨hl, Nat.le_refl _⟩
  | succ m hnm ih =>
    obtain ⟨hl', hle⟩ := ih
    by_cases hb : run.moves m .hostPeripheral
    · obtain ⟨hloop, hlt⟩ := (h.mono hnm).byteStep hl' hb
      exact ⟨hloop, by omega⟩
    · have hst := (h.mono hnm).loopStep hl' hb
      exact ⟨hst.looping, by rw [hst.count.exchangeSteps hst.cfg]; exact hle⟩

section
variable (h : run.Endless n) (hl : (run.at_ n).he.phase.looping = true)
  (hnone : ∀ m, n ≤ m → ¬run.moves m .hostPeripheral)
include h hl hnone

theorem loopStep_of_none (hnm : n ≤ m) : LoopStep (run.at_ m) (run.at_ (m + 1)) :=
  (h.mono hnm).loopStep (h.loops hl hnm).1 (hnone m hnm)

/-- Without byte steps the count stays. -/
theorem count_of_none (hnm : n ≤ m) : (run.at_ m).hp.tcnt = (run.at_ n).hp.tcnt := by
  induction m, hnm using Nat.le_induction with
  | base => rfl
  | succ m hnm ih => rw [(loopStep_of_none h hl hnone hnm).count.2, ih]

/-- Without byte steps L1 and L2 leave what one needs from some state on. -/
theorem fed_and_roomy_of_none : ∃ k, n ≤ k ∧ ∀ m, k ≤ m → (run.at_ m).Fed ∧ (run.at_ m).Roomy := by
  have hstep {k : Nat} (hk : n ≤ k) (hm : run.moves k .hostProgram) :=
    ((h.mono hk).phaseStep hm).loopStep (h.loops hl hk).1 (h (k + 1) (by omega)).2
  obtain ⟨k₁, hk₁, hm₁, hp₁⟩ := h.exists_l1
  have hfed : ∀ m, k₁ + 1 ≤ m → (run.at_ m).Fed := fun m hm => by
    induction m, hm using Nat.le_induction with
    | base => exact (hstep hk₁ hm₁).2.1 hp₁
    | succ m hm ih => exact (loopStep_of_none h hl hnone (show n ≤ m by omega)).fed ih
  obtain ⟨k₂, hk₂, hm₂, hp₂⟩ := (h.mono (show n ≤ k₁ + 1 by omega)).exists_l2
  have hroomy : ∀ m, k₂ + 1 ≤ m → (run.at_ m).Roomy := fun m hm => by
    induction m, hm using Nat.le_induction with
    | base => exact (hstep (show n ≤ k₂ by omega) hm₂).2.2.1 hp₂
    | succ m hm ih => exact (loopStep_of_none h hl hnone (show n ≤ m by omega)).roomy ih
  exact ⟨k₂ + 1, by omega, fun m hm => ⟨hfed m (by omega), hroomy m hm⟩⟩

/-- L3 goes back to L1, so the count is not 0 (R151). -/
theorem count_ne_zero_of_none : (run.at_ n).hp.tcnt ≠ 0 := by
  obtain ⟨k, hk, hm, hp⟩ := h.exists_l3
  have hst := ((h.mono hk).phaseStep hm).loopStep (h.loops hl hk).1 (h (k + 1) (by omega)).2
  rw [← count_of_none h hl hnone hk]
  exact hst.2.2.2 hp

end

/-- In the loop a fair Host peripheral moves again (R114). -/
theorem exists_byteStep (h : run.Endless n) (hfair : run.hostPeripheralFair)
    (hl : (run.at_ n).he.phase.looping = true) : ∃ m, n ≤ m ∧ run.moves m .hostPeripheral := by
  by_contra hno
  have hnone : ∀ m, n ≤ m → ¬run.moves m .hostPeripheral := fun m hm hb => hno ⟨m, hm, hb⟩
  have hcount := count_ne_zero_of_none h hl hnone
  obtain ⟨k, hk, hready⟩ := fed_and_roomy_of_none h hl hnone
  have henabled : ∀ m, k ≤ m → (run.at_ m).enabled .hostPeripheral = true := fun m hm => by
    obtain ⟨hfed, hroomy⟩ := hready m hm
    have hnm : n ≤ m := hk.trans hm
    exact State.enabled_hostPeripheral (h m hnm).1.live (by rw [count_of_none h hl hnone hnm]; exact hcount) hfed hroomy
  obtain ⟨m, hm, hb⟩ := hfair k henabled
  exact hnone m (hk.trans hm) hb

/-- A loop is left: each byte step uses up one of those its count allows. -/
theorem not_looping {run : Run} {n : Nat} (h : run.Endless n) (hfair : run.hostPeripheralFair)
    (hl : (run.at_ n).he.phase.looping = true) : False := by
  obtain ⟨m, hm, hb⟩ := h.exists_byteStep hfair hl
  obtain ⟨hlm, hle⟩ := h.loops hl hm
  obtain ⟨hl', hlt⟩ := (h.mono hm).byteStep hlm hb
  exact not_looping (h.mono (show n ≤ m + 1 by omega)) hfair hl'
termination_by (run.at_ n).exchangeSteps
decreasing_by omega

end Run.Endless

/-- An operation begun with the Host quiet comes to a step D (R158). -/
theorem Run.exists_return (run : Run) {n : Nat} (hfair : run.hostPeripheralFair) (h : (run.at_ n).Operating) :
    ∃ m, n ≤ m ∧ run.returns m := by
  by_contra hno
  have hend := run.endless_of_no_return h fun k hk hr => hno ⟨k, hk, hr⟩
  obtain ⟨k, hk, -, hp⟩ := hend.exists_l1
  exact (hend.mono hk).not_looping hfair (by rw [hp]; rfl)

/-! ### A stall in the loop -/

/-- The loop under a stalled clock, the block's invariant holding, since the state `s`. -/
structure StalledSince (s t : State) : Prop where
  inv : t.Inv
  stalled : t.env.stalled = true
  looping : t.he.phase.looping = true
  count : SameCount s t
  pc : t.pc = s.pc

theorem Phase.looping_iff {p : Phase} : p.looping = true ↔ p = .l1 ∨ p = .l2 ∨ p = .l3 := by
  simp [Phase.looping, or_assoc]

theorem Phase.running_of_looping {p : Phase} (h : p.looping = true) : p.running = true := by
  obtain rfl | rfl | rfl := Phase.looping_iff.1 h <;> rfl

/-- While an operation is under way the host program has a step (R158). -/
theorem State.hostEnabled_of_running {s : State} (hs : s.Inv) (hr : s.he.phase.running = true) :
    s.enabled .hostProgram = true := by
  obtain ⟨i, t, r, len, hi, he⟩ := (hs.captured hr).issued
  have hrefused : s.operandRefused i = false := by
    cases hp : s.he.phase <;> simp [hp, Phase.running] at hr <;> simp [State.operandRefused, he, hp]
  simp [State.enabled, State.hostEnabled, hi, hrefused]

/-- With a count that is not 0 the host program goes round the loop (R141, R151). -/
theorem engineStep_loop {k : Mode} {t r : Bool} {len : Byte} {s u : State} (hl : s.he.phase.looping = true)
    (hcount : s.hp.tcnt ≠ 0) (h : engineStep k t r len s = .next u) :
    u.he.phase.looping = true ∧ u.pc = s.pc ∧ u.env = s.env := by
  obtain hp | hp | hp := Phase.looping_iff.1 hl <;> simp only [engineStep, hp] at h
  · obtain ⟨-, rfl⟩ | ⟨b, -, -, -, -, rfl⟩ := engineL1_cases (phaseResult_next.1 h) <;> exact ⟨rfl, rfl, rfl⟩
  · obtain ⟨v, hv, rfl⟩ := engineL2_cases (phaseResult_next.1 h)
    obtain ⟨_, _, _, rfl, -⟩ := drain_frame hv
    exact ⟨rfl, rfl, rfl⟩
  · rw [engineL3_of_nonzero hcount] at h
    obtain rfl := Host.Outcome.next.inj h
    exact ⟨rfl, rfl, rfl⟩

/-- A step of a run in a stalled loop stays in it: the host program goes round, and no byte step is enabled (R114). -/
theorem StalledSince.step {s t u : State} {p : Pick} (h : StalledSince s t) (hcount : s.hp.tcnt ≠ 0)
    (hen : t.enabled p.agent = true) (hu : stepWith p t = .next u) : StalledSince s u := by
  have hinv : ({ t with picks := [p] } : State).Inv :=
    h.inv.of_sameHost ⟨rfl, rfl, rfl, rfl, rfl, rfl⟩ h.inv.host h.inv.client h.inv.pcs.2
  have hinv' : u.Inv := step_inv hinv hu
  have htcnt : t.hp.tcnt ≠ 0 := by rw [h.count.2]; exact hcount
  have hr := Phase.running_of_looping h.looping
  by_cases hp : p.agent = .hostProgram
  · obtain ⟨i, tt, r, len, hi, he⟩ := (h.inv.captured hr).issued
    rw [stepWith_eq, hp] at hu
    have hstep : engineStep t.he.mode tt r len (t.after p.event []) = .next u := by
      simpa only [runAgent, State.after_hostIssue, hi, runIssue, exec_engine he] using hu
    have hs3 : t.he.phase ≠ .s3 := by
      obtain hp | hp | hp := Phase.looping_iff.1 h.looping <;> simp [hp]
    have hsame : SameCount t u := engineStep_sameCount (s := t.after p.event []) hs3 hstep
    obtain ⟨hloop, hpc, henv⟩ := engineStep_loop (s := t.after p.event []) h.looping htcnt hstep
    exact ⟨hinv', by rw [henv]; exact h.stalled, hloop, ⟨hsame.1.trans h.count.1, hsame.2.trans h.count.2⟩,
      hpc.trans h.pc⟩
  · obtain ⟨hh, hc⟩ := stepWith_cases hu hen hp
    have hhp : u.hp = t.hp := by
      obtain ⟨hb, -⟩ | ⟨hhp, -⟩ | ⟨hhp, -⟩ := hc
      · rw [hb, hostPeripheral_disabled_of_stalled h.stalled] at hen
        cases hen
      · exact hhp
      · exact hhp
    exact ⟨hinv', by rw [hh.env]; exact h.stalled, by rw [hh.he]; exact h.looping,
      ⟨by rw [hhp]; exact h.count.1, by rw [hhp]; exact h.count.2⟩, hh.pc.trans h.pc⟩

/-- A stalled loop goes on for ever (R158). -/
theorem Run.stalledSince (run : Run) {n m : Nat} (h : StalledSince (run.at_ n) (run.at_ n))
    (hcount : (run.at_ n).hp.tcnt ≠ 0) (hnm : n ≤ m) : StalledSince (run.at_ n) (run.at_ m) := by
  induction m, hnm using Nat.le_induction with
  | base => exact h
  | succ m hnm ih =>
    have hhost := State.hostEnabled_of_running ih.inv (Phase.running_of_looping ih.looping)
    have hen := run.enabled m (by simp [State.anyEnabled, hhost])
    exact ih.step hcount hen (run.steps m)

/-- Settles O39: the first step D after S0 is the one claimed, the operation being under way until then; in a stall the
loop keeps itself. -/
theorem operationReachesD : Obligations.OperationReachesD := by
  classical
  constructor
  · intro run n hfair hlive hq hidle hm hs1 htxd hrxd
    obtain ⟨ho, hpc⟩ := State.Operating.of_start (run.steps n) hm hidle hlive hq hs1 htxd hrxd
    have hex := run.exists_return hfair ho
    obtain ⟨hnm, hd⟩ := Nat.find_spec hex
    have huntil {k : Nat} (hk : n < k) (hkm : k ≤ Nat.find hex) :=
      run.operating_until ho hk fun j hj hjk hr => Nat.find_min hex (show j < Nat.find hex by omega) ⟨hj, hr⟩
    obtain ⟨hom, hpcm⟩ := huntil hnm (Nat.le_refl _)
    obtain ⟨hp', hpc', hres⟩ := run.returns_result hom hd
    refine ⟨Nat.find hex, hnm, hd.1, hd.2, fun k hk hkm => ?_, hp', ?_, hres⟩
    · obtain ⟨hok, hpck⟩ := huntil hk hkm
      exact ⟨hok.running, hpck.trans hpc⟩
    · rw [hpc', hpcm, hpc]
  · intro run n hinv hst hl hcount m hnm
    have h := run.stalledSince ⟨hinv, hst, hl, ⟨rfl, rfl⟩, rfl⟩ hcount hnm
    exact ⟨State.hostEnabled_of_running h.inv (Phase.running_of_looping h.looping),
      hostPeripheral_disabled_of_stalled h.stalled, h.looping, h.stalled, h.count.2, h.count.1, h.pc⟩

end Sys2Proof.Machine
end

section
/-! The commands of the Client peripheral and of the environment (42_client_peripheral.md R184 to R192, R200 to R205):
each as the record it answers, and the causes it adds to the fault record (60_exceptions.md R262). -/

namespace Sys2Proof.Machine

/-! ### Each command of the Client peripheral as a record -/

theorem exec_cClrbuf (s : State) :
    exec .cClrbuf s = .next { s with cpc := s.cpc + 1, cp := { s.cp with txf := [], rxf := [], sh := .idle } } := rfl

theorem exec_cAcksof (s : State) :
    exec .cAcksof s = .next { s with cpc := s.cpc + 1, cp := { s.cp with sof := false } } := rfl

theorem exec_cAckeof (s : State) :
    exec .cAckeof s = .next { s with cpc := s.cpc + 1, cp := { s.cp with eof := false } } := rfl

/-- A query of the Client peripheral writes its condition to `res` (R185, R186, R189, R190). -/
theorem clientCommand_setRes (s : State) (c : Bool) :
    clientCommand (s.setRes (boolByte c)) =
      .next { s with cpc := s.cpc + 1, res := if c then 1 else 0, resValid := true } := rfl

/-- A query whose condition is a proposition. -/
theorem clientCommand_setRes_decide (s : State) (c : Prop) [Decidable c] :
    clientCommand (s.setRes (boolByte (decide c))) =
      .next { s with cpc := s.cpc + 1, res := if c then 1 else 0, resValid := true } := by
  simp only [clientCommand_setRes, decide_eq_true_eq]

theorem exec_cWrtx (b : Byte) (s : State) :
    exec (.cWrtx b) s =
      .next { s with
        cpc := s.cpc + 1, cp := { s.cp with txf := if s.clientTxSpace then s.cp.txf ++ [b] else s.cp.txf }
        flt := s.flt ||| FaultBit.cTxWriteErr.when (!s.clientTxSpace) } :=
  congrArg clientCommand (cWrtxEffect_eq b s)

theorem exec_cRdrx_of_cons {s : State} {b : Byte} {rest : List Byte} (h : s.cp.rxf = b :: rest) :
    exec .cRdrx s =
      .next { s with cpc := s.cpc + 1, res := b, resValid := true, cp := { s.cp with rxf := rest } } := by
  have hread : cRdrxEffect s = (b, { s with cp := { s.cp with rxf := rest } }) := by simp only [cRdrxEffect, h]
  simp only [exec, execCRdrx, hread]
  rfl

theorem exec_cRdrx_of_empty {s : State} (h : s.cp.rxf = []) :
    exec .cRdrx s =
      .next { s with
        cpc := s.cpc + 1, res := s.drawn, resValid := true, draws := s.draws + 1
        flt := s.flt ||| FaultBit.cRxReadErr.mask } := by
  have hread : cRdrxEffect s = (s.drawn, s.drew.raise .cRxReadErr) := by simp only [cRdrxEffect, h]
  simp only [exec, execCRdrx, hread]
  rfl

/-! ### Slave-Select, with an edge and without (R193, R200, R201) -/

theorem exec_envSsa_of_edge {s : State} (h : s.cp.ss = false) :
    exec .envSsa s = .next { s with pc := s.pc + 1, cp := { s.cp with ss := true, sof := true } } :=
  congrArg hostCommand (if_neg (Bool.eq_false_iff.1 h))

theorem exec_envSsa_of_asserted {s : State} (h : s.cp.ss = true) :
    exec .envSsa s = .next { s with pc := s.pc + 1 } :=
  congrArg hostCommand (if_pos h)

theorem exec_envSsd_of_edge {s : State} (h : s.cp.ss = true) :
    exec .envSsd s = .next { s with pc := s.pc + 1, cp := { s.cp with ss := false, eof := true, sh := .idle } } :=
  congrArg hostCommand (if_pos h)

theorem exec_envSsd_of_deasserted {s : State} (h : s.cp.ss = false) :
    exec .envSsd s = .next { s with pc := s.pc + 1 } :=
  congrArg hostCommand (if_neg (Bool.eq_false_iff.1 h))

/-! ### The line and the stall (R202 to R205) -/

theorem exec_envLine (v : Byte) (s : State) :
    exec (.envLine v) s = .next { s with pc := s.pc + 1, env := { s.env with line := .held v } } := rfl

theorem exec_envFloat (s : State) :
    exec .envFloat s = .next { s with pc := s.pc + 1, env := { s.env with line := .float } } := rfl

theorem exec_envStall (s : State) :
    exec .envStall s = .next { s with pc := s.pc + 1, env := { s.env with stalled := true } } := rfl

theorem exec_envUnstall (s : State) :
    exec .envUnstall s = .next { s with pc := s.pc + 1, env := { s.env with stalled := false } } := rfl

/-! ### The words of the commands with a byte operand (R86, R87) -/

theorem decode_cWrtx (b : Byte) : decode (0x2700#16 ||| b.setWidth 16) = .ok (.cWrtx b) :=
  decode_of_encode (pack_eq_or 0x2 0x7 b)

theorem decode_envLine (v : Byte) : decode (0x4200#16 ||| v.setWidth 16) = .ok (.envLine v) :=
  decode_of_encode (pack_eq_or 0x4 0x2 v)

/-! ### The obligations -/

/-- Settles O40: the record of the command. -/
theorem cClrbufClearsFifosAndLatch : Obligations.CClrbufClearsFifosAndLatch :=
  ⟨decode_of_encode rfl, exec_cClrbuf⟩

/-- Settles O41: four of the commands are queries, two the records of the acknowledgements. -/
theorem clientQueriesAndAcknowledges : Obligations.ClientQueriesAndAcknowledges := by
  refine ⟨decode_of_encode rfl, decode_of_encode rfl, decode_of_encode rfl, decode_of_encode rfl,
    decode_of_encode rfl, decode_of_encode rfl, fun s => ?_⟩
  have hsof := clientCommand_setRes s s.cp.sof
  have heof := clientCommand_setRes s s.cp.eof
  have hrxdat := clientCommand_setRes_decide s (0 < s.cp.rxf.length)
  have htxspc := clientCommand_setRes_decide s (s.cp.txf.length < s.cfg.txd)
  exact ⟨hsof, heof, exec_cAcksof s, exec_cAckeof s, hrxdat, htxspc⟩

/-- Settles O42: the record of the command below the depth and at it. -/
theorem cWrtxPushesOrRecordsError : Obligations.CWrtxPushesOrRecordsError := by
  refine ⟨decode_cWrtx, fun s b => ⟨_, exec_cWrtx b s, ?_, .of_when rfl ?_, .of_eq rfl rfl rfl⟩⟩
  · simp [State.clientTxSpace]
  · simp [State.clientTxSpace]

/-- Settles O43: the record of the command on each form of the FIFO; it stores nothing in memory (R60). -/
theorem cRdrxPopsOrDraws : Obligations.CRdrxPopsOrDraws := by
  refine ⟨decode_of_encode rfl, fun s b rest h => exec_cRdrx_of_cons h, fun s h => ?_, fun s t h => ?_⟩
  · exact ⟨_, exec_cRdrx_of_empty h, rfl, .of_flt rfl fun f => by simp⟩
  · obtain ⟨hmem, -⟩ := onlyStoringCommandsChangeMemory .cRdrx s t h
    exact hmem nofun nofun (.inl rfl)

/-- Settles O44: the records of the two commands, with an edge and without. -/
theorem slaveSelectEdgesSetFlags : Obligations.SlaveSelectEdgesSetFlags :=
  ⟨decode_of_encode rfl, decode_of_encode rfl, fun _ =>
    ⟨exec_envSsa_of_edge, exec_envSsa_of_asserted, exec_envSsd_of_edge, exec_envSsd_of_deasserted⟩⟩

/-- Settles O45: the records of the four commands. -/
theorem environmentCommandsSetLineAndStall : Obligations.EnvironmentCommandsSetLineAndStall :=
  ⟨decode_envLine, decode_of_encode rfl, decode_of_encode rfl, decode_of_encode rfl, fun s =>
    ⟨fun v => exec_envLine v s, exec_envFloat s, exec_envStall s, exec_envUnstall s⟩⟩

end Sys2Proof.Machine
end

section
/-! The operations of the Client engine (43_client_engine.md R221 to R225), the handlers of the events as records (R229),
and their dispatch (R230, R232). -/

namespace Sys2Proof.Machine

/-! ### The operations on the frame state (R221 to R223) -/

theorem exec_ceInit (s : State) :
    exec .ceInit s = .next { s with cpc := s.cpc + 1, ce := { s.ce with rc := 0, wc := 0, fs := .idle } } := rfl

theorem exec_ceStart (s : State) :
    exec .ceStart s = .next { s with cpc := s.cpc + 1, ce := { s.ce with rc := 0, wc := 0, fs := .active } } := rfl

theorem exec_ceStop (s : State) :
    exec .ceStop s =
      .next { s with
        cpc := s.cpc + 1
        cp := { s.cp with txf := [], rxf := [], sh := .idle }
        ce := { s.ce with rc := 0, wc := 0, fs := .idle } } := rfl

/-- Settles O46: the records of the three operations. -/
theorem frameOperationsResetCursors : Obligations.FrameOperationsResetCursors :=
  ⟨decode_of_encode rfl, decode_of_encode rfl, decode_of_encode rfl, fun s =>
    ⟨exec_ceInit s, exec_ceStart s, exec_ceStop s⟩⟩

/-! ### One byte received (R224) -/

theorem ceRecvEffect_of_below {b : Byte} {s : State} (h : s.ce.rc < s.cfg.cap) :
    ceRecvEffect b s = { s with ce := { s.ce with buf := s.ce.buf.insert s.ce.rc b, rc := s.ce.rc + 1 } } :=
  if_pos h

theorem ceRecvEffect_of_full {b : Byte} {s : State} (h : s.cfg.cap ≤ s.ce.rc) :
    ceRecvEffect b s = { s with flt := s.flt ||| FaultBit.ceBufferOverrun.mask } :=
  if_neg (Nat.not_lt.2 h)

/-- What R224 says of the state after `onByteReceived(b)`: the byte stored below the capacity, dropped and the overrun
recorded at it. -/
structure Receives (b : Byte) (s t : State) : Prop where
  stored : s.ce.rc < s.cfg.cap → t.ce.rc = s.ce.rc + 1 ∧ t.byteAt .buf s.ce.rc = b ∧
    ∀ j, j ≠ s.ce.rc → t.byteAt .buf j = s.byteAt .buf j
  dropped : s.cfg.cap ≤ s.ce.rc → t.ce = s.ce
  faults : FaultsAdded s t (fun f => f = .ceBufferOverrun ∧ s.cfg.cap ≤ s.ce.rc)

/-- `onByteReceived` writes the FrameBuffer, the read cursor and the fault record only. -/
theorem ceRecvEffect_frame (b : Byte) (s : State) :
    ceRecvEffect b s =
      { s with
        ce := { s.ce with buf := (ceRecvEffect b s).ce.buf, rc := (ceRecvEffect b s).ce.rc }
        flt := (ceRecvEffect b s).flt } := by
  obtain ⟨-, h⟩ | ⟨-, h⟩ := ceRecvEffect_cases b s <;> rw [h]

theorem ceRecvEffect_receives (b : Byte) (s : State) : Receives b s (ceRecvEffect b s) := by
  obtain ⟨hrc, h⟩ | ⟨hrc, h⟩ := ceRecvEffect_cases b s <;> rw [h]
  · have hread := s.byteAt_buf_insert { s.ce with buf := s.ce.buf.insert s.ce.rc b, rc := s.ce.rc + 1 } s.ce.rc b
    refine ⟨fun _ => ⟨rfl, ?_, fun j hj => ?_⟩, fun hfull => absurd hrc (by omega), ?_⟩
    · rw [hread _ rfl, if_pos rfl]
    · rw [hread _ rfl, if_neg hj]
    · exact fun f => by simp [State.hasFault, hrc]
  · exact ⟨fun hbelow => absurd hrc (by omega), fun _ => rfl, .of_flt rfl fun f => by simp [hrc]⟩

theorem decode_ceRecv (b : Byte) : decode (0x3300#16 ||| b.setWidth 16) = .ok (.ceRecv b) :=
  decode_of_encode (pack_eq_or 0x3 0x3 b)

/-- Settles O47: the command is `onByteReceived` and the advance of its program counter. -/
theorem ceRecvStoresOrOverruns : Obligations.CeRecvStoresOrOverruns := by
  refine ⟨decode_ceRecv, fun s b => ⟨(ceRecvEffect b s).advanceClient, rfl, ?_, ?_⟩⟩
  · rw [ceRecvEffect_frame]; rfl
  · obtain ⟨hstored, hdropped, hfaults⟩ := ceRecvEffect_receives b s
    exact ⟨hstored, hdropped, hfaults⟩

/-! ### The bytes of a frame (R227, R265) -/

/-- A cause recorded once stays as it is when recorded again (R266). -/
theorem FaultBit.mask_or_when (f : FaultBit) (c : Bool) : f.mask ||| f.when c = f.when true := by
  cases c <;> simp [FaultBit.when]

/-- From a read cursor inside the buffer, the bytes that still fit are stored in order and the overrun is recorded when
one does not. -/
theorem foldl_ceRecvEffect {s : State} (bs : List Byte) (h : s.ce.rc ≤ s.cfg.cap) :
    bs.foldl (fun u b => ceRecvEffect b u) s =
      { s with
        ce := { s.ce with
          buf := s.ce.buf.insertAll s.ce.rc (bs.take (s.cfg.cap - s.ce.rc))
          rc := min (s.ce.rc + bs.length) s.cfg.cap }
        flt := s.flt ||| FaultBit.ceBufferOverrun.when (decide (s.cfg.cap < s.ce.rc + bs.length)) } := by
  induction bs generalizing s with
  | nil => simp [Memory.insertAll, FaultBit.when, Nat.not_lt.2 h, Nat.min_eq_left h]
  | cons b bs ih =>
    rw [List.foldl_cons, List.length_cons]
    obtain hrc | hrc := Nat.lt_or_eq_of_le h
    · have hroom : s.cfg.cap - s.ce.rc = s.cfg.cap - (s.ce.rc + 1) + 1 := by omega
      have hlen : s.ce.rc + (bs.length + 1) = s.ce.rc + 1 + bs.length := by omega
      rw [ceRecvEffect_of_below hrc, ih (by exact hrc), hroom, hlen]
      rfl
    · have hmin (k : Nat) : min (s.cfg.cap + k) s.cfg.cap = s.cfg.cap := by omega
      have hover : s.cfg.cap < s.cfg.cap + (bs.length + 1) := by omega
      rw [ceRecvEffect_of_full hrc.ge, ih (by exact h)]
      simp only [hrc, hmin, hover, decide_true, Nat.sub_self, List.take_zero, BitVec.or_assoc, FaultBit.mask_or_when]

/-- Settles O51: the frame begins at 0, so the bytes that fit are the first `C`. -/
theorem frameKeepsFirstBytesInOrder : Obligations.FrameKeepsFirstBytesInOrder := by
  intro s bs hrc t
  have ht : t = _ := foldl_ceRecvEffect bs (by omega)
  rw [hrc, Nat.zero_add, Nat.sub_zero] at ht
  rw [ht]
  refine ⟨rfl, rfl, fun j => ?_, .of_when rfl (by simp)⟩
  have hlen : (bs.take s.cfg.cap).length = min bs.length s.cfg.cap := by rw [List.length_take, Nat.min_comm]
  simp only [State.byteAt, Memory.lookup_insertAll, Nat.zero_le, true_and, Nat.zero_add, Nat.sub_zero, hlen]
  split
  next hj => simp [List.getD, show j < s.cfg.cap by omega]
  next => rfl

/-! ### One byte requested (R225) -/

theorem ceReqEffect_of_below {s : State} (h : s.ce.wc < s.cfg.cap) :
    ceReqEffect s = (s.byteAt .buf s.ce.wc, { s with ce := { s.ce with wc := s.ce.wc + 1 } }) := if_pos h

theorem ceReqEffect_of_exhausted {s : State} (h : s.cfg.cap ≤ s.ce.wc) : ceReqEffect s = (s.cfg.exhaustedFill, s) :=
  if_neg (Nat.not_lt.2 h)

/-- Settles O48: `onByteRequested` below the capacity and at it, its byte written to `res`. -/
theorem ceReqReturnsSlotAtWriteCursor : Obligations.CeReqReturnsSlotAtWriteCursor := by
  refine ⟨decode_of_encode rfl, fun s => ⟨fun h => ?_, fun h => ?_⟩⟩
  · simp only [exec, execCeReq, ceReqEffect_of_below h]; rfl
  · simp only [exec, execCeReq, ceReqEffect_of_exhausted h]; rfl

/-! ### The handlers that read or write a FIFO (R229) -/

theorem State.pending_rx_iff {s : State} : s.pending .rx = true ↔ s.cp.rxf ≠ [] := by
  simp [State.pending, State.clientRxData, List.length_pos_iff]

theorem State.pending_tx_iff {s : State} :
    s.pending .tx = true ↔
      s.cp.txf.length < s.cfg.txd ∧ (s.ce.fs = .active ∨ s.cfg.clientTxWhenIdle = true) := by
  simp [State.pending, State.clientTxSpace]

theorem handleRx_of_cons {s : State} {b : Byte} {bs : List Byte} (h : s.cp.rxf = b :: bs) :
    handleRx s = ceRecvEffect b { s with cp := { s.cp with rxf := bs } } := by
  simp only [handleRx, cRdrxEffect, h]

theorem handleTx_of_below {s : State} (hsp : s.cp.txf.length < s.cfg.txd) (h : s.ce.wc < s.cfg.cap) :
    handleTx s =
      { s with
        cp := { s.cp with txf := s.cp.txf ++ [s.byteAt .buf s.ce.wc] }, ce := { s.ce with wc := s.ce.wc + 1 } } := by
  rw [handleTx, ceReqEffect_of_below h]
  exact if_pos (decide_eq_true hsp)

theorem handleTx_of_exhausted {s : State} (hsp : s.cp.txf.length < s.cfg.txd) (h : s.cfg.cap ≤ s.ce.wc) :
    handleTx s = { s with cp := { s.cp with txf := s.cp.txf ++ [s.cfg.exhaustedFill] } } := by
  rw [handleTx, ceReqEffect_of_exhausted h]
  exact if_pos (decide_eq_true hsp)

/-! ### The dispatch of one event (R230, R232) -/

/-- A pending event is dispatched when it is the one chosen. -/
theorem dispatchOne_of_choice {s : State} (h : s.pending s.choice = true) : dispatchOne s = runHandler s.choice s := by
  simp only [dispatchOne, State.chosenEvent, h, if_true]

theorem dispatchOne_of_none {s : State} (h : s.anyPending = false) : dispatchOne s = s :=
  Host.Outcome.next.inj (runAgent_disabled (a := .dispatcher) h)

theorem State.anyPending_eq_false_iff {s : State} :
    s.anyPending = false ↔
      s.pending .rx = false ∧ s.pending .stop = false ∧ s.pending .start = false ∧ s.pending .tx = false := by
  simp [State.anyPending, and_assoc]

theorem step_dispatcher {s : State} {e : Event} {rest : List Pick} (hp : s.picks = ⟨.dispatcher, e⟩ :: rest) :
    step s = .next (dispatchOne (s.after e rest)) := step_of_picks hp

/-- The dispatcher handles the picked event if it is pending. -/
theorem step_dispatcher_of_pending {s : State} {e : Event} {rest : List Pick}
    (hp : s.picks = ⟨.dispatcher, e⟩ :: rest) (he : (s.after e rest).pending e = true) :
    step s = .next (runHandler e (s.after e rest)) := by
  rw [step_dispatcher hp]
  exact congrArg Host.Outcome.next (dispatchOne_of_choice he)

/-- Settles O49: each handler as the record it answers; with nothing pending the dispatch does nothing. -/
theorem dispatcherRunsHandler : Obligations.DispatcherRunsHandler := by
  intro s e rest hp
  have hstep := step_dispatcher_of_pending hp
  refine ⟨?start, ?stop, ?rx, ?tx, ?none⟩
  case start => rintro rfl hsof; exact hstep hsof
  case stop => rintro rfl heof; exact hstep heof
  case rx =>
    rintro b bs rfl hrxf
    have hpend : (s.after .rx rest).pending .rx = true := State.pending_rx_iff.2 (by simp [State.after, hrxf])
    have hrx := handleRx_of_cons (s := s.after .rx rest) hrxf
    obtain ⟨hstored, hdropped, hfaults⟩ :=
      ceRecvEffect_receives b { s.after .rx rest with cp := { s.cp with rxf := bs } }
    exact ⟨_, (hstep hpend).trans (congrArg Host.Outcome.next hrx), ceRecvEffect_frame _ _, hstored, hdropped, hfaults⟩
  case tx =>
    rintro rfl hsp hfs
    have htx := hstep (State.pending_tx_iff.2 ⟨hsp, hfs⟩)
    exact ⟨fun h => htx.trans (congrArg Host.Outcome.next (handleTx_of_below hsp h)),
      fun h => htx.trans (congrArg Host.Outcome.next (handleTx_of_exhausted hsp h))⟩
  case none =>
    intro hsof heof hrxf htx
    have hrx : (s.after e rest).pending .rx = false := Bool.eq_false_iff.2 (mt State.pending_rx_iff.1 (not_not.2 hrxf))
    have htx : (s.after e rest).pending .tx = false := by
      refine Bool.eq_false_iff.2 (mt State.pending_tx_iff.1 ?_)
      rintro ⟨hsp, hfs⟩
      obtain hfull | ⟨hidle, hoff⟩ := htx
      · exact absurd hsp (Nat.not_lt.2 hfull)
      · obtain hact | hon := hfs
        · cases hidle.symm.trans hact
        · cases hoff.symm.trans hon
    have hnone := State.anyPending_eq_false_iff.2 ⟨hrx, heof, hsof, htx⟩
    rw [step_dispatcher hp, dispatchOne_of_none hnone]

/-- A handler leaves the program counter, which the command then advances. -/
theorem advanceClient_runHandler (e : Event) (s : State) :
    (runHandler e s).advanceClient = { runHandler e s with cpc := s.cpc + 1 } := by
  obtain ⟨_, _, _, _, h⟩ := runHandler_frame e s
  rw [h]; rfl

/-- Settles O50: the command is a dispatch and the advance of its program counter. -/
theorem ceDispatchRunsOneHandler : Obligations.CeDispatchRunsOneHandler := by
  refine ⟨decode_of_encode rfl, fun s => ⟨fun h => ?_, fun e he => ?_, fun h => ?_⟩⟩
  · obtain ⟨e, -, he, hd⟩ | ⟨hnone, -⟩ := dispatchOne_cases s
    · refine ⟨e, he, ?_⟩
      rw [← advanceClient_runHandler, ← hd]; rfl
    · cases h.symm.trans hnone
  · have he' : ({ s with choice := e } : State).pending e = true := he
    rw [← advanceClient_runHandler e { s with choice := e }, ← dispatchOne_of_choice he']; rfl
  · show clientCommand (dispatchOne s) = _
    rw [dispatchOne_of_none h]; rfl

end Sys2Proof.Machine
end

section
/-! The loopback of the Client across two frames (43_client_engine.md R234, 42_client_peripheral.md R194): within a frame
each step that is no client command either leaves the position on the wire or latches the byte of the next one. -/

namespace Sys2Proof.Machine

variable {content : Nat → Byte} {n : Nat} {s t : State}

theorem State.loopByte_congr (h : t.cfg = s.cfg) : t.loopByte = s.loopByte := by
  funext content i; simp only [State.loopByte, h]

theorem State.loopByte_of_below {i : Nat} (h : i < s.cfg.cap) : s.loopByte content i = content i := if_pos h

theorem State.loopByte_of_exhausted {i : Nat} (h : s.cfg.cap ≤ i) : s.loopByte content i = s.cfg.exhaustedFill :=
  if_neg (Nat.not_lt.2 h)

/-! ### The handlers keep the loopback (R229) -/

/-- Of the Client side a step may empty the latch and touch Slave-Select and its flags. -/
theorem State.LoopsBack.of_kept (hs : s.LoopsBack content n) (hcfg : t.cfg = s.cfg) (hresets : t.resets = s.resets)
    (hce : t.ce = s.ce) (htxf : t.cp.txf = s.cp.txf) (hrxf : t.cp.rxf = s.cp.rxf)
    (hsh : t.cp.sh = s.cp.sh ∨ t.cp.sh = .idle) : t.LoopsBack content n := by
  obtain ⟨hcursor, hfifo, hlatch, hbehind, hunsent⟩ := hs
  have hmem : t.byteAt .buf = s.byteAt .buf := by
    funext j; simp only [State.byteAt, hce, hresets]
  refine ⟨by rw [hce, htxf, hcfg]; exact hcursor, ?_, ?_, ?_, by rw [hce, hmem]; exact hunsent⟩
  · rw [htxf, State.loopByte_congr hcfg]; exact hfifo
  · intro c hc
    rw [State.loopByte_congr hcfg]
    obtain hsh | hsh := hsh <;> rw [hsh] at hc
    · exact hlatch c hc
    · cases hc
  · rw [hce, hrxf]
    obtain hsh | hsh := hsh <;> rw [hsh]
    · exact hbehind
    · rw [if_pos rfl]; omega

theorem State.LoopsBack.takePick (hs : s.LoopsBack content n) : s.takePick.LoopsBack content n :=
  hs.of_kept s.takePick_cfg s.takePick_resets s.takePick_ce (by rw [s.takePick_cp]) (by rw [s.takePick_cp])
    (by simp)

/-- The start handler begins a frame with both cursors at 0. -/
theorem handleStart_loopsBack (htxf : s.cp.txf = []) (hrxf : s.cp.rxf = []) (hsh : s.cp.sh = .idle) :
    (handleStart s).LoopsBack (fun j => s.byteAt .buf j) 0 := by
  rw [handleStart_eq]
  refine ⟨?_, ?_, ?_, ?_, fun j _ => rfl⟩ <;> simp [htxf, hrxf, hsh]

/-- The receive handler stores a byte of a position already latched, behind the bytes still to be sent. -/
theorem handleRx_loopsBack (hs : s.LoopsBack content n) (hpend : s.pending .rx = true) :
    (handleRx s).LoopsBack content n := by
  obtain ⟨hcursor, hfifo, hlatch, hbehind, hunsent⟩ := hs
  obtain ⟨b, bs, hrxf⟩ := List.exists_cons_of_ne_nil (State.pending_rx_iff.1 hpend)
  rw [hrxf, List.length_cons] at hbehind
  rw [handleRx_of_cons hrxf]
  obtain ⟨-, h⟩ | ⟨-, h⟩ := ceRecvEffect_cases b { s with cp := { s.cp with rxf := bs } } <;> rw [h]
  · refine ⟨hcursor, hfifo, hlatch, ?_, fun j hj => ?_⟩
    · dsimp only; omega
    · have hj : s.ce.rc + 1 ≤ j := hj
      refine (State.byteAt_buf_insert _ _ s.ce.rc b j rfl).trans ?_
      rw [if_neg (by omega)]
      exact hunsent j (by omega)
  · refine ⟨hcursor, hfifo, hlatch, ?_, hunsent⟩
    dsimp only; omega

/-- `InOrder` by the position of the oldest byte. -/
theorem inOrder_iff {byte : Nat → Option Byte} {f : List Byte} :
    InOrder byte (n + f.length) f ↔ ∀ k, k < f.length → f[k]? = byte (n + k) := by
  simp [InOrder]

/-- A FIFO with one more byte, that of the position it reaches. -/
theorem loopFifo_push {f : List Byte} {b : Byte} (hf : ∀ k, k < f.length → f[k]? = some (s.loopByte content (n + k)))
    (hb : b = s.loopByte content (n + f.length)) :
    ∀ k, k < (f ++ [b]).length → (f ++ [b])[k]? = some (s.loopByte content (n + k)) := by
  have hpush := (inOrder_iff (byte := fun i => some (s.loopByte content i)) |>.2 hf).push (congrArg some hb.symm)
  rw [show n + f.length + 1 = n + (f ++ [b]).length by rw [List.length_append, List.length_singleton]; rfl] at hpush
  exact inOrder_iff.1 hpush

/-- The transmit handler fetches the byte of the position the FIFO reaches, from a slot not yet overwritten. -/
theorem handleTx_loopsBack (hs : s.LoopsBack content n) (hpend : s.pending .tx = true) :
    (handleTx s).LoopsBack content n := by
  obtain ⟨hcursor, hfifo, hlatch, hbehind, hunsent⟩ := hs
  obtain ⟨hsp, -⟩ := State.pending_tx_iff.1 hpend
  obtain hwc | hwc := Nat.lt_or_ge s.ce.wc s.cfg.cap
  · have hpos : s.ce.wc = n + s.cp.txf.length := by omega
    have hbyte : s.byteAt .buf s.ce.wc = s.loopByte content (n + s.cp.txf.length) := by
      rw [hunsent _ (by omega), hpos, State.loopByte_of_below (by omega)]
    rw [handleTx_of_below hsp hwc]
    refine ⟨?_, loopFifo_push hfifo hbyte, hlatch, hbehind, hunsent⟩
    dsimp only
    rw [List.length_append, List.length_singleton]; omega
  · have hbyte : s.cfg.exhaustedFill = s.loopByte content (n + s.cp.txf.length) :=
      (State.loopByte_of_exhausted (by omega)).symm
    rw [handleTx_of_exhausted hsp hwc]
    refine ⟨?_, loopFifo_push hfifo hbyte, hlatch, hbehind, hunsent⟩
    dsimp only
    rw [List.length_append, List.length_singleton]; omega

/-- With no framing event pending a dispatch keeps the loopback. -/
theorem dispatchOne_loopsBack (hs : s.LoopsBack content n) (hsof : s.cp.sof = false) (heof : s.cp.eof = false) :
    (dispatchOne s).LoopsBack content n := by
  obtain ⟨e, -, hpend, hd⟩ | ⟨-, hd⟩ := dispatchOne_cases s <;> rw [hd]
  · cases e with
    | start => cases hsof.symm.trans hpend
    | stop => cases heof.symm.trans hpend
    | rx => exact handleRx_loopsBack hs hpend
    | tx => exact handleTx_loopsBack hs hpend
  · exact hs

/-! ### The host program and the byte steps keep it -/

/-- A command of the host program leaves the Client's FIFOs and engine (R2). -/
theorem exec_host_loopsBack {i : Instr} (hs : s.LoopsBack content n) (hi : i.stream = .host)
    (h : exec i s = .next t) : t.LoopsBack content n := by
  obtain ⟨hce, hcp⟩ := exec_host_clientSide hi h
  have hresets := exec_resets h
  have hcfg : t.cfg = s.cfg := by
    obtain ⟨_, _, _, _, _, _, _, _, _, _, _, _, rfl, -⟩ := exec_host_frame hi h; rfl
  obtain hcp | hcp | hcp := hcp <;> refine hs.of_kept hcfg hresets hce ?_ ?_ ?_ <;> simp [hcp]

/-- A step of the host program keeps the loopback. -/
theorem runIssue_host_loopsBack (hs : s.LoopsBack content n) (h : runIssue s.hostIssue s = .next t) :
    t.LoopsBack content n := by
  cases hi : s.hostIssue <;> rw [hi] at h
  case finished => obtain rfl := Host.Outcome.next.inj h; exact hs
  case reserved =>
    obtain rfl := Host.Outcome.next.inj h
    exact hs.of_kept rfl rfl rfl rfl rfl (.inl rfl)
  case command i => exact exec_host_loopsBack hs (State.hostIssue_stream hi).1 h

/-- The capture moves the byte in flight to the receive FIFO, or drops it (R183). -/
theorem hsComplete_loopsBack (out : Byte) (hs : s.LoopsBack content n) :
    (hsComplete out s).LoopsBack content n := by
  cases hsh : s.cp.sh with
  | idle =>
    have hcp : (hsComplete out s).cp = s.cp := clientCapture_cp_of_idle hsh
    rw [hsComplete_eq] at hcp ⊢
    exact hs.of_kept rfl rfl rfl (congrArg _ hcp) (congrArg _ hcp) (.inl (congrArg _ hcp))
  | latched c =>
    obtain ⟨hcursor, hfifo, -, hbehind, hunsent⟩ := hs
    rw [hsComplete_eq, clientCapture_of_latched hsh]
    refine ⟨hcursor, hfifo, nofun, ?_, hunsent⟩
    have hflight : s.ce.rc + s.cp.rxf.length + 1 ≤ n := by simpa [hsh] using hbehind
    dsimp only
    split <;> simp <;> omega

/-- The latch takes the byte of the next position (R182), unless Slave-Select is de-asserted or it underflows. -/
theorem hsStart_loopsBack (hs : s.LoopsBack content n) (hf : (hsStart s).hasFault .cTxUnderflow = false) :
    (hsStart s).LoopsBack content n ∨
      (hsStart s).LoopsBack content (n + 1) ∧ (hsStart s).cp.sh = .latched (s.loopByte content n) := by
  rw [hsStart_eq] at hf ⊢
  cases hss : s.cp.ss with
  | false =>
    rw [clientLatch_of_deasserted hss]
    exact .inl (hs.of_kept rfl rfl rfl rfl rfl (.inl rfl))
  | true =>
    cases htxf : s.cp.txf with
    | nil => simp [State.hasFault, clientLatch_flt, hss, htxf] at hf
    | cons b rest =>
      obtain ⟨hcursor, hfifo, -, hbehind, hunsent⟩ := hs
      rw [htxf, List.length_cons] at hcursor hfifo
      obtain rfl : b = s.loopByte content n := by simpa using hfifo 0 (by omega)
      rw [clientLatch_of_cons hss htxf]
      refine .inr ⟨⟨?_, fun k hk => ?_, fun c hc => ?_, ?_, hunsent⟩, rfl⟩
      · dsimp only; omega
      · have hget := hfifo (k + 1) (Nat.succ_lt_succ hk)
        rwa [List.getElem?_cons_succ, show n + (k + 1) = n + 1 + k by omega] at hget
      · exact ⟨by omega, (ClientShift.latched.inj hc).symm⟩
      · dsimp only
        rw [if_neg nofun]
        omega

/-- A step of an agent other than the client program, with no framing event pending and no underflow recorded. -/
theorem runAgent_loopsBack {a : Agent} (hs : s.LoopsBack content n) (ha : a ≠ .clientProgram)
    (hsof : s.cp.sof = false) (heof : s.cp.eof = false) (h : runAgent a s = .next t)
    (hf : t.hasFault .cTxUnderflow = false) :
    t.LoopsBack content n ∨ t.LoopsBack content (n + 1) ∧ t.cp.sh = .latched (s.loopByte content n) := by
  cases a with
  | hostProgram => exact .inl (runIssue_host_loopsBack hs h)
  | clientProgram => exact absurd rfl ha
  | hostPeripheral =>
    cases hst : hostPeripheralStep s with
    | none =>
      rw [runAgent, hst] at h
      obtain rfl := Host.Outcome.next.inj h
      exact .inl hs
    | some u =>
      rw [runAgent, hst] at h
      obtain rfl : u = t := Host.Outcome.next.inj h
      obtain ⟨out, -, -, rfl⟩ | ⟨-, -, rfl⟩ := hostPeripheralStep_cases hst
      · exact .inl (hsComplete_loopsBack out hs)
      · exact hsStart_loopsBack hs hf
  | dispatcher =>
    obtain rfl := Host.Outcome.next.inj h
    exact .inl (dispatchOne_loopsBack hs hsof heof)
  | clientPeripheral => obtain rfl := Host.Outcome.next.inj h; exact .inl hs
  | environment => obtain rfl := Host.Outcome.next.inj h; exact .inl hs

/-- Settles O53: the start handler begins the loopback and each admitted agent's step keeps it. -/
theorem clientLoopsBackFrameBuffer : Obligations.ClientLoopsBackFrameBuffer := by
  constructor
  · intro s rest hp hsof htxf hrxf hsh
    exact ⟨_, step_dispatcher_of_pending hp hsof, handleStart_loopsBack htxf hrxf hsh⟩
  · intro s t content n hs h ha hsof heof hf
    cases hp : s.nextPick with
    | none =>
      rw [step, hp] at h
      obtain rfl := Host.Outcome.next.inj h
      exact .inl hs
    | some p =>
      rw [step, hp] at h
      rw [hp] at ha
      have hagent : p.agent ≠ .clientProgram := fun hc => ha (congrArg some hc)
      rw [← State.loopByte_congr s.takePick_cfg]
      exact runAgent_loopsBack hs.takePick hagent (by rw [s.takePick_cp, hsof]) (by rw [s.takePick_cp, heof]) h hf

end Sys2Proof.Machine
end

section
/-! The fault record is sticky (60_exceptions.md R266): what an effect does to it is at most to record further causes, so
every agent's step keeps those already recorded. -/

namespace Sys2Proof.Machine

/-- Every fault bit set before is set after. -/
def KeepsFaults (s t : State) : Prop := ∀ f : FaultBit, s.hasFault f = true → t.hasFault f = true

theorem KeepsFaults.of_flt {s t : State} (h : t.flt = s.flt) : KeepsFaults s t := fun f hf => by
  rwa [State.hasFault, h]

/-- Recording causes beside those recorded keeps them. -/
theorem KeepsFaults.of_or {s t : State} {m : BitVec 12} (h : t.flt = s.flt ||| m) : KeepsFaults s t := fun f hf => by
  rw [State.hasFault, h, BitVec.getLsbD_or, Bool.or_eq_true]
  exact .inl hf

theorem KeepsFaults.trans {s t u : State} (h : KeepsFaults s t) (h' : KeepsFaults t u) : KeepsFaults s u :=
  fun f hf => h' f (h f hf)

theorem State.takePick_keepsFaults (s : State) : KeepsFaults s s.takePick := .of_flt s.takePick_flt

/-! ### The Host side -/

theorem hLdtcntEffect_keepsFaults (n : Byte) (s : State) : KeepsFaults s (hLdtcntEffect n s) := by
  rw [hLdtcntEffect_eq]
  exact .of_or (by simp only [BitVec.or_assoc]; rfl)

theorem hRdrxEffect_keepsFaults (s : State) : KeepsFaults s (hRdrxEffect s).2 := by
  obtain ⟨b, rest, -, h⟩ | ⟨-, h⟩ := hRdrxEffect_cases s <;> rw [h]
  · exact .of_flt rfl
  · exact .of_or rfl

/-- A step of an operation keeps the causes recorded: only S0 to S3 record any. -/
theorem engineStep_keepsFaults {k : Mode} {t r : Bool} {len : Byte} {s u : State}
    (h : engineStep k t r len s = .next u) : KeepsFaults s u := by
  obtain ⟨-, h⟩ | ⟨-, rfl⟩ | ⟨-, h⟩ | ⟨-, rfl⟩ | ⟨-, h⟩ | ⟨-, h⟩ | ⟨-, rfl⟩ | ⟨-, h⟩ := engineStep_cases h
  · obtain ⟨-, rfl⟩ | ⟨-, -, rfl⟩ | ⟨-, -, rfl⟩ := engineS0_cases h
    · exact .of_flt rfl
    · exact .of_flt rfl
    · exact .of_or rfl
  · rw [engineS1_eq]; exact .of_or rfl
  · obtain ⟨-, rfl⟩ | ⟨b, -, -, rfl⟩ := engineS2_cases h
    · exact .of_flt rfl
    · exact .of_or rfl
  · exact hLdtcntEffect_keepsFaults _ s
  · obtain ⟨-, rfl⟩ | ⟨b, -, -, -, -, rfl⟩ := engineL1_cases h <;> exact .of_flt rfl
  · obtain ⟨u, hu, rfl⟩ := engineL2_cases h
    obtain ⟨_, _, _, rfl, -⟩ := drain_frame hu
    exact .of_flt rfl
  · obtain ⟨-, h⟩ | ⟨-, h⟩ := engineL3_cases s <;> rw [h] <;> exact .of_flt rfl
  · obtain ⟨u, hu, rfl⟩ := engineD_cases h
    obtain ⟨_, _, _, rfl, -⟩ := drain_frame hu
    exact .of_flt rfl

/-- A byte step records at most the Client's underflow or overflow (R182, R183). -/
theorem hostPeripheralStep_keepsFaults {s t : State} (h : hostPeripheralStep s = some t) : KeepsFaults s t := by
  obtain ⟨out, -, -, rfl⟩ | ⟨-, -, rfl⟩ := hostPeripheralStep_cases h
  · rw [hsComplete_eq]; exact .of_or (clientCapture_flt out s)
  · rw [hsStart_eq]; exact .of_or (clientLatch_flt s)

/-! ### The Client side -/

theorem cWrtxEffect_keepsFaults (b : Byte) (s : State) : KeepsFaults s (cWrtxEffect b s) := by
  rw [cWrtxEffect_eq]; exact .of_or rfl

theorem cRdrxEffect_keepsFaults (s : State) : KeepsFaults s (cRdrxEffect s).2 := by
  obtain ⟨b, rest, -, h⟩ | ⟨-, h⟩ := cRdrxEffect_cases s <;> rw [h]
  · exact .of_flt rfl
  · exact .of_or rfl

theorem ceRecvEffect_keepsFaults (b : Byte) (s : State) : KeepsFaults s (ceRecvEffect b s) := by
  obtain ⟨-, h⟩ | ⟨-, h⟩ := ceRecvEffect_cases b s <;> rw [h]
  · exact .of_flt rfl
  · exact .of_or rfl

theorem ceReqEffect_keepsFaults (s : State) : KeepsFaults s (ceReqEffect s).2 := by
  obtain ⟨-, h⟩ | ⟨-, h⟩ := ceReqEffect_cases s <;> rw [h] <;> exact .of_flt rfl

theorem runHandler_keepsFaults (e : Event) (s : State) : KeepsFaults s (runHandler e s) := by
  cases e with
  | start => exact .of_flt rfl
  | stop => exact .of_flt rfl
  | rx => exact (cRdrxEffect_keepsFaults s).trans (ceRecvEffect_keepsFaults _ _)
  | tx => exact (ceReqEffect_keepsFaults s).trans (cWrtxEffect_keepsFaults _ _)

theorem dispatchOne_keepsFaults (s : State) : KeepsFaults s (dispatchOne s) := by
  obtain ⟨e, -, -, h⟩ | ⟨-, h⟩ := dispatchOne_cases s <;> rw [h]
  · exact runHandler_keepsFaults e s
  · exact .of_flt rfl

/-! ### Every command and every step -/

/-- A command of either stream keeps the causes recorded; those not named here record none. -/
theorem exec_keepsFaults {i : Instr} {s t : State} (h : exec i s = .next t) : KeepsFaults s t := by
  cases he : i.engine? with
  | some x => exact engineStep_keepsFaults (exec_engine (k := x.1) he s ▸ h)
  | none =>
    cases i <;> simp only [Instr.engine?, reduceCtorEq] at he <;> obtain rfl := Host.Outcome.next.inj h
    case hClrbuf => rw [hClrbufEffect_eq]; exact .of_or rfl
    case hSetdir => rw [hSetdirEffect_eq]; exact .of_or rfl
    case hLdtcnt n => exact hLdtcntEffect_keepsFaults n s
    case hWrtx => rw [hWrtxEffect_eq]; exact .of_or rfl
    case hRdrx => exact hRdrxEffect_keepsFaults s
    case envSsa => split <;> exact .of_flt rfl
    case envSsd => split <;> exact .of_flt rfl
    case cWrtx b => exact cWrtxEffect_keepsFaults b s
    case cRdrx => exact cRdrxEffect_keepsFaults s
    case ceRecv b => exact ceRecvEffect_keepsFaults b s
    case ceReq => exact ceReqEffect_keepsFaults s
    case ceDispatch => exact dispatchOne_keepsFaults s
    all_goals exact .of_flt rfl

/-- The step of any agent, its pick taken, keeps the causes recorded. -/
theorem step_keepsFaults {s t : State} (h : step s = .next t) : KeepsFaults s t := by
  obtain ⟨-, rfl⟩ | rfl | rfl | ⟨i, -, h⟩ | ⟨i, -, h⟩ | h | ⟨e, -, -, rfl⟩ := step_cases h
  · exact .of_flt rfl
  · exact s.takePick_keepsFaults
  · exact s.takePick_keepsFaults
  · exact s.takePick_keepsFaults.trans (exec_keepsFaults h)
  · exact s.takePick_keepsFaults.trans (exec_keepsFaults h)
  · exact s.takePick_keepsFaults.trans (hostPeripheralStep_keepsFaults h)
  · exact s.takePick_keepsFaults.trans (runHandler_keepsFaults e _)

/-- Settles O54: each agent's step at most records further causes, and reset leaves an empty record. -/
theorem faultsAreSticky : Obligations.FaultsAreSticky :=
  ⟨fun _ _ f h => step_keepsFaults h f, fun _ _ => BitVec.getLsbD_zero⟩

end Sys2Proof.Machine
end

section
/-! The invariants at reset (70_reset_and_hazards.md R290). No operation is under way, the FIFOs are empty, nothing is in
flight and the cursors and program counters are 0, so only the canonical memory asks something of the parameters. -/

namespace Sys2Proof.Machine

/-- Reset has the block's invariant for every sizing R8 allows, canonical receive sequences and a canonical `BUF_INIT`. -/
theorem State.resetWith_inv {cfg : Config} (prog : List HostCmd) (cprog : List Word) {rxb : List Space}
    (hcfg : cfg.wf = true) (hinit : Memory.wf cfg.cap cfg.bufInit = true) (hrxb : SequencesWf rxb) :
    (State.resetWith cfg prog cprog rxb).Inv where
  cfg := hcfg
  counter := Nat.two_pow_pos _
  fifos := ⟨Nat.zero_le _, Nat.zero_le _, Nat.zero_le _, Nat.zero_le _⟩
  cursors := ⟨Nat.zero_le _, Nat.zero_le _⟩
  memory := ⟨hinit, hinit, hrxb⟩
  pcs := ⟨Nat.zero_le _, Nat.zero_le _⟩
  engine := State.engineWf_of_idle rfl

/-- With no byte in flight there is nothing to count. -/
theorem State.flightCounted_of_idle {s : State} (h : s.hp.sh = .idle) : s.flightCounted :=
  fun _ hbusy => absurd h hbusy

/-- Settles O60: the invariant at any reset, and each further one because its subject is idle then; the reference sizing
has no `BUF_INIT` and no receive sequence. -/
theorem resetHasInvariant : Obligations.ResetHasInvariant :=
  ⟨fun _ prog cprog _ hcfg hinit hrxb =>
    ⟨State.resetWith_inv prog cprog hcfg hinit hrxb, State.latchFramed_of_empty rfl, State.flightCounted_of_idle rfl,
      State.txInOrder_of_idle rfl⟩,
    State.resetWith_inv [] [] (by decide) (Memory.wf_nil _) (List.forall_mem_nil _)⟩

end Sys2Proof.Machine
end

section
/-! Under `AtComplete` a byte in flight is still counted (70_reset_and_hazards.md R303). Only three kinds of step touch the
byte in flight or the count: HS_START, which needs a count; HS_COMPLETE, which leaves no byte in flight; and a load of the
counter, which records `H_TCNT_BUSY` when a byte is in flight. -/

namespace Sys2Proof.Machine

/-! ### A load of the counter (R103, R147) -/

/-- A load while a byte is in flight is recorded (R103). -/
theorem hLdtcntEffect_busy {s : State} (n : Byte) (h : s.hp.sh ≠ .idle) :
    (hLdtcntEffect n s).hasFault .hTcntBusy = true := by
  rw [hLdtcntEffect_eq]
  simp only [State.hasFault, BitVec.getLsbD_or, FaultBit.getLsbD_when, State.hostBusy_iff.2 h, decide_true,
    Bool.and_true, Bool.or_true, Bool.true_or]

/-- A command of the host program leaves the count, or it loads it, and then a byte in flight is recorded. -/
theorem exec_host_sameCount_or_busy {i : Instr} {s t : State} (hi : i.stream = .host) (h : exec i s = .next t) :
    SameCount s t ∨ (s.hp.sh ≠ .idle → t.hasFault .hTcntBusy = true) := by
  cases he : i.engine? with
  | some x =>
    by_cases hp : s.he.phase = .s3
    · rw [exec_s3 he hp] at h
      obtain rfl := Host.Outcome.next.inj h
      exact .inr (hLdtcntEffect_busy (BitVec.ofNat 8 s.he.len))
    · exact .inl (engineStep_sameCount hp (exec_engine (k := x.1) he s ▸ h))
  | none =>
    by_cases hload : ∃ n, i = .hLdtcnt n
    · obtain ⟨n, rfl⟩ := hload
      obtain rfl := Host.Outcome.next.inj h
      exact .inr (hLdtcntEffect_busy n)
    · exact .inl (exec_hostPeripheral_sameCount hi he (not_exists.1 hload) h)

/-! ### Every step -/

/-- The invariant is kept where the byte in flight, the count and the faults recorded are. -/
theorem State.flightCounted.of_sameCount {s t : State} (hs : s.flightCounted) (hcfg : t.cfg = s.cfg)
    (h : SameCount s t) (hf : KeepsFaults s t) : t.flightCounted := by
  obtain ⟨hsh, htcnt⟩ := h
  intro hdec hbusy
  rw [htcnt]
  exact (hs (hcfg ▸ hdec) (hsh ▸ hbusy)).imp_right (hf .hTcntBusy)

theorem exec_host_flightCounted {i : Instr} {s t : State} (hi : i.stream = .host) (h : exec i s = .next t)
    (hs : s.flightCounted) : t.flightCounted := by
  obtain ⟨_, _, _, _, _, _, _, _, _, _, _, _, hframe, -, hsh, -⟩ := exec_host_frame hi h
  obtain hcount | hload := exec_host_sameCount_or_busy hi h
  · exact hs.of_sameCount (by rw [hframe]) hcount (exec_keepsFaults h)
  · refine fun _ hbusy => .inr (hload ?_)
    rwa [hframe, hsh] at hbusy

/-- HS_COMPLETE leaves no byte in flight; HS_START needs a count, which `AtComplete` does not lower at the start (R110,
R111). -/
theorem hostPeripheralStep_flightCounted {s t : State} (h : hostPeripheralStep s = some t) : t.flightCounted := by
  obtain ⟨out, -, -, rfl⟩ | ⟨hen, hsh, rfl⟩ := hostPeripheralStep_cases h
  · exact State.flightCounted_of_idle rfl
  · obtain ⟨-, htcnt, -, -⟩ := (State.hsStartEnabled_iff hsh).1 hen
    rw [hsStart_eq]
    intro (hdec : s.cfg.tcntDec = .atComplete) _
    exact .inl (by simpa [hdec] using htcnt)

theorem step_flightCounted {s t : State} (hs : s.flightCounted) (h : step s = .next t) : t.flightCounted := by
  obtain ⟨-, hhp, -⟩ | hbyte | ⟨i, hi, hexec⟩ := step_host_cases h
  · exact hs.of_sameCount (programsAndParametersNeverWritten s t h).1 (.of_hp hhp) (step_keepsFaults h)
  · exact hostPeripheralStep_flightCounted hbyte
  · exact exec_host_flightCounted (State.hostIssue_stream hi).1 hexec
      (hs.of_sameCount s.takePick_cfg (.of_hp s.takePick_hp) s.takePick_keepsFaults)

/-! ### The exit of the loop (R151) -/

/-- L3 leaves the loop only at a count of 0. -/
theorem engineL3_exit {s : State} (h : (engineL3 s).he.phase = .d) : s.hp.tcnt = 0 ∧ (engineL3 s).hp = s.hp := by
  obtain ⟨h0, heq⟩ | ⟨-, heq⟩ := engineL3_cases s <;> rw [heq] at h ⊢
  · exact ⟨State.hostCountZero_iff.1 h0, rfl⟩
  · cases h

/-- Without a recorded reload, a count of 0 means that no byte is in flight. -/
theorem State.flightCounted.quiet {s : State} (hs : s.flightCounted) (hdec : s.cfg.tcntDec = .atComplete)
    (hf : s.hasFault .hTcntBusy = false) (h0 : s.hp.tcnt = 0) : s.hostQuiet = true := by
  refine State.hostQuiet_iff.2 ⟨Bool.eq_false_iff.2 fun hbusy => ?_, State.hostCountZero_iff.2 h0⟩
  obtain hn | hr := hs hdec (State.hostBusy_iff.1 hbusy)
  · exact hn h0
  · cases hf.symm.trans hr

/-- Settles O37: every step keeps the invariant, which at the exit of L3, at a count of 0, leaves no byte in flight. -/
theorem atCompleteReturnsQuiet : Obligations.AtCompleteReturnsQuiet := by
  refine ⟨fun s t hs h => step_flightCounted hs h, fun s t i x he hp hdec hs hf h hd => ?_⟩
  rw [exec_l3 he hp] at h
  obtain rfl := Host.Outcome.next.inj h
  obtain ⟨h0, hhp⟩ := engineL3_exit hd
  have hquiet := hs.quiet hdec hf h0
  rwa [State.hostQuiet, State.hostBusy, State.hostCountZero, ← hhp] at hquiet

end Sys2Proof.Machine
end

section
/-! The reference schedule (70_reset_and_hazards.md R311; log 1). With no pick listed and the policy `ref` the step is that
of `refAgent`, and what remains is which agent that is. -/

namespace Sys2Proof.Machine

/-- The state with the event of the reference schedule chosen: the first one pending. -/
def State.refChosen (s : State) : State := { s with choice := s.firstPending.getD s.choice }

section
variable {s : State} {a : Agent}

theorem step_of_refAgent (hp : s.picks = []) (hr : s.policy = .ref) (ha : s.refAgent = some a) :
    step s = runAgent a s.refChosen := by
  simp only [step, State.nextPick, State.takePick, State.refChosen, hp, hr, ha, Option.map_some]

theorem step_of_refAgent_none (hp : s.picks = []) (hr : s.policy = .ref) (ha : s.refAgent = none) :
    step s = .next s := by
  simp only [step, State.nextPick, hp, hr, ha, Option.map_none]

end

/-! ### The order of the agents -/

section
variable {s : State}

theorem State.refAgent_dispatcher (h : s.anyPending = true) : s.refAgent = some .dispatcher := if_pos h

theorem State.refAgent_of_none_pending (h : s.anyPending = false) :
    s.refAgent =
      if s.clientEnabled then some .clientProgram
      else if s.enabled .hostPeripheral && s.refHardwareTurn then some .hostPeripheral
      else if s.hostEnabled then some .hostProgram
      else none :=
  if_neg (Bool.eq_false_iff.1 h)

theorem State.refHardwareTurn_iff :
    s.refHardwareTurn = true ↔ s.he.phase = .idle ∨ s.he.phase = .l1 ∧ s.hwTurn = true := by
  simp [State.refHardwareTurn]

theorem State.refHardwareTurn_eq_false_iff :
    s.refHardwareTurn = false ↔ s.he.phase ≠ .idle ∧ (s.he.phase ≠ .l1 ∨ s.hwTurn = false) := by
  rw [← Bool.not_eq_true, State.refHardwareTurn_iff, not_or, not_and_or, Bool.not_eq_true]

end

/-! ### The events -/

/-- The first pending event in the order RX, STOP, START, TX. -/
theorem State.firstPending_eq_some_iff {s : State} {x : Event} :
    s.firstPending = some x ↔
      s.pending .rx = true ∧ x = .rx ∨
      s.pending .rx = false ∧ s.pending .stop = true ∧ x = .stop ∨
      s.pending .rx = false ∧ s.pending .stop = false ∧ s.pending .start = true ∧ x = .start ∨
      s.pending .rx = false ∧ s.pending .stop = false ∧ s.pending .start = false ∧ s.pending .tx = true ∧ x = .tx := by
  unfold State.firstPending
  split_ifs <;> simp [*, @eq_comm _ x]

/-- The first pending event is pending. -/
theorem State.pending_of_firstPending {s : State} {x : Event} (h : s.firstPending = some x) : s.pending x = true := by
  obtain ⟨hx, rfl⟩ | ⟨-, hx, rfl⟩ | ⟨-, -, hx, rfl⟩ | ⟨-, -, -, hx, rfl⟩ := State.firstPending_eq_some_iff.1 h <;> exact hx

theorem State.anyPending_of_pending {s : State} {x : Event} (h : s.pending x = true) : s.anyPending = true := by
  cases x <;> simp [State.anyPending, h]

/-- The dispatch of the reference schedule runs the handler of the first pending event. -/
theorem dispatchOne_refChosen {s : State} {x : Event} (h : s.firstPending = some x) :
    dispatchOne s.refChosen = runHandler x s.refChosen := by
  have hx : s.refChosen.choice = x := by rw [State.refChosen, h]; rfl
  have hpend : s.refChosen.pending x = true := State.pending_of_firstPending h
  rw [dispatchOne_of_choice (hx ▸ hpend), hx]

/-! ### The Host peripheral -/

/-- An enabled Host peripheral has a step: HS_COMPLETE with a byte in flight, else HS_START (R110, R111). -/
theorem hostPeripheralStep_of_enabled {s : State} (h : s.enabled .hostPeripheral = true) :
    ∃ t, hostPeripheralStep s = some t := by
  have hlive : s.env.stalled = false :=
    Bool.eq_false_iff.2 fun hst => by rw [hostPeripheral_disabled_of_stalled hst] at h; cases h
  cases hsh : s.hp.sh with
  | idle =>
    rw [State.enabled_hostPeripheral_of_idle hsh] at h
    exact ⟨hsStart s, by simp [hostPeripheralStep, hlive, hsh, h]⟩
  | busy out => exact ⟨hsComplete out s, by simp [hostPeripheralStep, hlive, hsh]⟩

/-- Settles O11: the reference schedule names the agent by the order of its tests, and each agent's step is then known. -/
theorem referenceScheduleOrder : Obligations.ReferenceScheduleOrder := by
  intro s hp hr
  refine ⟨s.firstPending.getD s.choice, ?dispatch, ?client, ?peripheral, ?host, ?none⟩
  case dispatch =>
    intro x hx
    have hfirst := State.firstPending_eq_some_iff.2 hx
    have hany := State.anyPending_of_pending (State.pending_of_firstPending hfirst)
    exact (step_of_refAgent hp hr (State.refAgent_dispatcher hany)).trans
      (congrArg Host.Outcome.next (dispatchOne_refChosen hfirst))
  case client =>
    intro hnone hc
    have ha : s.refAgent = some .clientProgram := by simp [State.refAgent_of_none_pending hnone, hc]
    exact step_of_refAgent hp hr ha
  case peripheral =>
    intro hnone hc hen hturn
    have ha : s.refAgent = some .hostPeripheral := by
      simp [State.refAgent_of_none_pending hnone, hc, hen, State.refHardwareTurn_iff.2 hturn]
    obtain ⟨t, ht⟩ := hostPeripheralStep_of_enabled (s := s.refChosen) hen
    refine ⟨t, ht, ?_⟩
    rw [step_of_refAgent hp hr ha, runAgent, ht, Option.getD_some]
  case host =>
    intro hnone hc hwait hh
    have hturn : (s.enabled .hostPeripheral && s.refHardwareTurn) = false :=
      Bool.and_eq_false_iff.2 (hwait.imp_right State.refHardwareTurn_eq_false_iff.2)
    have ha : s.refAgent = some .hostProgram := by simp [State.refAgent_of_none_pending hnone, hc, hturn, hh]
    exact step_of_refAgent hp hr ha
  case none =>
    intro hnone
    simp only [State.anyEnabled, Bool.or_eq_false_iff] at hnone
    obtain ⟨⟨⟨hd, hc⟩, hen⟩, hh⟩ := hnone
    exact step_of_refAgent_none hp hr (by simp [State.refAgent, hd, hc, hen, hh])

end Sys2Proof.Machine
end
